-- ==== Sys2Proof/Word.lean ====
section
/-! DEFINITION. The byte, the byte sequence and the command word of the MFU (00_scope.md R9, 30_encoding.md R97). -/

namespace Sys2Proof

/-- A byte is 8 bits (R9). -/
abbrev Byte := BitVec 8

/-- A byte sequence: a frame, a payload, a piece of the stream (R9). -/
abbrev Bytes := List Byte

/-- A command is one 64-bit word (R97). -/
abbrev CmdWord := BitVec 64

end Sys2Proof
end

