-- ==== Sys2Proof/Config.lean ====
section
/-! DEFINITION. What is fixed for this machine: its two channels, its byte spaces, the parameters of 00_scope.md R8, and
the free value of a byte that nothing has written. -/

namespace Sys2Proof

/-- The two command channels, one per half (10_state.md R20). -/
inductive Channel where
  | tx
  | rx
  deriving DecidableEq, Repr

/-- The other half's channel. -/
def Channel.other : Channel → Channel
  | .tx => .rx
  | .rx => .tx

/-- The three byte spaces of a half, by their part in it (20_memory.md R61): number 0 the payload space (`TXPAY`, `RXPAY`),
1 the frame buffer (`TXBUF`, `RXBUF`), 2 the key space (`TXKEY`, `RXKEY`). -/
inductive Space where
  | pay
  | buf
  | key
  deriving DecidableEq, Repr

namespace Config

/-- Marker byte of a v1 frame (R8, D7; UNVERIFIED: log 13). -/
def stxV1 : Byte := 0xFE

/-- Marker byte of a v2 frame (R8, D7; UNVERIFIED: log 13). -/
def stxV2 : Byte := 0xFD

/-- Largest payload length, also the size of a payload space (R8, 10_state.md R35). -/
def maxPayload : Nat := 255

/-- Largest frame in bytes, also the size of a frame buffer (R8, R35). -/
def maxFrame : Nat := 280

/-- Length of a secret key, also the size of a key space (R8, R35). -/
def keyBytes : Nat := 32

/-- Smallest length that trailing-zero truncation may reach (R8, D13). -/
def truncMin : Nat := 1

/-- Reset value of `T.CFG.TRUNC_EN` (R8, 10_state.md R45). -/
def truncEnReset : Bool := true

/-- FREE VALUE. What a byte of a byte space that no command has written since the last reset holds: 20_memory.md R66 gives it
no value, and 93_implementation_defined.md U1 allows 'any value drawn once per byte at reset and then stable'. The first
argument counts the resets. DESIGN CHOICE (log 1). -/
opaque unwritten : Nat → Channel → Space → Nat → Byte

end Config

end Sys2Proof
end

