-- ==== Sys2Proof/Syntax.lean ====
section
/-! DEFINITION. The command set: one constructor per row of spec/opcode_table.json (30_encoding.md R96), with the operands
of R98 and R99. The channel a command arrives on is no part of its word; it is in the machine's state. -/

namespace Sys2Proof

/-- The eighteen commands (R96). -/
inductive Instr where
  /-- `RDR reg` (45_access_system.md R220). -/
  | rdr (reg : BitVec 8)
  /-- `WRR reg, value` (R222). -/
  | wrr (reg : BitVec 8) (value : BitVec 48)
  /-- `LDB space, index` (R224). -/
  | ldb (space : BitVec 8) (index : BitVec 16)
  /-- `STB space, index, byte` (R225). -/
  | stb (space : BitVec 8) (index : BitVec 16) (byte : Byte)
  /-- `CRC.INIT` (40_crc.md R122). -/
  | crcInit
  /-- `CRC.ACC byte` (R123). -/
  | crcAcc (byte : Byte)
  /-- `CRC.BUF space, off, n` (R124). -/
  | crcBuf (space : BitVec 8) (off : BitVec 16) (n : BitVec 16)
  /-- `ENC.V1` (41_encode.md R142). -/
  | encV1
  /-- `ENC.V2U` (R145). -/
  | encV2U
  /-- `ENC.V2S` (R146). -/
  | encV2S
  /-- `TX.SEND` (R148). -/
  | txSend
  /-- `DEC.V1` (42_decode_validate.md R159). -/
  | decV1
  /-- `DEC.V2` (R160). -/
  | decV2
  /-- `RX.CHK seed` (R163). -/
  | rxChk (seed : Byte)
  /-- `SIG.VFY` (43_signature.md R176). -/
  | sigVfy
  /-- `SYNC.NEXT` (44_sync.md R197). -/
  | syncNext
  /-- `SYNC.DROP` (R198). -/
  | syncDrop
  /-- `SYNC.CONNECT` (R203). -/
  | syncConnect
  deriving DecidableEq, Repr

end Sys2Proof
end

