-- ==== Sys2Proof/WellFormed.lean ====
section
/-! DEFINITION. Which commands are legal on which channel (30_encoding.md R96). Every operand has exactly the width of its
field (R98), so the channel is the one thing a term of `Instr` can get wrong: R103 (b). -/

namespace Sys2Proof

/-- The command is legal on channel `c`: the channels column of R96. -/
def Instr.wellFormed (c : Channel) : Instr → Bool
  | .rdr _ | .wrr _ _ | .ldb _ _ | .stb _ _ _ => true
  | .crcInit | .crcAcc _ | .crcBuf _ _ _ => true
  | .encV1 | .encV2U | .encV2S | .txSend => c == .tx
  | .decV1 | .decV2 | .rxChk _ | .sigVfy => c == .rx
  | .syncNext | .syncDrop | .syncConnect => c == .rx

end Sys2Proof
end

