-- ==== Sys2Proof/Decode.lean ====
section
/-! DEFINITION. The command word: its fields, the opcode table, the decoder and the encoder (30_encoding.md R96 to R99, R103). -/

namespace Sys2Proof

/-! ### The table of R96 -/

/-- The seven formats of R98. -/
inductive Format where
  | N | R | W | L | S | B | C
  deriving DecidableEq, Repr

/-- The eighteen rows of R96. -/
inductive Opcode where
  | rdr | wrr | ldb | stb
  | crcInit | crcAcc | crcBuf
  | encV1 | encV2U | encV2S | txSend
  | decV1 | decV2 | rxChk | sigVfy
  | syncNext | syncDrop | syncConnect
  deriving DecidableEq, Repr

/-- The rows in the table's order. -/
def Opcode.all : List Opcode :=
  [.rdr, .wrr, .ldb, .stb, .crcInit, .crcAcc, .crcBuf, .encV1, .encV2U, .encV2S, .txSend,
   .decV1, .decV2, .rxChk, .sigVfy, .syncNext, .syncDrop, .syncConnect]

/-- The opcode column of R96. -/
def Opcode.code : Opcode → BitVec 8
  | .rdr => 0x01
  | .wrr => 0x02
  | .ldb => 0x03
  | .stb => 0x04
  | .crcInit => 0x10
  | .crcAcc => 0x11
  | .crcBuf => 0x12
  | .encV1 => 0x20
  | .encV2U => 0x21
  | .encV2S => 0x22
  | .txSend => 0x23
  | .decV1 => 0x30
  | .decV2 => 0x31
  | .rxChk => 0x32
  | .sigVfy => 0x33
  | .syncNext => 0x40
  | .syncDrop => 0x41
  | .syncConnect => 0x42

/-- The format column of R96. -/
def Opcode.format : Opcode → Format
  | .rdr => .R
  | .wrr => .W
  | .ldb => .L
  | .stb => .S
  | .crcInit => .N
  | .crcAcc => .B
  | .crcBuf => .C
  | .encV1 | .encV2U | .encV2S | .txSend => .N
  | .decV1 | .decV2 => .N
  | .rxChk => .B
  | .sigVfy => .N
  | .syncNext | .syncDrop | .syncConnect => .N

/-- The mask column of R98: the bits a format fixes. -/
def Format.mask : Format → CmdWord
  | .N => 0xFFFFFFFFFFFFFFFF
  | .R => 0xFF00FFFFFFFFFFFF
  | .W => 0xFF00000000000000
  | .L => 0xFF00FFFFFFFF0000
  | .S => 0xFF00FFFFFF000000
  | .B => 0xFFFFFFFFFFFFFF00
  | .C => 0xFF00FFFF00000000

/-- The row of an opcode value. -/
def Opcode.ofCode (c : BitVec 8) : Option Opcode := Opcode.all.find? (fun o => o.code == c)

/-! ### The word's fields (R97) -/

/-- `op`, bits 63:56. -/
def opField (w : CmdWord) : BitVec 8 := w.extractLsb' 56 8

/-- `a`, bits 55:48. -/
def aField (w : CmdWord) : BitVec 8 := w.extractLsb' 48 8

/-- `imm`, bits 47:0. -/
def immField (w : CmdWord) : BitVec 48 := w.extractLsb' 0 48

/-- The word with the three fields of R97. -/
def mkWord (op a : BitVec 8) (imm : BitVec 48) : CmdWord := (op ++ a ++ imm : BitVec (8 + 8 + 48))

/-- The must-be-zero bits of a format (R98) are zero. -/
def Format.zerosOk (f : Format) (a : BitVec 8) (imm : BitVec 48) : Bool :=
  match f with
  | .N => a == 0 && imm == 0
  | .R => imm == 0
  | .W => true
  | .L => imm.extractLsb' 16 32 == 0
  | .S => imm.extractLsb' 24 24 == 0
  | .B => a == 0 && imm.extractLsb' 8 40 == 0
  | .C => imm.extractLsb' 32 16 == 0

/-! ### The decoder -/

/-- Why a word is no command (R103 (a) and (c); (b), the wrong channel, is the meanings' check). -/
inductive IllegalWord where
  /-- The opcode is none of the eighteen. -/
  | unknownOpcode (op : BitVec 8)
  /-- A bit that the command's format requires to be zero is one. -/
  | mustBeZero (op : Opcode)
  deriving DecidableEq, Repr

/-- What the decoder reads from a word. -/
inductive Decoded where
  | instr (i : Instr)
  | illegal (why : IllegalWord)
  deriving DecidableEq, Repr

/-- The command, if there is one. -/
def Decoded.instr? : Decoded → Option Instr
  | .instr i => some i
  | .illegal _ => none

/-- Operand assembly (R99). -/
def Opcode.build (o : Opcode) (a : BitVec 8) (imm : BitVec 48) : Instr :=
  match o with
  | .rdr => .rdr a
  | .wrr => .wrr a imm
  | .ldb => .ldb a (imm.extractLsb' 0 16)
  | .stb => .stb a (imm.extractLsb' 8 16) (imm.extractLsb' 0 8)
  | .crcInit => .crcInit
  | .crcAcc => .crcAcc (imm.extractLsb' 0 8)
  | .crcBuf => .crcBuf a (imm.extractLsb' 16 16) (imm.extractLsb' 0 16)
  | .encV1 => .encV1
  | .encV2U => .encV2U
  | .encV2S => .encV2S
  | .txSend => .txSend
  | .decV1 => .decV1
  | .decV2 => .decV2
  | .rxChk => .rxChk (imm.extractLsb' 0 8)
  | .sigVfy => .sigVfy
  | .syncNext => .syncNext
  | .syncDrop => .syncDrop
  | .syncConnect => .syncConnect

/-- Decoding of a command word, total on all 64-bit words (R98, R99, R103). -/
def decode (w : CmdWord) : Decoded :=
  match Opcode.ofCode (opField w) with
  | none => .illegal (.unknownOpcode (opField w))
  | some o =>
    if o.format.zerosOk (aField w) (immField w) then .instr (o.build (aField w) (immField w))
    else .illegal (.mustBeZero o)

/-- The command read from a word whose low `nbits` bits are given as a number: spec/opcode_table.json numbers a command's
bits as R97 does, bit 0 the least significant bit of the one word. A number that does not fit the word is no command. -/
def decodeTableWord (nbits w : Nat) : Option Instr :=
  if w % 2 ^ nbits < 2 ^ 64 then (decode (BitVec.ofNat 64 (w % 2 ^ nbits))).instr? else none

/-! ### The encoder -/

/-- The row of R96 a command belongs to. -/
def Instr.opcode : Instr → Opcode
  | .rdr _ => .rdr
  | .wrr _ _ => .wrr
  | .ldb _ _ => .ldb
  | .stb _ _ _ => .stb
  | .crcInit => .crcInit
  | .crcAcc _ => .crcAcc
  | .crcBuf _ _ _ => .crcBuf
  | .encV1 => .encV1
  | .encV2U => .encV2U
  | .encV2S => .encV2S
  | .txSend => .txSend
  | .decV1 => .decV1
  | .decV2 => .decV2
  | .rxChk _ => .rxChk
  | .sigVfy => .sigVfy
  | .syncNext => .syncNext
  | .syncDrop => .syncDrop
  | .syncConnect => .syncConnect

/-- The `a` field of a command (R98): a register or space number, or zero. -/
def Instr.aBits : Instr → BitVec 8
  | .rdr reg | .wrr reg _ => reg
  | .ldb space _ | .stb space _ _ | .crcBuf space _ _ => space
  | _ => 0

/-- The `imm` field of a command (R98). -/
def Instr.immBits : Instr → BitVec 48
  | .wrr _ value => value
  | .ldb _ index => (0#32 ++ index : BitVec (32 + 16))
  | .stb _ index byte => (0#24 ++ index ++ byte : BitVec (24 + 16 + 8))
  | .crcAcc byte => (0#40 ++ byte : BitVec (40 + 8))
  | .crcBuf _ off n => (0#16 ++ off ++ n : BitVec (16 + 16 + 16))
  | .rxChk seed => (0#40 ++ seed : BitVec (40 + 8))
  | _ => 0

/-- The command's word (R97 to R99). -/
def encode (i : Instr) : CmdWord := mkWord i.opcode.code i.aBits i.immBits

end Sys2Proof
end

