-- ==== Sys2Proof/Machine/Bytes.lean ====
section
/-! DEFINITION. Byte sequences and byte order: the notation of 00_scope.md R9. -/

namespace Sys2Proof.Machine

/-- `s[i]`, used only where `i < |s|` was tested (R9). -/
def byteAt (s : Bytes) (i : Nat) : Byte := s.getD i 0

/-- `s[i..j)`: the elements `i` up to but not including `j` (R9). -/
def slice (s : Bytes) (i j : Nat) : Bytes := (s.drop i).take (j - i)

/-- `le_n(v)`: the `n`-byte little-endian byte sequence of `v`, `le_n(v)[k] = v[8k+7:8k]` (R9, 20_memory.md R62). -/
def leBytes (n : Nat) {w : Nat} (v : BitVec w) : Bytes := (List.range n).map fun k => v.extractLsb' (8 * k) 8

/-- `from_le(s)`: the sum over `k` of `s[k] << 8k` (R9). -/
def fromLe (w : Nat) (s : Bytes) : BitVec w := s.foldr (fun b acc => acc <<< 8 ||| b.setWidth w) 0

/-- `be_n(v)`: the `n`-byte big-endian byte sequence of `v` (43_signature.md R174). -/
def beBytes (n : Nat) {w : Nat} (v : BitVec w) : Bytes := (leBytes n v).reverse

/-- A length as a byte: the length byte of a frame (41_encode.md R149: never above 255). -/
def lenByte (s : Bytes) : Byte := BitVec.ofNat 8 s.length

/-- A flag as a number of `w` bits. -/
def flagBits (w : Nat) (b : Bool) : BitVec w := (BitVec.ofBool b).setWidth w

end Sys2Proof.Machine
end

