-- ==== Sys2Proof/Machine/State.lean ====
section
/-! DEFINITION. The state of the MFU (10_state.md), as plain data, with the agents around it, and the state after reset. -/

namespace Sys2Proof.Machine

/-! ### Byte spaces (10_state.md R35, 20_memory.md R61) -/

/-- A byte space as the list of its written bytes, addresses strictly rising. A byte that is not listed was not written since
reset and has no value (R66). -/
abbrev Memory := List Host.Cell

/-- What a byte that is not listed reads as: no value (R66). A reader that needs one takes the free value
`Config.unwritten` (log 1). -/
def Memory.unlisted : Option Byte := none

/-- The canonical form: addresses strictly rising. No entry can equal what an unlisted byte reads as, which is no value. -/
abbrev Memory.wf (m : Memory) : Prop := m.Pairwise (fun x y => x.1 < y.1)

/-- The three byte spaces of one half (R35). -/
structure Spaces where
  /-- `TXPAY` or `RXPAY`, 255 bytes. -/
  pay : Memory
  /-- `TXBUF` or `RXBUF`, 280 bytes. -/
  buf : Memory
  /-- `TXKEY` or `RXKEY`, 32 bytes, write-only to the host. -/
  key : Memory
  deriving DecidableEq, Repr

/-! ### Responses (60_exceptions.md R260, 30_encoding.md R97) -/

/-- The statuses of R260. -/
inductive Status where
  | ok | eos | format | ioerr | illegal | badarg | noframe | nosig | range
  deriving DecidableEq, Repr

/-- A response: status and 48 bits of data (R97). -/
structure Response where
  status : Status
  data : BitVec 48
  deriving DecidableEq, Repr

/-! ### The outside world's moves -/

/-- What the sink does with one `TX.SEND` (20_memory.md R77, 41_encode.md R148). -/
inductive SinkAnswer where
  /-- It takes every byte offered. -/
  | takesAll
  /-- It fails after taking `k` bytes; possible only if SINK_MAY_FAIL (00_scope.md R8). -/
  | failsAfter (k : Nat)
  deriving DecidableEq, Repr

/-- One move of an agent outside the MFU. -/
inductive Move where
  /-- A host thread issues a command word on its channel (20_memory.md R70). -/
  | issue (c : Channel) (w : CmdWord)
  /-- The source delivers a byte (R76). -/
  | deliver (b : Byte)
  /-- The source closes the stream (R76). -/
  | close
  /-- The sink decides on the `TX.SEND` that waits for it, or on the next one (R77). -/
  | sink (a : SinkAnswer)
  /-- The reset input is asserted and released (70_reset_and_hazards.md R290). It comes at once, whatever is executing, held or
  waiting (R291). -/
  | reset
  /-- Nothing happens until neither half can accept a command: a reset that stands behind it in the list comes when the
  commands issued before it have completed or are held (log 4). -/
  | wait
  deriving DecidableEq, Repr

/-! ### The scanner's hidden state -/

/-- The two frame formats (30_encoding.md R90). -/
inductive Ver where
  | v1
  | v2
  deriving DecidableEq, Repr

/-- The phase in which the scanner's attempt waits for bytes (44_sync.md R205): before the marker, the length byte, the flags
byte (with the length read), or the rest of the frame (with the number of bytes still needed). -/
inductive Phase where
  | marker
  | len (v : Ver)
  | flags (n : Byte)
  | body (v : Ver) (need : Nat)
  deriving DecidableEq, Repr

/-- The command that is held on the RX channel (R190): a `SYNC.NEXT` in a phase, or a `SYNC.DROP`. -/
inductive Held where
  | scan (p : Phase)
  | drop
  deriving DecidableEq, Repr

/-! ### The two halves (10_state.md R20) -/

/-- The TX half. -/
structure TxHalf where
  /-- `T.SEQ` (R23). -/
  seq : BitVec 8
  /-- `T.SYS` (R23). -/
  sys : BitVec 8
  /-- `T.COMP` (R23). -/
  comp : BitVec 8
  /-- `T.MSGID` (R23). -/
  msgid : BitVec 24
  /-- `T.SEED` (R23). -/
  seed : BitVec 8
  /-- `T.PLEN` (R23). -/
  plen : BitVec 8
  /-- `T.LINKID` (R23). -/
  linkid : BitVec 8
  /-- `T.TS` (R23). -/
  ts : BitVec 48
  /-- `T.CFG` bit 0, `TRUNC_EN`, its only bit (R24). -/
  truncEn : Bool
  /-- `T.STATUS` bit 0, `TXVALID`, its only bit (R25). -/
  txvalid : Bool
  /-- `T.CRCACC` (R26). -/
  crcacc : BitVec 16
  /-- `T.TXLEN` (R27). -/
  txlen : BitVec 9
  /-- `OUT`, the wire history since reset (R28). -/
  out : Bytes
  /-- `T.TXPAY`, `T.TXBUF`, `T.TXKEY` (R35). -/
  mem : Spaces
  /-- A `TX.SEND` is executing and held by the sink (41_encode.md R148). -/
  sending : Bool
  /-- The sink's answers to the `TX.SEND`s to come, oldest first (log 8). -/
  sink : List SinkAnswer
  /-- Words issued on the TX channel and not yet accepted, oldest first (20_memory.md R70, log 11). -/
  queue : List CmdWord
  /-- The responses given on the TX channel since reset, oldest first (log 12). -/
  responses : List Response
  deriving DecidableEq, Repr

/-- The RX half. -/
structure RxHalf where
  /-- `R.VER` (R30): 1 for V1, 2 for V2, 0 when no frame was ever decoded. -/
  ver : BitVec 2
  /-- `R.LEN` (R30). -/
  len : BitVec 8
  /-- `R.INCOMPAT` (R30). -/
  incompat : BitVec 8
  /-- `R.COMPAT` (R30). -/
  compat : BitVec 8
  /-- `R.SEQ` (R30). -/
  seq : BitVec 8
  /-- `R.SYS` (R30). -/
  sys : BitVec 8
  /-- `R.COMP` (R30). -/
  comp : BitVec 8
  /-- `R.MSGID` (R30). -/
  msgid : BitVec 24
  /-- `R.CKSUM` (R30). -/
  cksum : BitVec 16
  /-- `R.LINKID` (R30). -/
  linkid : BitVec 8
  /-- `R.TS` (R30). -/
  ts : BitVec 48
  /-- `R.HASH` (R30). -/
  hash : BitVec 48
  /-- `R.STATUS` bit 0, `FRAME` (R31). -/
  frame : Bool
  /-- `R.STATUS` bit 1, `CRC_OK` (R31). -/
  crcOk : Bool
  /-- `R.STATUS` bit 2, `SIG_OK` (R31). -/
  sigOk : Bool
  /-- `R.STATUS` bit 3, `EOS` (R31). -/
  eos : Bool
  /-- `R.STATUS` bit 4, `SIGNED` (R31). -/
  signed : Bool
  /-- `R.CRCACC` (R32). -/
  crcacc : BitVec 16
  /-- `R.RXLEN` (R33). -/
  rxlen : BitVec 9
  /-- `S`: the bytes delivered since the last connect and not committed (R41). -/
  stream : Bytes
  /-- `t`: the tentative cursor's offset from the committed one, read as `R.TENT` (R33, R41). -/
  tent : Nat
  /-- `closed`: the source has signalled end of stream (R41). -/
  closed : Bool
  /-- `R.RXPAY`, `R.RXBUF`, `R.RXKEY` (R35). -/
  mem : Spaces
  /-- The command executing and held for lack of bytes, with the scanner's phase (44_sync.md R190, R205). -/
  held : Option Held
  /-- Words issued on the RX channel and not yet accepted, oldest first (20_memory.md R70, log 11). -/
  queue : List CmdWord
  /-- The responses given on the RX channel since reset, oldest first (log 12). -/
  responses : List Response
  deriving DecidableEq, Repr

/-- The MFU and the agents around it. -/
structure State where
  /-- The TX half. -/
  tx : TxHalf
  /-- The RX half. -/
  rx : RxHalf
  /-- The channel of the command that is being, or was last, executed (log 5). -/
  chan : Channel
  /-- How many resets there have been: the index of the free values (log 1, log 2). -/
  epoch : Nat
  /-- The moves the outside world has still to make, in order (log 4). -/
  moves : List Move
  deriving DecidableEq, Repr

/-- The reasons a step can stop with a fault: none. Every error of the MFU is the status of a response, and a held command
only waits (60_exceptions.md R265, 93_implementation_defined.md U5). -/
inductive Fault where
  deriving DecidableEq, Repr

/-- The reasons a step can be refused. -/
inductive Refusal where
  /-- The command of this mnemonic has no meaning in the model. Raised by an arm of `exec`; no arm does. Safe. -/
  | notModelled (mnemonic : String)
  deriving DecidableEq, Repr

/-! ### Reset (10_state.md R45, 70_reset_and_hazards.md R290) -/

/-- Byte spaces no byte of which was written. -/
def Spaces.reset : Spaces := { pay := [], buf := [], key := [] }

/-- The TX half after reset. -/
def TxHalf.reset : TxHalf where
  seq := 0
  sys := 0
  comp := 0
  msgid := 0
  seed := 0
  plen := 0
  linkid := 0
  ts := 0
  truncEn := Config.truncEnReset
  txvalid := false
  crcacc := 0xFFFF
  txlen := 0
  out := []
  mem := Spaces.reset
  sending := false
  sink := []
  queue := []
  responses := []

/-- The RX half after reset: the stream open and empty. -/
def RxHalf.reset : RxHalf where
  ver := 0
  len := 0
  incompat := 0
  compat := 0
  seq := 0
  sys := 0
  comp := 0
  msgid := 0
  cksum := 0
  linkid := 0
  ts := 0
  hash := 0
  frame := false
  crcOk := false
  sigOk := false
  eos := false
  signed := false
  crcacc := 0xFFFF
  rxlen := 0
  stream := []
  tent := 0
  closed := false
  mem := Spaces.reset
  held := none
  queue := []
  responses := []

/-- The machine right after reset. `chan`, `epoch`, `moves`, `sink`, `queue` and `responses` are the model's own:
DESIGN CHOICE (log 2, log 4, log 5, log 8, log 11, log 12). -/
def State.reset : State where
  tx := TxHalf.reset
  rx := RxHalf.reset
  chan := .rx
  epoch := 0
  moves := []

end Sys2Proof.Machine
end

