-- ==== Sys2Proof/Machine/Ops.lean ====
section
/-! DEFINITION. The named operations over byte spaces, responses and the two halves. -/

namespace Sys2Proof.Machine

/-! ### Byte spaces (20_memory.md R63, R64, R66) -/

/-- The byte at index `i`, if it was written since reset. -/
def Memory.get? : Memory → Nat → Option Byte
  | [], _ => Memory.unlisted
  | c :: m, i => if c.1 = i then some c.2 else Memory.get? m i

/-- The cells of consecutive bytes from index `i`. -/
def Memory.cells : Nat → Bytes → Memory
  | _, [] => []
  | i, b :: bs => (i, b) :: Memory.cells (i + 1) bs

/-- Writing the bytes `bs` from index `i` on. -/
def Memory.write (m : Memory) (i : Nat) (bs : Bytes) : Memory :=
  m.filter (fun c => c.1 < i) ++ Memory.cells i bs ++ m.filter (fun c => i + bs.length ≤ c.1)

/-- The byte space of a half. -/
def Spaces.get (m : Spaces) : Space → Memory
  | .pay => m.pay
  | .buf => m.buf
  | .key => m.key

/-- The half's byte spaces with one of them replaced. -/
def Spaces.set (m : Spaces) (sp : Space) (x : Memory) : Spaces :=
  match sp with
  | .pay => { m with pay := x }
  | .buf => { m with buf := x }
  | .key => { m with key := x }

/-- One byte of a space: the byte last written there, or the free value of a byte not written since the reset number `e`
(R66, 93_implementation_defined.md U1, log 1). -/
def Spaces.readByte (e : Nat) (c : Channel) (m : Spaces) (sp : Space) (i : Nat) : Byte :=
  ((m.get sp).get? i).getD (Config.unwritten e c sp i)

/-- `MemRead(space, i, n)` (00_scope.md R10). -/
def Spaces.memRead (e : Nat) (c : Channel) (m : Spaces) (sp : Space) (i n : Nat) : Bytes :=
  (List.range n).map fun k => m.readByte e c sp (i + k)

/-- `MemWrite(space, i, |bs|, bs)` (R10). -/
def Spaces.memWrite (m : Spaces) (sp : Space) (i : Nat) (bs : Bytes) : Spaces :=
  m.set sp ((m.get sp).write i bs)

/-! ### Responses: `return` and `raise` of 00_scope.md R10

A status other than `OK` is all the exception this machine has: it transfers control nowhere, saves nothing and changes no
mode (60_exceptions.md R265, R266), so `raise` is its entry and there is no return. -/

/-- Status codes (60_exceptions.md R260). -/
def Status.code : Status → BitVec 8
  | .ok => 0x00
  | .eos => 0x01
  | .format => 0x02
  | .ioerr => 0x03
  | .illegal => 0x04
  | .badarg => 0x05
  | .noframe => 0x06
  | .nosig => 0x07
  | .range => 0x08

/-- The 56-bit response word: `status[55:48] data[47:0]` (30_encoding.md R97). -/
def Response.word (r : Response) : BitVec 56 := (r.status.code ++ r.data : BitVec (8 + 48))

/-- The one response of a command of the TX channel (R97). -/
def TxHalf.answer (t : TxHalf) (r : Response) : TxHalf := { t with responses := t.responses ++ [r] }

/-- The one response of a command of the RX channel (R97). -/
def RxHalf.answer (r : RxHalf) (x : Response) : RxHalf := { r with responses := r.responses ++ [x] }

/-- `return (OK, d)`. -/
def TxHalf.reply (t : TxHalf) (d : BitVec 48) : TxHalf := t.answer ⟨.ok, d⟩

/-- `return (OK, d)`. -/
def RxHalf.reply (r : RxHalf) (d : BitVec 48) : RxHalf := r.answer ⟨.ok, d⟩

/-- `raise st(info)`. -/
def TxHalf.raise (t : TxHalf) (st : Status) (info : BitVec 48) : TxHalf := t.answer ⟨st, info⟩

/-- `raise st(info)`. -/
def RxHalf.raise (r : RxHalf) (st : Status) (info : BitVec 48) : RxHalf := r.answer ⟨st, info⟩

/-- A word that is no command of the TX channel: `ILLEGAL`, nothing else changes (30_encoding.md R103). -/
def TxHalf.illegal (_e : Nat) (t : TxHalf) : TxHalf := t.raise .illegal 0

/-- A word that is no command of the RX channel: `ILLEGAL`, nothing else changes (R103). -/
def RxHalf.illegal (_e : Nat) (r : RxHalf) : RxHalf := r.raise .illegal 0

/-! ### The half a command acts on -/

/-- A command's effect on the half of the channel it arrived on (10_state.md R20: it touches nothing of the other half). The
effects get the reset count, the index of the free values. -/
def State.onChannel (s : State) (f : Nat → TxHalf → TxHalf) (g : Nat → RxHalf → RxHalf) : State :=
  match s.chan with
  | .tx => { s with tx := f s.epoch s.tx }
  | .rx => { s with rx := g s.epoch s.rx }

/-- A command legal on both channels. -/
def onBoth (f : Nat → TxHalf → TxHalf) (g : Nat → RxHalf → RxHalf) (s : State) : Host.Outcome State Fault Refusal :=
  .next (s.onChannel f g)

/-- A command legal on the TX channel only (30_encoding.md R96); on the other it is `ILLEGAL` (R103 (b)). -/
def onTx (f : Nat → TxHalf → TxHalf) (s : State) : Host.Outcome State Fault Refusal :=
  .next (s.onChannel f RxHalf.illegal)

/-- A command legal on the RX channel only (R96); on the other it is `ILLEGAL` (R103 (b)). -/
def onRx (g : Nat → RxHalf → RxHalf) (s : State) : Host.Outcome State Fault Refusal :=
  .next (s.onChannel TxHalf.illegal g)

/-- A word that does not decode, on the channel it arrived on (R103 (a), (c)). -/
def State.raiseIllegal (s : State) : State := s.onChannel TxHalf.illegal RxHalf.illegal

end Sys2Proof.Machine
end

