-- ==== Sys2Proof/Machine/Flags.lean ====
section
/-! DEFINITION. The status words and the changes of their flags (10_state.md R24, R25, R31, 45_access_system.md R221). -/

namespace Sys2Proof.Machine

/-- `T.STATUS` as a word: bit 0 `TXVALID` (R25, R221). -/
def TxHalf.statusWord (t : TxHalf) : BitVec 1 := flagBits 1 t.txvalid

/-- `T.CFG` as a word: bit 0 `TRUNC_EN` (R24, R221). -/
def TxHalf.cfgWord (t : TxHalf) : BitVec 1 := flagBits 1 t.truncEn

/-- `R.STATUS` as a word: bits 0 to 4 `FRAME`, `CRC_OK`, `SIG_OK`, `EOS`, `SIGNED` (R31, R221). -/
def RxHalf.statusWord (r : RxHalf) : BitVec 5 :=
  flagBits 5 r.frame ||| flagBits 5 r.crcOk <<< 1 ||| flagBits 5 r.sigOk <<< 2 ||| flagBits 5 r.eos <<< 3 |||
    flagBits 5 r.signed <<< 4

/-- `FRAME <- 0 ; CRC_OK <- 0 ; SIG_OK <- 0 ; SIGNED <- 0`: the entry of every command that moves to another frame or to no
frame (R31). `EOS` stays. -/
def RxHalf.clearFrame (r : RxHalf) : RxHalf :=
  { r with frame := false, crcOk := false, sigOk := false, signed := false }

/-- The verdict of `RX.CHK` (42_decode_validate.md R163). -/
def RxHalf.setCrcOk (r : RxHalf) (b : Bool) : RxHalf := { r with crcOk := b }

/-- The verdict of `SIG.VFY` (43_signature.md R176). -/
def RxHalf.setSigOk (r : RxHalf) (b : Bool) : RxHalf := { r with sigOk := b }

end Sys2Proof.Machine
end

