-- ==== Sys2Proof/Machine/Operands.lean ====
section
/-! DEFINITION. The operands of the access commands: register numbers, widths and access (30_encoding.md R100), byte-space
numbers, sizes and access (20_memory.md R61). -/

namespace Sys2Proof.Machine

/-! ### Registers of the TX half -/

/-- The registers of the TX half (R100). -/
inductive TxReg where
  | status | cfg | crcacc | seq | sys | comp | msgid | seed | plen | linkid | ts | txlen
  deriving DecidableEq, Repr

/-- The registers in the table's order. -/
def TxReg.all : List TxReg := [.status, .cfg, .crcacc, .seq, .sys, .comp, .msgid, .seed, .plen, .linkid, .ts, .txlen]

/-- The number column of R100. -/
def TxReg.number : TxReg → BitVec 8
  | .status => 0x00
  | .cfg => 0x01
  | .crcacc => 0x02
  | .seq => 0x03
  | .sys => 0x04
  | .comp => 0x05
  | .msgid => 0x06
  | .seed => 0x07
  | .plen => 0x08
  | .linkid => 0x09
  | .ts => 0x0A
  | .txlen => 0x0B

/-- The width column of R100. -/
def TxReg.width : TxReg → Nat
  | .status | .cfg => 1
  | .crcacc => 16
  | .seq | .sys | .comp | .seed | .plen | .linkid => 8
  | .msgid => 24
  | .ts => 48
  | .txlen => 9

/-- The access column of R100: RW. -/
def TxReg.writable : TxReg → Bool
  | .status | .txlen => false
  | _ => true

/-- The register of a number. -/
def TxReg.ofNumber (n : BitVec 8) : Option TxReg := TxReg.all.find? (fun r => r.number == n)

/-- `zext_48(x[reg])` (45_access_system.md R220, R221). -/
def TxHalf.readReg (t : TxHalf) : TxReg → BitVec 48
  | .status => t.statusWord.setWidth 48
  | .cfg => t.cfgWord.setWidth 48
  | .crcacc => t.crcacc.setWidth 48
  | .seq => t.seq.setWidth 48
  | .sys => t.sys.setWidth 48
  | .comp => t.comp.setWidth 48
  | .msgid => t.msgid.setWidth 48
  | .seed => t.seed.setWidth 48
  | .plen => t.plen.setWidth 48
  | .linkid => t.linkid.setWidth 48
  | .ts => t.ts
  | .txlen => t.txlen.setWidth 48

/-- `x[reg] <- value` for a value that fits; a read-only register stays (R222). -/
def TxHalf.writeReg (t : TxHalf) (r : TxReg) (v : BitVec 48) : TxHalf :=
  match r with
  | .cfg => { t with truncEn := v.getLsbD 0 }
  | .crcacc => { t with crcacc := v.setWidth 16 }
  | .seq => { t with seq := v.setWidth 8 }
  | .sys => { t with sys := v.setWidth 8 }
  | .comp => { t with comp := v.setWidth 8 }
  | .msgid => { t with msgid := v.setWidth 24 }
  | .seed => { t with seed := v.setWidth 8 }
  | .plen => { t with plen := v.setWidth 8 }
  | .linkid => { t with linkid := v.setWidth 8 }
  | .ts => { t with ts := v }
  | .status | .txlen => t

/-- The register a `WRR reg, value` of the TX channel may write: it exists, is writable, and the value fits its width (R222). -/
def TxReg.target (n : BitVec 8) (v : BitVec 48) : Option TxReg :=
  match TxReg.ofNumber n with
  | none => none
  | some r => if r.writable && decide (v.toNat < 2 ^ r.width) then some r else none

/-! ### Registers of the RX half -/

/-- The registers of the RX half (R100). -/
inductive RxReg where
  | status | crcacc | ver | len | incompat | compat | seq | sys | comp | msgid | cksum | linkid | ts | hash | rxlen | tent
  deriving DecidableEq, Repr

/-- The registers in the table's order. -/
def RxReg.all : List RxReg :=
  [.status, .crcacc, .ver, .len, .incompat, .compat, .seq, .sys, .comp, .msgid, .cksum, .linkid, .ts, .hash, .rxlen, .tent]

/-- The number column of R100. -/
def RxReg.number : RxReg → BitVec 8
  | .status => 0x00
  | .crcacc => 0x02
  | .ver => 0x10
  | .len => 0x11
  | .incompat => 0x12
  | .compat => 0x13
  | .seq => 0x14
  | .sys => 0x15
  | .comp => 0x16
  | .msgid => 0x17
  | .cksum => 0x18
  | .linkid => 0x19
  | .ts => 0x1A
  | .hash => 0x1B
  | .rxlen => 0x1C
  | .tent => 0x1D

/-- The width column of R100. -/
def RxReg.width : RxReg → Nat
  | .status => 5
  | .crcacc | .cksum => 16
  | .ver => 2
  | .len | .incompat | .compat | .seq | .sys | .comp | .linkid => 8
  | .msgid => 24
  | .ts | .hash => 48
  | .rxlen | .tent => 9

/-- The access column of R100: RW. -/
def RxReg.writable : RxReg → Bool
  | .crcacc | .rxlen => true
  | _ => false

/-- The register of a number. -/
def RxReg.ofNumber (n : BitVec 8) : Option RxReg := RxReg.all.find? (fun r => r.number == n)

/-- `zext_48(x[reg])` (45_access_system.md R220, R221); `R.TENT` reads as `t`, in its 9 bits (10_state.md R33). -/
def RxHalf.readReg (r : RxHalf) : RxReg → BitVec 48
  | .status => r.statusWord.setWidth 48
  | .crcacc => r.crcacc.setWidth 48
  | .ver => r.ver.setWidth 48
  | .len => r.len.setWidth 48
  | .incompat => r.incompat.setWidth 48
  | .compat => r.compat.setWidth 48
  | .seq => r.seq.setWidth 48
  | .sys => r.sys.setWidth 48
  | .comp => r.comp.setWidth 48
  | .msgid => r.msgid.setWidth 48
  | .cksum => r.cksum.setWidth 48
  | .linkid => r.linkid.setWidth 48
  | .ts => r.ts
  | .hash => r.hash
  | .rxlen => r.rxlen.setWidth 48
  | .tent => (BitVec.ofNat 9 r.tent).setWidth 48

/-- `x[reg] <- value` for a value that fits; a read-only register stays (R222). -/
def RxHalf.writeReg (r : RxHalf) (x : RxReg) (v : BitVec 48) : RxHalf :=
  match x with
  | .crcacc => { r with crcacc := v.setWidth 16 }
  | .rxlen => { r with rxlen := v.setWidth 9 }
  | _ => r

/-- The register a `WRR reg, value` of the RX channel may write: it exists, is writable, the value fits its width, and a
value for `RXLEN` is at most 280 (R222). -/
def RxReg.target (n : BitVec 8) (v : BitVec 48) : Option RxReg :=
  match RxReg.ofNumber n with
  | none => none
  | some r =>
    if r.writable && decide (v.toNat < 2 ^ r.width) && !(r == .rxlen && decide (Config.maxFrame < v.toNat)) then some r
    else none

end Sys2Proof.Machine

/-! ### Byte spaces (20_memory.md R61) -/

namespace Sys2Proof

/-- The space of a number: 3 to 255 do not exist. -/
def Space.ofNumber (a : BitVec 8) : Option Space :=
  if a = 0 then some .pay else if a = 1 then some .buf else if a = 2 then some .key else none

/-- The size column of R61. -/
def Space.size : Space → Nat
  | .pay => Config.maxPayload
  | .buf => Config.maxFrame
  | .key => Config.keyBytes

/-- The `LDB` and `CRC.BUF` columns of R61: the key spaces are write-only. -/
def Space.readable : Space → Bool
  | .pay | .buf => true
  | .key => false

/-- The `STB` column of R61. -/
def Space.writable : Channel → Space → Bool
  | .tx, .pay | .tx, .key | .rx, .buf | .rx, .key => true
  | .tx, .buf | .rx, .pay => false

/-- The space from which `LDB` or `CRC.BUF` may read `n` bytes at index `i`: it exists, is readable, and the range lies inside it,
computed without wrap (45_access_system.md R224, 40_crc.md R124, R127). -/
def Space.source (a : BitVec 8) (i n : Nat) : Option Space :=
  match Space.ofNumber a with
  | none => none
  | some sp => if sp.readable && decide (i + n ≤ sp.size) then some sp else none

/-- The space to which `STB` of a channel may write at index `i` (45_access_system.md R225). -/
def Space.target (c : Channel) (a : BitVec 8) (i : Nat) : Option Space :=
  match Space.ofNumber a with
  | none => none
  | some sp => if Space.writable c sp && decide (i < sp.size) then some sp else none

end Sys2Proof
end

