-- ==== Sys2Proof/Machine/Access.lean ====
section
/-! DEFINITION. Register and byte-space access: RDR, WRR, LDB, STB (45_access_system.md). -/

namespace Sys2Proof.Machine

/-! ### RDR (R220) -/

/-- `RDR` on the TX channel. -/
def TxHalf.rdr (reg : BitVec 8) (_e : Nat) (t : TxHalf) : TxHalf :=
  match TxReg.ofNumber reg with
  | none => t.raise .badarg 0
  | some r => t.reply (t.readReg r)

/-- `RDR` on the RX channel. -/
def RxHalf.rdr (reg : BitVec 8) (_e : Nat) (r : RxHalf) : RxHalf :=
  match RxReg.ofNumber reg with
  | none => r.raise .badarg 0
  | some x => r.reply (r.readReg x)

/-- `RDR reg` (R220). -/
def execRdr (reg : BitVec 8) (s : State) : Host.Outcome State Fault Refusal :=
  onBoth (TxHalf.rdr reg) (RxHalf.rdr reg) s

/-! ### WRR (R222) -/

/-- `WRR` on the TX channel. -/
def TxHalf.wrr (reg : BitVec 8) (value : BitVec 48) (_e : Nat) (t : TxHalf) : TxHalf :=
  match TxReg.target reg value with
  | none => t.raise .badarg 0
  | some r => (t.writeReg r value).reply 0

/-- `WRR` on the RX channel. -/
def RxHalf.wrr (reg : BitVec 8) (value : BitVec 48) (_e : Nat) (r : RxHalf) : RxHalf :=
  match RxReg.target reg value with
  | none => r.raise .badarg 0
  | some x => (r.writeReg x value).reply 0

/-- `WRR reg, value` (R222). -/
def execWrr (reg : BitVec 8) (value : BitVec 48) (s : State) : Host.Outcome State Fault Refusal :=
  onBoth (TxHalf.wrr reg value) (RxHalf.wrr reg value) s

/-! ### LDB (R224) -/

/-- `LDB` on the TX channel. -/
def TxHalf.ldb (space : BitVec 8) (index : BitVec 16) (e : Nat) (t : TxHalf) : TxHalf :=
  match Space.source space index.toNat 1 with
  | none => t.raise .badarg 0
  | some sp => t.reply ((t.mem.readByte e .tx sp index.toNat).setWidth 48)

/-- `LDB` on the RX channel. -/
def RxHalf.ldb (space : BitVec 8) (index : BitVec 16) (e : Nat) (r : RxHalf) : RxHalf :=
  match Space.source space index.toNat 1 with
  | none => r.raise .badarg 0
  | some sp => r.reply ((r.mem.readByte e .rx sp index.toNat).setWidth 48)

/-- `LDB space, index` (R224). -/
def execLdb (space : BitVec 8) (index : BitVec 16) (s : State) : Host.Outcome State Fault Refusal :=
  onBoth (TxHalf.ldb space index) (RxHalf.ldb space index) s

/-! ### STB (R225) -/

/-- `STB` on the TX channel. -/
def TxHalf.stb (space : BitVec 8) (index : BitVec 16) (byte : Byte) (_e : Nat) (t : TxHalf) : TxHalf :=
  match Space.target .tx space index.toNat with
  | none => t.raise .badarg 0
  | some sp => { t with mem := t.mem.memWrite sp index.toNat [byte] }.reply 0

/-- `STB` on the RX channel. -/
def RxHalf.stb (space : BitVec 8) (index : BitVec 16) (byte : Byte) (_e : Nat) (r : RxHalf) : RxHalf :=
  match Space.target .rx space index.toNat with
  | none => r.raise .badarg 0
  | some sp => { r with mem := r.mem.memWrite sp index.toNat [byte] }.reply 0

/-- `STB space, index, byte` (R225). -/
def execStb (space : BitVec 8) (index : BitVec 16) (byte : Byte) (s : State) : Host.Outcome State Fault Refusal :=
  onBoth (TxHalf.stb space index byte) (RxHalf.stb space index byte) s

end Sys2Proof.Machine
end

