-- ==== Sys2Proof/Machine/Crc.lean ====
section
/-! DEFINITION. The CRC-16 checksum unit (40_crc.md): the update function and the commands CRC.INIT, CRC.ACC, CRC.BUF. -/

namespace Sys2Proof.Machine

/-! ### The algorithm (R120, R121) -/

/-- The initial value (R120). -/
def crcInitial : BitVec 16 := 0xFFFF

/-- One step of the bit loop: shift right, and apply the reflected polynomial when the bit shifted out is one (R121). -/
def crcBit (c : BitVec 16) : BitVec 16 := if c.getLsbD 0 then (c >>> 1) ^^^ 0x8408 else c >>> 1

/-- `n` steps of the bit loop. -/
def crcBits : Nat → BitVec 16 → BitVec 16
  | 0, c => c
  | n + 1, c => crcBits n (crcBit c)

/-- `CrcAcc(c, b)` (R121). -/
def crcAcc (c : BitVec 16) (b : Byte) : BitVec 16 := crcBits 8 (c ^^^ b.setWidth 16)

/-- `Crc16From(c, s)` (R121). -/
def crc16From (c : BitVec 16) (s : Bytes) : BitVec 16 := s.foldl crcAcc c

/-- `Crc16(s)` (R121). -/
def crc16 (s : Bytes) : BitVec 16 := crc16From crcInitial s

/-! ### CRC.INIT (R122) -/

/-- `CRC.INIT` on the TX channel. -/
def TxHalf.crcInit (_e : Nat) (t : TxHalf) : TxHalf := { t with crcacc := crcInitial }.reply 0

/-- `CRC.INIT` on the RX channel. -/
def RxHalf.crcInit (_e : Nat) (r : RxHalf) : RxHalf := { r with crcacc := crcInitial }.reply 0

/-- `CRC.INIT` (R122). -/
def execCrcInit (s : State) : Host.Outcome State Fault Refusal := onBoth TxHalf.crcInit RxHalf.crcInit s

/-! ### CRC.ACC (R123) -/

/-- The accumulator written and answered, zero-extended (R123, R124). -/
def TxHalf.replyCrc (t : TxHalf) (c : BitVec 16) : TxHalf := { t with crcacc := c }.reply (c.setWidth 48)

/-- The accumulator written and answered, zero-extended (R123, R124). -/
def RxHalf.replyCrc (r : RxHalf) (c : BitVec 16) : RxHalf := { r with crcacc := c }.reply (c.setWidth 48)

/-- `CRC.ACC byte` (R123). -/
def execCrcAcc (byte : Byte) (s : State) : Host.Outcome State Fault Refusal :=
  onBoth (fun _ t => t.replyCrc (Sys2Proof.Machine.crcAcc t.crcacc byte))
    (fun _ r => r.replyCrc (Sys2Proof.Machine.crcAcc r.crcacc byte)) s

/-! ### CRC.BUF (R124) -/

/-- `CRC.BUF` on the TX channel. -/
def TxHalf.crcBuf (space : BitVec 8) (off n : BitVec 16) (e : Nat) (t : TxHalf) : TxHalf :=
  match Space.source space off.toNat n.toNat with
  | none => t.raise .badarg 0
  | some sp => t.replyCrc (crc16From t.crcacc (t.mem.memRead e .tx sp off.toNat n.toNat))

/-- `CRC.BUF` on the RX channel. -/
def RxHalf.crcBuf (space : BitVec 8) (off n : BitVec 16) (e : Nat) (r : RxHalf) : RxHalf :=
  match Space.source space off.toNat n.toNat with
  | none => r.raise .badarg 0
  | some sp => r.replyCrc (crc16From r.crcacc (r.mem.memRead e .rx sp off.toNat n.toNat))

/-- `CRC.BUF space, off, n` (R124). -/
def execCrcBuf (space : BitVec 8) (off n : BitVec 16) (s : State) : Host.Outcome State Fault Refusal :=
  onBoth (TxHalf.crcBuf space off n) (RxHalf.crcBuf space off n) s

end Sys2Proof.Machine
end

