-- ==== Sys2Proof/Machine/Frame.lean ====
section
/-! DEFINITION. The wire formats (30_encoding.md R90 to R95) and the frame checksum (40_crc.md R125). -/

namespace Sys2Proof.Machine

/-- A decoded frame (42_decode_validate.md R155 to R157). A v1 frame has zero flag bytes, and an unsigned one no signature
fields (R158). -/
structure Frame where
  ver : Ver
  len : Byte
  incompat : Byte
  compat : Byte
  seq : Byte
  sys : Byte
  comp : Byte
  msgid : BitVec 24
  payload : Bytes
  cksum : BitVec 16
  signed : Bool
  linkid : Byte
  ts : BitVec 48
  hash : Bytes
  deriving DecidableEq, Repr

/-- The v1 header with its marker, 6 bytes (R91). -/
def headerV1 (len seq sys comp : Byte) (msgid : BitVec 24) : Bytes :=
  [Config.stxV1, len, seq, sys, comp, msgid.setWidth 8]

/-- The v2 header with its marker, 10 bytes (R92). -/
def headerV2 (len incompat compat seq sys comp : Byte) (msgid : BitVec 24) : Bytes :=
  [Config.stxV2, len, incompat, compat, seq, sys, comp] ++ leBytes 3 msgid

/-- `FrameCrc`: the checksum over the header without its marker, the payload, and the seed last (40_crc.md R125). -/
def frameCrc (hdr pay : Bytes) (seed : Byte) : BitVec 16 := crc16 (hdr.drop 1 ++ pay ++ [seed])

/-- The signed bit of an incompat byte (R92). -/
def signedBit (incompat : Byte) : Bool := incompat.getLsbD 0

/-- The bytes of a signature block that a v2 frame has: 13 or none (R92, R93). -/
def sigLen (incompat : Byte) : Nat := if signedBit incompat then 13 else 0

/-- The length of a v1 frame with `n` payload bytes (R91). -/
def frameLenV1 (n : Byte) : Nat := 8 + n.toNat

/-- The length of a v2 frame with `n` payload bytes and this incompat byte (R92). -/
def frameLenV2 (n incompat : Byte) : Nat := 12 + n.toNat + sigLen incompat

/-- The link id and timestamp of a signature block, 7 bytes (R93). -/
def sigTail (linkid : Byte) (ts : BitVec 48) : Bytes := [linkid] ++ leBytes 6 ts

end Sys2Proof.Machine
end

