-- ==== Sys2Proof/Machine/Signature.lean ====
section
/-! DEFINITION. The keyed hash (43_signature.md R173, R174), the signed bytes (R172), and the command SIG.VFY (R176). -/

namespace Sys2Proof.Machine

/-! ### SHA-256 (R174, R179) -/

/-- A hash word. -/
abbrev Word32 := BitVec 32

/-- `ROTR(x, k)`. -/
def rotr (x : Word32) (k : Nat) : Word32 := (x >>> k) ||| (x <<< (32 - k))

/-- `s0`, of the message schedule. -/
def smallSigma0 (x : Word32) : Word32 := rotr x 7 ^^^ rotr x 18 ^^^ (x >>> 3)

/-- `s1`, of the message schedule. -/
def smallSigma1 (x : Word32) : Word32 := rotr x 17 ^^^ rotr x 19 ^^^ (x >>> 10)

/-- `S0`, of the round. -/
def bigSigma0 (x : Word32) : Word32 := rotr x 2 ^^^ rotr x 13 ^^^ rotr x 22

/-- `S1`, of the round. -/
def bigSigma1 (x : Word32) : Word32 := rotr x 6 ^^^ rotr x 11 ^^^ rotr x 25

/-- `Ch`. -/
def choose (x y z : Word32) : Word32 := (x &&& y) ^^^ (~~~x &&& z)

/-- `Maj`. -/
def majority (x y z : Word32) : Word32 := (x &&& y) ^^^ (x &&& z) ^^^ (y &&& z)

/-- A row of eight hash words, the first one in the highest bits. -/
abbrev WordRow := BitVec 256

/-- Word `i` of a row. -/
def WordRow.word (r : WordRow) (i : Nat) : Word32 := r.extractLsb' (32 * (7 - i)) 32

/-- The rows of R174's table of `K`, eight words each. -/
def shaKRows : List WordRow :=
  [0x428a2f9871374491b5c0fbcfe9b5dba53956c25b59f111f1923f82a4ab1c5ed5,
   0xd807aa9812835b01243185be550c7dc372be5d7480deb1fe9bdc06a7c19bf174,
   0xe49b69c1efbe47860fc19dc6240ca1cc2de92c6f4a7484aa5cb0a9dc76f988da,
   0x983e5152a831c66db00327c8bf597fc7c6e00bf3d5a7914706ca635114292967,
   0x27b70a852e1b21384d2c6dfc53380d13650a7354766a0abb81c2c92e92722c85,
   0xa2bfe8a1a81a664bc24b8b70c76c51a3d192e819d6990624f40e3585106aa070,
   0x19a4c1161e376c082748774c34b0bcb5391c0cb34ed8aa4a5b9cca4f682e6ff3,
   0x748f82ee78a5636f84c878148cc7020890befffaa4506cebbef9a3f7c67178f2]

/-- `K[0..63]`, read off the table row by row. -/
def shaK : List Word32 := shaKRows.flatMap fun r => (List.range 8).map r.word

/-- The eight working words, `H` or `(a, ..., h)`. -/
structure ShaState where
  a : Word32
  b : Word32
  c : Word32
  d : Word32
  e : Word32
  f : Word32
  g : Word32
  h : Word32
  deriving DecidableEq, Repr

/-- The initial `H`, as one row. -/
def shaInitialRow : WordRow := 0x6a09e667bb67ae853c6ef372a54ff53a510e527f9b05688c1f83d9ab5be0cd19

/-- The working words of a row. -/
def ShaState.ofRow (r : WordRow) : ShaState where
  a := r.word 0
  b := r.word 1
  c := r.word 2
  d := r.word 3
  e := r.word 4
  f := r.word 5
  g := r.word 6
  h := r.word 7

/-- The initial `H`. -/
def shaInitial : ShaState := ShaState.ofRow shaInitialRow

/-- One round, with `K[t]` and `W[t]`. -/
def shaRound (s : ShaState) (kw : Word32 × Word32) : ShaState :=
  let t1 := s.h + bigSigma1 s.e + choose s.e s.f s.g + kw.1 + kw.2
  let t2 := bigSigma0 s.a + majority s.a s.b s.c
  ⟨t1 + t2, s.a, s.b, s.c, s.d + t1, s.e, s.f, s.g⟩

/-- The big-endian words of a byte sequence, `B[4t..4t+4)`. -/
def beWords : Bytes → List Word32
  | b0 :: b1 :: b2 :: b3 :: rest => (b0 ++ b1 ++ b2 ++ b3 : BitVec (8 + 8 + 8 + 8)) :: beWords rest
  | _ => []

/-- `n` more words of the message schedule, which is kept newest first. -/
def shaExtend : Nat → List Word32 → List Word32
  | 0, w => w
  | n + 1, w =>
    shaExtend n ((smallSigma1 (w.getD 1 0) + w.getD 6 0 + smallSigma0 (w.getD 14 0) + w.getD 15 0) :: w)

/-- The schedule `W[0..63]` of a block. -/
def shaSchedule (block : Bytes) : List Word32 := (shaExtend 48 (beWords block).reverse).reverse

/-- One block: 64 rounds and the addition to `H`. -/
def shaBlock (s : ShaState) (block : Bytes) : ShaState :=
  let r := (shaK.zip (shaSchedule block)).foldl shaRound s
  ⟨s.a + r.a, s.b + r.b, s.c + r.c, s.d + r.d, s.e + r.e, s.f + r.f, s.g + r.g, s.h + r.h⟩

/-- The padded message: `0x80`, zeros to a multiple of 64, and the length in bits as 8 big-endian bytes. -/
def shaPad (m : Bytes) : Bytes :=
  m ++ [0x80] ++ List.replicate ((64 - (m.length + 9) % 64) % 64) 0 ++ beBytes 8 (BitVec.ofNat 64 (8 * m.length))

/-- The first `n` 64-byte blocks. -/
def shaBlocks : Nat → Bytes → List Bytes
  | 0, _ => []
  | n + 1, p => p.take 64 :: shaBlocks n (p.drop 64)

/-- The digest of the final words. -/
def ShaState.digest (s : ShaState) : Bytes :=
  beBytes 4 s.a ++ beBytes 4 s.b ++ beBytes 4 s.c ++ beBytes 4 s.d ++
    beBytes 4 s.e ++ beBytes 4 s.f ++ beBytes 4 s.g ++ beBytes 4 s.h

/-- `SHA256(M)` (R174). -/
def sha256 (m : Bytes) : Bytes :=
  let p := shaPad m
  ((shaBlocks (p.length / 64) p).foldl shaBlock shaInitial).digest

/-! ### The keyed hash and what is signed -/

/-- `MAC48(key, m)`: the first six bytes of `SHA256(key ++ m)` (R173). Everything else uses the hash through this one
definition, so another hash replaces it here. -/
def mac48 (key m : Bytes) : Bytes := (sha256 (key ++ m)).take 6

/-- `SignedBytes`: header with marker, payload, checksum, link id and timestamp, in wire order (R172). -/
def signedBytes (len incompat compat seq sys comp : Byte) (msgid : BitVec 24) (payload : Bytes) (cksum : BitVec 16)
    (linkid : Byte) (ts : BitVec 48) : Bytes :=
  headerV2 len incompat compat seq sys comp msgid ++ payload ++ leBytes 2 cksum ++ sigTail linkid ts

/-! ### SIG.VFY (R176) -/

/-- The payload of the current frame, `R.RXPAY[0..LEN)` (10_state.md R30). -/
def RxHalf.payload (e : Nat) (r : RxHalf) : Bytes := r.mem.memRead e .rx .pay 0 r.len.toNat

/-- The signed bytes of the current frame, with the checksum the frame carries. -/
def RxHalf.signedBytes (e : Nat) (r : RxHalf) : Bytes :=
  Sys2Proof.Machine.signedBytes r.len r.incompat r.compat r.seq r.sys r.comp r.msgid (r.payload e) r.cksum r.linkid r.ts

/-- The recomputed hash equals `R.HASH`, over all 48 bits. -/
def RxHalf.hashMatches (e : Nat) (r : RxHalf) : Bool :=
  fromLe 48 (mac48 (r.mem.memRead e .rx .key 0 Config.keyBytes) (r.signedBytes e)) == r.hash

/-- `SIG.VFY` on the RX channel. -/
def RxHalf.sigVfy (e : Nat) (r : RxHalf) : RxHalf :=
  if !r.frame then r.raise .noframe 0
  else if r.ver != 2 || !r.signed then r.raise .nosig 0
  else (r.setSigOk (r.hashMatches e)).reply (flagBits 48 (r.hashMatches e))

/-- `SIG.VFY` (R176). -/
def execSigVfy (s : State) : Host.Outcome State Fault Refusal := onRx RxHalf.sigVfy s

end Sys2Proof.Machine
end

