-- ==== Sys2Proof/Machine/Decoder.lean ====
section
/-! DEFINITION. The frame decoders and the checksum validator: DEC.V1, DEC.V2, RX.CHK (42_decode_validate.md). -/

namespace Sys2Proof.Machine

/-! ### The decode functions (R156, R157); none is a format error -/

/-- `DecodeV1(f)` (R156). -/
def decodeV1 (f : Bytes) : Option Frame :=
  if f.length < 2 then none
  else
    let n := byteAt f 1
    if f.length < frameLenV1 n then none
    else some {
      ver := .v1, len := n, incompat := 0, compat := 0
      seq := byteAt f 2, sys := byteAt f 3, comp := byteAt f 4
      msgid := (byteAt f 5).setWidth 24
      payload := slice f 6 (6 + n.toNat)
      cksum := fromLe 16 (slice f (6 + n.toNat) (8 + n.toNat))
      signed := false, linkid := 0, ts := 0, hash := [] }

/-- The signature block of a v2 frame with `n` payload bytes (R157, 30_encoding.md R93). -/
def withSignature (f : Bytes) (n : Nat) (r : Frame) : Frame :=
  { r with
    linkid := byteAt f (12 + n)
    ts := fromLe 48 (slice f (13 + n) (19 + n))
    hash := slice f (19 + n) (25 + n) }

/-- `DecodeV2(f)` (R157). -/
def decodeV2 (f : Bytes) : Option Frame :=
  if f.length < 3 then none
  else
    let n := byteAt f 1
    let incompat := byteAt f 2
    if f.length < frameLenV2 n incompat then none
    else
      let r : Frame := {
        ver := .v2, len := n, incompat := incompat, compat := byteAt f 3
        seq := byteAt f 4, sys := byteAt f 5, comp := byteAt f 6
        msgid := fromLe 24 (slice f 7 10)
        payload := slice f 10 (10 + n.toNat)
        cksum := fromLe 16 (slice f (10 + n.toNat) (12 + n.toNat))
        signed := signedBit incompat, linkid := 0, ts := 0, hash := [] }
      some (if signedBit incompat then withSignature f n.toNat r else r)

/-- The decoder of a format. -/
def decodeFrame : Ver → Bytes → Option Frame
  | .v1, f => decodeV1 f
  | .v2, f => decodeV2 f

/-- The number of bytes the frame occupied (R159, R160). -/
def Frame.size (r : Frame) : Nat :=
  match r.ver with
  | .v1 => frameLenV1 r.len
  | .v2 => frameLenV2 r.len r.incompat

/-! ### Writing the result (R158) -/

/-- The value of `R.VER` for a format (10_state.md R30). -/
def Ver.number : Ver → BitVec 2
  | .v1 => 1
  | .v2 => 2

/-- The payload zero-extended to the 255 bytes of `R.RXPAY`. -/
def zeroExtend (pay : Bytes) : Bytes := pay ++ List.replicate (Config.maxPayload - pay.length) 0

/-- `StoreFrame(r)`: every RX descriptor register and all of `R.RXPAY` (R158). -/
def RxHalf.storeFrame (r : RxHalf) (f : Frame) : RxHalf :=
  { r with
    ver := f.ver.number
    len := f.len
    incompat := f.incompat
    compat := f.compat
    seq := f.seq
    sys := f.sys
    comp := f.comp
    msgid := f.msgid
    cksum := f.cksum
    signed := f.signed
    linkid := f.linkid
    ts := f.ts
    hash := fromLe 48 f.hash
    mem := r.mem.memWrite .pay 0 (zeroExtend f.payload)
    frame := true
    crcOk := false
    sigOk := false }

/-! ### DEC.V1, DEC.V2 (R159, R160) -/

/-- `R.RXBUF[0..RXLEN)`. -/
def RxHalf.window (e : Nat) (r : RxHalf) : Bytes := r.mem.memRead e .rx .buf 0 r.rxlen.toNat

/-- A stand-alone decode of the buffer. -/
def RxHalf.decodeWindow (v : Ver) (e : Nat) (r : RxHalf) : RxHalf :=
  match decodeFrame v (r.window e) with
  | none => r.clearFrame.raise .format 0
  | some f => (r.clearFrame.storeFrame f).reply (BitVec.ofNat 48 f.size)

/-- `DEC.V1` (R159). -/
def execDecV1 (s : State) : Host.Outcome State Fault Refusal := onRx (RxHalf.decodeWindow .v1) s

/-- `DEC.V2` (R160). -/
def execDecV2 (s : State) : Host.Outcome State Fault Refusal := onRx (RxHalf.decodeWindow .v2) s

/-! ### RX.CHK (R163) -/

/-- The header of the current frame, from its decoded fields. -/
def RxHalf.header (r : RxHalf) : Bytes :=
  if r.ver = 1 then headerV1 r.len r.seq r.sys r.comp r.msgid
  else headerV2 r.len r.incompat r.compat r.seq r.sys r.comp r.msgid

/-- The checksum recomputed for a seed. -/
def RxHalf.recomputedCrc (seed : Byte) (e : Nat) (r : RxHalf) : BitVec 16 := frameCrc r.header (r.payload e) seed

/-- `RX.CHK` on the RX channel. -/
def RxHalf.rxChk (seed : Byte) (e : Nat) (r : RxHalf) : RxHalf :=
  if !r.frame then r.raise .noframe 0
  else
    let c := r.recomputedCrc seed e
    ({ r with crcacc := c }.setCrcOk (c == r.cksum)).reply (flagBits 48 (c == r.cksum))

/-- `RX.CHK seed` (R163). -/
def execRxChk (seed : Byte) (s : State) : Host.Outcome State Fault Refusal := onRx (RxHalf.rxChk seed) s

end Sys2Proof.Machine
end

