-- ==== Sys2Proof/Machine/Encoder.lean ====
section
/-! DEFINITION. The frame encoders and the sender: ENC.V1, ENC.V2U, ENC.V2S, TX.SEND (41_encode.md). -/

namespace Sys2Proof.Machine

/-! ### What every encoder does (R140, R141) -/

/-- A frame as built: its wire bytes and the checksum in it. -/
structure Built where
  bytes : Bytes
  cksum : BitVec 16
  deriving DecidableEq, Repr

/-- `T.TXPAY[0..T.PLEN)`. -/
def TxHalf.payload (e : Nat) (t : TxHalf) : Bytes := t.mem.memRead e .tx .pay 0 t.plen.toNat

/-- The end of a successful encoder: the frame in `T.TXBUF`, its length in `T.TXLEN`, its checksum in `T.CRCACC`, `TXVALID`
set, and the length answered. Nothing else is written (R140). -/
def TxHalf.finishEncode (t : TxHalf) (b : Built) : TxHalf :=
  { t with
    mem := t.mem.memWrite .buf 0 b.bytes
    txlen := BitVec.ofNat 9 b.bytes.length
    crcacc := b.cksum
    txvalid := true }.reply (BitVec.ofNat 48 b.bytes.length)

/-! ### ENC.V1 (R142) -/

/-- The v1 frame of these fields. -/
def buildV1 (seq sys comp : Byte) (msgid : BitVec 24) (seed : Byte) (pay : Bytes) : Built :=
  let hdr := headerV1 (lenByte pay) seq sys comp msgid
  let c := frameCrc hdr pay seed
  ⟨hdr ++ pay ++ leBytes 2 c, c⟩

/-- `ENC.V1` on the TX channel. -/
def TxHalf.encV1 (e : Nat) (t : TxHalf) : TxHalf :=
  if 0xFF < t.msgid.toNat then t.raise .range 0
  else t.finishEncode (buildV1 t.seq t.sys t.comp t.msgid t.seed (t.payload e))

/-- `ENC.V1` (R142). -/
def execEncV1 (s : State) : Host.Outcome State Fault Refusal := onTx TxHalf.encV1 s

/-! ### Trailing-zero truncation (R144) -/

/-- The loop of `Trunc`: from `m` down while `m > TRUNC_MIN` and `pay[m-1]` is zero. -/
def truncLen (pay : Bytes) : Nat → Nat
  | 0 => 0
  | m + 1 => if Config.truncMin < m + 1 ∧ byteAt pay m = 0 then truncLen pay m else m + 1

/-- `Trunc(pay)`. -/
def trunc (pay : Bytes) : Bytes := pay.take (truncLen pay pay.length)

/-- `WirePayload(pay)`. -/
def TxHalf.wirePayload (e : Nat) (t : TxHalf) : Bytes := if t.truncEn then trunc (t.payload e) else t.payload e

/-! ### ENC.V2U (R143, R145) -/

/-- The unsigned v2 frame of these fields: both flag bytes zero. -/
def buildV2U (seq sys comp : Byte) (msgid : BitVec 24) (seed : Byte) (pay : Bytes) : Built :=
  let hdr := headerV2 (lenByte pay) 0 0 seq sys comp msgid
  let c := frameCrc hdr pay seed
  ⟨hdr ++ pay ++ leBytes 2 c, c⟩

/-- `ENC.V2U` on the TX channel. -/
def TxHalf.encV2U (e : Nat) (t : TxHalf) : TxHalf :=
  t.finishEncode (buildV2U t.seq t.sys t.comp t.msgid t.seed (t.wirePayload e))

/-- `ENC.V2U` (R145). -/
def execEncV2U (s : State) : Host.Outcome State Fault Refusal := onTx TxHalf.encV2U s

/-! ### ENC.V2S (R143, R146) -/

/-- The signed v2 frame of these fields: the signed bit set, the other flag bits zero. -/
def buildV2S (seq sys comp : Byte) (msgid : BitVec 24) (seed linkid : Byte) (ts : BitVec 48) (key pay : Bytes) : Built :=
  let hdr := headerV2 (lenByte pay) 1 0 seq sys comp msgid
  let c := frameCrc hdr pay seed
  let sb := signedBytes (lenByte pay) 1 0 seq sys comp msgid pay c linkid ts
  ⟨sb ++ mac48 key sb, c⟩

/-- `ENC.V2S` on the TX channel. -/
def TxHalf.encV2S (e : Nat) (t : TxHalf) : TxHalf :=
  t.finishEncode (buildV2S t.seq t.sys t.comp t.msgid t.seed t.linkid t.ts
    (t.mem.memRead e .tx .key 0 Config.keyBytes) (t.wirePayload e))

/-- `ENC.V2S` (R146). -/
def execEncV2S (s : State) : Host.Outcome State Fault Refusal := onTx TxHalf.encV2S s

/-! ### TX.SEND (R148) -/

/-- The encoded frame, `T.TXBUF[0..TXLEN)`. -/
def TxHalf.txFrame (e : Nat) (t : TxHalf) : Bytes := t.mem.memRead e .tx .buf 0 t.txlen.toNat

/-- The sink's move on the frame offered (20_memory.md R77): it takes every byte, or fails after a prefix. A sink cannot take
more bytes than it was offered (log 8). -/
def TxHalf.offer (e : Nat) (t : TxHalf) : SinkAnswer → TxHalf
  | .takesAll => { t with out := t.out ++ t.txFrame e }.reply (t.txlen.setWidth 48)
  | .failsAfter k =>
    { t with out := t.out ++ (t.txFrame e).take k }.raise .ioerr (BitVec.ofNat 48 (min k t.txlen.toNat))

/-- A `TX.SEND` in progress completes with the sink's next answer, or stays held until there is one. -/
def TxHalf.resume (e : Nat) (t : TxHalf) : TxHalf :=
  if t.sending then
    match t.sink with
    | [] => t
    | a :: rest => { t with sending := false, sink := rest }.offer e a
  else t

/-- `TX.SEND` on the TX channel. -/
def TxHalf.txSend (e : Nat) (t : TxHalf) : TxHalf :=
  if !t.txvalid then t.raise .noframe 0 else { t with sending := true }.resume e

/-- `TX.SEND` (R148). -/
def execTxSend (s : State) : Host.Outcome State Fault Refusal := onTx TxHalf.txSend s

end Sys2Proof.Machine
end

