-- ==== Sys2Proof/Machine/Sync.lean ====
section
/-! DEFINITION. The frame-sync scanner and its transactional buffer: SYNC.NEXT, SYNC.DROP, SYNC.CONNECT (44_sync.md).

A primitive that lacks bytes on an open stream holds (R190): the command stops there, with its phase and cursor kept in
`held` and `tent`, and goes on from there at the source's next move. A command that is not held runs to its end (log 6). -/

namespace Sys2Proof.Machine

/-! ### The buffer primitives (R191 to R195), over `S`, `t` and `closed` of 10_state.md R41 -/

/-- What `BufRead` gives. -/
inductive ReadResult where
  | byte (b : Byte)
  | endOfStream
  | hold
  deriving DecidableEq, Repr

/-- `BufRead()` (R191): on a byte the cursor is one further. -/
def bufRead (stream : Bytes) (t : Nat) (closed : Bool) : ReadResult :=
  match stream[t]? with
  | some b => .byte b
  | none => if closed then .endOfStream else .hold

/-- What `BufAdvance` gives. -/
inductive AdvanceResult where
  | advanced
  | failed
  | hold
  deriving DecidableEq, Repr

/-- `BufAdvance(n)` (R192): on success the cursor is `n` further, on failure it has not moved. -/
def bufAdvance (stream : Bytes) (t : Nat) (closed : Bool) (n : Nat) : AdvanceResult :=
  if t + n ≤ stream.length then .advanced else if closed then .failed else .hold

/-- `BufCommit()` (R194). -/
def RxHalf.bufCommit (r : RxHalf) : RxHalf := { r with stream := r.stream.drop r.tent, tent := 0 }

/-- `BufRollback()` (R195). -/
def RxHalf.bufRollback (r : RxHalf) : RxHalf := { r with tent := 0 }

/-! ### One attempt (R193), from any of its phases -/

/-- How an attempt ends: `Ended`, `Failed`, `Found` with the window's length, or held in a phase with the cursor at `t`. -/
inductive Attempt where
  | ended
  | failed
  | found (v : Ver) (n : Nat)
  | hold (p : Phase) (t : Nat)
  deriving DecidableEq, Repr

/-- The rest of the frame: `BufAdvance(need)`. -/
def attemptBody (stream : Bytes) (closed : Bool) (t : Nat) (v : Ver) (need : Nat) : Attempt :=
  match bufAdvance stream t closed need with
  | .advanced => .found v (t + need)
  | .failed => .failed
  | .hold => .hold (.body v need) t

/-- The flags byte of a v2 frame of `n` payload bytes. -/
def attemptFlags (stream : Bytes) (closed : Bool) (t : Nat) (n : Byte) : Attempt :=
  match bufRead stream t closed with
  | .byte r => attemptBody stream closed (t + 1) .v2 (7 + n.toNat + 2 + sigLen r)
  | .endOfStream => .failed
  | .hold => .hold (.flags n) t

/-- The length byte. -/
def attemptLen (stream : Bytes) (closed : Bool) (t : Nat) (v : Ver) : Attempt :=
  match bufRead stream t closed with
  | .byte n =>
    match v with
    | .v1 => attemptBody stream closed (t + 1) .v1 (4 + n.toNat + 2)
    | .v2 => attemptFlags stream closed (t + 1) n
  | .endOfStream => .failed
  | .hold => .hold (.len v) t

/-- The marker. -/
def attemptMarker (stream : Bytes) (closed : Bool) (t : Nat) : Attempt :=
  match bufRead stream t closed with
  | .byte m =>
    if m = Config.stxV1 then attemptLen stream closed (t + 1) .v1
    else if m = Config.stxV2 then attemptLen stream closed (t + 1) .v2
    else .failed
  | .endOfStream => .ended
  | .hold => .hold .marker t

/-- An attempt, from the phase it is in. -/
def attemptFrom (stream : Bytes) (closed : Bool) (t : Nat) : Phase → Attempt
  | .marker => attemptMarker stream closed t
  | .len v => attemptLen stream closed t v
  | .flags n => attemptFlags stream closed t n
  | .body v need => attemptBody stream closed t v need

/-! ### The scan: attempts, and one byte dropped after each that fails (R196, R197) -/

/-- Where a scan stops: the bytes left, and what the last attempt gave (never `failed`). -/
structure ScanResult where
  stream : Bytes
  stop : Attempt
  deriving DecidableEq, Repr

/-- The loop of R197 from its marker read. After a failed attempt `Drop` rolls back, skips one byte and commits (R196); on a
non-empty buffer that leaves the bytes after the first. -/
def scan (closed : Bool) : Bytes → ScanResult
  | [] => ⟨[], attemptMarker [] closed 0⟩
  | b :: rest =>
    match attemptMarker (b :: rest) closed 0 with
    | .failed => scan closed rest
    | a => ⟨b :: rest, a⟩

/-- The loop of R197 from the phase of the attempt in progress. -/
def scanFrom (stream : Bytes) (closed : Bool) (t : Nat) (p : Phase) : ScanResult :=
  match attemptFrom stream closed t p with
  | .failed => scan closed (stream.drop 1)
  | a => ⟨stream, a⟩

/-- The window found: its bytes to `R.RXBUF`, its length to `R.RXLEN`, its fields to the descriptor. The decode cannot fail
(R197); if it could, nothing would be stored (log 16). -/
def RxHalf.capture (r : RxHalf) (v : Ver) (w : Bytes) : RxHalf :=
  let r1 := { r with mem := r.mem.memWrite .buf 0 w, rxlen := BitVec.ofNat 9 w.length }
  match decodeFrame v w with
  | none => r1
  | some f => r1.storeFrame f

/-- What a `SYNC.NEXT` does where its scan stops: `EOS`, a window, or being held. -/
def RxHalf.finishScan (r : RxHalf) (x : ScanResult) : RxHalf :=
  match x.stop with
  | .ended => { r with stream := x.stream, tent := 0, held := none, eos := true }.raise .eos 0
  | .found v n =>
    ({ r with stream := x.stream, tent := n, held := none }.capture v (x.stream.take n)).reply (BitVec.ofNat 48 n)
  | .hold p t => { r with stream := x.stream, tent := t, held := some (.scan p) }
  | .failed => r

/-- What a `SYNC.DROP` does: one byte is consumed; on an empty open stream it is held, on an empty closed one it is a no-op
(R196, R198). -/
def RxHalf.finishDrop (r : RxHalf) : RxHalf :=
  match bufRead r.stream 0 r.closed with
  | .byte _ => ({ r with tent := 1, held := none }.bufCommit).reply 0
  | .endOfStream => { r with tent := 0, held := none }.bufCommit.reply 0
  | .hold => { r with tent := 0, held := some .drop }

/-- The command in progress on the RX channel goes on as far as the bytes delivered allow. -/
def RxHalf.resume (r : RxHalf) : RxHalf :=
  match r.held with
  | none => r
  | some (.scan p) => r.finishScan (scanFrom r.stream r.closed r.tent p)
  | some .drop => r.finishDrop

/-! ### The commands -/

/-- `SYNC.NEXT` on the RX channel (R197): clear the flags, commit the previous window, scan. -/
def RxHalf.syncNext (_e : Nat) (r : RxHalf) : RxHalf := { r.clearFrame.bufCommit with held := some (.scan .marker) }.resume

/-- `SYNC.NEXT` (R197). -/
def execSyncNext (s : State) : Host.Outcome State Fault Refusal := onRx RxHalf.syncNext s

/-- `SYNC.DROP` on the RX channel (R198): clear the flags, roll back, drop one byte. -/
def RxHalf.syncDrop (_e : Nat) (r : RxHalf) : RxHalf := { r.clearFrame.bufRollback with held := some .drop }.resume

/-- `SYNC.DROP` (R198). -/
def execSyncDrop (s : State) : Host.Outcome State Fault Refusal := onRx RxHalf.syncDrop s

/-- `SYNC.CONNECT` on the RX channel (R203). -/
def RxHalf.syncConnect (_e : Nat) (r : RxHalf) : RxHalf :=
  { r.clearFrame with stream := [], tent := 0, closed := false, eos := false }.reply 0

/-- `SYNC.CONNECT` (R203). -/
def execSyncConnect (s : State) : Host.Outcome State Fault Refusal := onRx RxHalf.syncConnect s

end Sys2Proof.Machine
end

