-- ==== Sys2Proof/Machine/Dispatch.lean ====
section
/-! DEFINITION. The meaning of each command, one arm each. -/

namespace Sys2Proof.Machine

-- The command's channel is s.chan.
def exec (i : Instr) (s : State) : Host.Outcome State Fault Refusal :=
  match i with
  | .rdr reg => Sys2Proof.Machine.execRdr reg s
  | .wrr reg value => Sys2Proof.Machine.execWrr reg value s
  | .ldb space index => Sys2Proof.Machine.execLdb space index s
  | .stb space index byte => Sys2Proof.Machine.execStb space index byte s
  | .crcInit => Sys2Proof.Machine.execCrcInit s
  | .crcAcc byte => Sys2Proof.Machine.execCrcAcc byte s
  | .crcBuf space off n => Sys2Proof.Machine.execCrcBuf space off n s
  | .encV1 => Sys2Proof.Machine.execEncV1 s
  | .encV2U => Sys2Proof.Machine.execEncV2U s
  | .encV2S => Sys2Proof.Machine.execEncV2S s
  | .txSend => Sys2Proof.Machine.execTxSend s
  | .decV1 => Sys2Proof.Machine.execDecV1 s
  | .decV2 => Sys2Proof.Machine.execDecV2 s
  | .rxChk seed => Sys2Proof.Machine.execRxChk seed s
  | .sigVfy => Sys2Proof.Machine.execSigVfy s
  | .syncNext => Sys2Proof.Machine.execSyncNext s
  | .syncDrop => Sys2Proof.Machine.execSyncDrop s
  | .syncConnect => Sys2Proof.Machine.execSyncConnect s

end Sys2Proof.Machine
end

