-- ==== Sys2Proof/Machine/Issue.lean ====
section
/-! DEFINITION. How commands reach a half, and the moves of the agents outside (20_memory.md R70, R76, R77,
70_reset_and_hazards.md R290). -/

namespace Sys2Proof.Machine

/-! ### Accepting a command (R70) -/

/-- The word the TX half can accept: the oldest issued one, unless a command is held. -/
def TxHalf.ready (t : TxHalf) : Option CmdWord := if t.sending then none else t.queue.head?

/-- The word the RX half can accept: the oldest issued one, unless a command is held. -/
def RxHalf.ready (r : RxHalf) : Option CmdWord := if r.held.isSome then none else r.queue.head?

/-- The word a half can accept. -/
def State.ready (s : State) : Channel → Option CmdWord
  | .tx => s.tx.ready
  | .rx => s.rx.ready

/-- The reset input comes next: nothing is executed before it, and a command that a half could have begun is abandoned
(R290, R291). -/
def State.resetNext (s : State) : Bool := s.moves.head? == some .reset

/-- The command to execute next: the halves take turns, so that neither starves the other (70_reset_and_hazards.md R305 (b),
log 5). -/
def State.nextCommand (s : State) : Option (Channel × CmdWord) :=
  match s.ready s.chan.other with
  | some w => some (s.chan.other, w)
  | none => (s.ready s.chan).map fun w => (s.chan, w)

/-- The half takes the oldest word out of its queue and begins to execute it. -/
def State.accept (s : State) : Channel → State
  | .tx => { s with chan := .tx, tx := { s.tx with queue := s.tx.queue.tail } }
  | .rx => { s with chan := .rx, rx := { s.rx with queue := s.rx.queue.tail } }

/-- A word accepted on the channel `s.chan`: its command is executed, or it is `ILLEGAL` (30_encoding.md R103). -/
def runWord (w : CmdWord) (s : State) : Host.Outcome State Fault Refusal :=
  match decode w with
  | .instr i => exec i s
  | .illegal _ => .next s.raiseIllegal

/-! ### The outside world -/

/-- A host thread issues a word on its channel; it waits there until the half accepts it (log 11). -/
def State.issue (s : State) (c : Channel) (w : CmdWord) : State :=
  match c with
  | .tx => { s with tx := { s.tx with queue := s.tx.queue ++ [w] } }
  | .rx => { s with rx := { s.rx with queue := s.rx.queue ++ [w] } }

/-- `Deliver(b)`: `S <- S ++ [b]`, and a held command goes on. After `Close` the source delivers nothing (R76, log 7). -/
def RxHalf.deliver (r : RxHalf) (b : Byte) : RxHalf :=
  if r.closed then r else { r with stream := r.stream ++ [b] }.resume

/-- `Close`: `closed <- true`, and a held command goes on (R76). -/
def RxHalf.close (r : RxHalf) : RxHalf := { r with closed := true }.resume

/-- The sink decides on a `TX.SEND`, the held one if there is one (R77). -/
def TxHalf.sinkMove (e : Nat) (t : TxHalf) (a : SinkAnswer) : TxHalf := { t with sink := t.sink ++ [a] }.resume e

/-- The reset input: every piece of the MFU's state has its reset value, whatever came before, and a command executing, held or
not yet accepted is lost and gets no response (R290, R291). The moves still to come and the sink are outside the MFU; the reset count goes
up, since never-written bytes are drawn anew (log 1, log 10). -/
def State.pinReset (s : State) : State :=
  { State.reset with tx := { TxHalf.reset with sink := s.tx.sink }, epoch := s.epoch + 1, moves := s.moves }

/-- One move of an agent outside the MFU. -/
def State.applyMove (s : State) : Move → State
  | .issue c w => s.issue c w
  | .deliver b => { s with rx := s.rx.deliver b }
  | .close => { s with rx := s.rx.close }
  | .sink a => { s with tx := s.tx.sinkMove s.epoch a }
  | .reset => s.pinReset
  | .wait => s

/-- The outside world's next move; with none left the machine idles (log 4). -/
def State.outsideMove (s : State) : State :=
  match s.moves with
  | [] => s
  | m :: rest => { s with moves := rest }.applyMove m

/-! ### Placing a command for the very next step -/

/-- A channel on which a word is legal: RX for the commands of the RX half alone, else TX. -/
def wordChannel (w : CmdWord) : Channel :=
  match decode w with
  | .instr i => if i.wellFormed .tx then .tx else .rx
  | .illegal _ => .tx

/-- The moves to come, with no reset at their head. -/
def State.noReset (s : State) : State := { s with moves := s.moves.dropWhile fun m => m == .reset }

/-- The word is the oldest issued one on a channel where it is legal, that channel is not held, it is its turn, and no reset
comes first. -/
def State.placeWord (s : State) (w : CmdWord) : State :=
  match wordChannel w with
  | .tx => { s.noReset with chan := .rx, tx := { s.tx with queue := w :: s.tx.queue, sending := false } }
  | .rx => { s.noReset with chan := .tx, rx := { s.rx with queue := w :: s.rx.queue, held := none } }

end Sys2Proof.Machine
end

