-- ==== Sys2Proof/Machine/Step.lean ====
section
/-! DEFINITION. One step of the machine: a half executes the next command issued to it; when neither half can accept one, or the
reset input comes, the outside world makes its next move. -/

namespace Sys2Proof.Machine

/-- One step. -/
def step (s : State) : Host.Outcome State Fault Refusal :=
  if s.resetNext then .next s.outsideMove
  else
    match s.nextCommand with
    | some (c, w) => runWord w (s.accept c)
    | none => .next s.outsideMove

/-- `s` with the command word `w` (its bits above `nbits` zero) issued where the very next step accepts it (log 14). -/
def State.withFetchWord (s : State) (nbits w : Nat) : State :=
  s.placeWord (BitVec.ofNat 64 (w % 2 ^ nbits))

end Sys2Proof.Machine
end

