-- ==== Sys2Proof/Machine/HostContract.lean ====
section
/-! DEFINITION. The host's contract (46_host_connection.md): the Connection's procedures, written over the commands. It is
environment, not hardware (00_scope.md R5): nothing in `step` uses it.

A procedure that holds a lock stands in `Conn` as plain data: where it is, and which response it waits for (log 18). Its
thread gives a command, is suspended until the response is there, and goes on with it. Reader, writer and MFU move one at a
time, in any order: a `next` that waits for bytes stays where it is, keeps what it has dropped and reported, and lets a send
go on beside it. -/

namespace Sys2Proof.Machine

/-! ### The MFU as a host's thread sees it -/

/-- The responses given on a channel. -/
def State.responses (s : State) : Channel → List Response
  | .tx => s.tx.responses
  | .rx => s.rx.responses

/-- A command is held on the channel. -/
def State.isHeld (s : State) : Channel → Bool
  | .tx => s.tx.sending
  | .rx => s.rx.held.isSome

/-- The words issued on a channel and not accepted. -/
def State.queue (s : State) : Channel → List CmdWord
  | .tx => s.tx.queue
  | .rx => s.rx.queue

/-- The place, among the channel's responses, of the response to the next word issued there: behind those given, the one of
the command held, and those of the words that wait (20_memory.md R70, 30_encoding.md R97). -/
def State.nextAnswer (s : State) (c : Channel) : Nat :=
  (s.responses c).length + (s.isHeld c).toNat + (s.queue c).length

/-! ### Sending (R245) -/

/-- Which frame to send, with the signing parameters. The spec speaks of a key of 32 bytes (R245); a list of another length is
the model's own case (DESIGN CHOICE, log 26). -/
inductive SendKind where
  | v1
  | v2u
  | v2s (linkid : Byte) (ts : BitVec 48) (key : Bytes)
  deriving DecidableEq, Repr

/-- What the host consumes of an outgoing message (R246): its constant id and seed, and its `encode()`. -/
structure Outgoing where
  id : BitVec 24
  seed : Byte
  bytes : Bytes
  deriving DecidableEq, Repr

/-- How a send ends. -/
inductive SendResult where
  | sent
  | refused (st : Status)
  | ioError
  /-- A reset came while it waited for a response, which is then lost (70_reset_and_hazards.md R291, log 24). What the procedure
  gives its caller then is the model's choice (log 18). -/
  | lost
  deriving DecidableEq, Repr

/-- `PAY.LOAD`, `KEY.LOAD`, `BUF.LOAD` without the length (30_encoding.md R105): one `STB` per byte. The index has 16 bits, so it
wraps in a list longer than 65536, which no space holds (logs 18, 26). -/
def loadBytes (space : BitVec 8) (bs : Bytes) : List Instr :=
  bs.zipIdx.map fun x => .stb space (BitVec.ofNat 16 x.2) x.1

/-- The signing parameters' commands: `KEY.LOAD key[0..32)` (R245). With a key that is not 32 bytes long, each byte there is has its
`STB`: a shorter key leaves the bytes behind it as they were, and a store past the space is refused and not looked at. The
spec assumes nothing of such a key (91_not_in_source.md N7; DESIGN CHOICE, log 26). -/
def SendKind.loads : SendKind → List Instr
  | .v1 | .v2u => []
  | .v2s linkid ts key =>
    loadBytes 2 key ++ [.wrr TxReg.linkid.number (linkid.setWidth 48), .wrr TxReg.ts.number ts]

/-- The encoder of a kind. -/
def SendKind.encoder : SendKind → Instr
  | .v1 => .encV1
  | .v2u => .encV2U
  | .v2s _ _ _ => .encV2S

/-- A command of `ConnSend` before the encoder. -/
inductive SendLoad where
  | put (i : Instr)
  /-- `WRR SEQ, seqctr`, with the value the counter has when the command is given. -/
  | seq
  deriving DecidableEq, Repr

/-- The command itself; `seqctr` is the sequence counter. -/
def SendLoad.command (seqctr : BitVec 8) : SendLoad → Instr
  | .put i => i
  | .seq => .wrr TxReg.seq.number (seqctr.setWidth 48)

/-- The commands of `ConnSend` before the encoder. -/
def sendLoads (kind : SendKind) (sys comp : Byte) (m : Outgoing) : List SendLoad :=
  let operands : List Instr :=
    [.wrr TxReg.plen.number (BitVec.ofNat 48 m.bytes.length),
     .wrr TxReg.sys.number (sys.setWidth 48),
     .wrr TxReg.comp.number (comp.setWidth 48),
     .wrr TxReg.msgid.number (m.id.setWidth 48),
     .wrr TxReg.seed.number (m.seed.setWidth 48)]
  (loadBytes 0 m.bytes ++ operands).map .put ++ .seq :: kind.loads.map .put

/-- Where a procedure that holds the write lock is. -/
inductive WritePos where
  /-- The commands still to give before the encoder; with none left, the encoder. -/
  | load (kind : SendKind) (todo : List SendLoad)
  /-- `TX.SEND`. -/
  | send
  /-- `connect`, which holds both locks, is at its command on the RX channel (R244). -/
  | connecting
  deriving DecidableEq, Repr

/-- The command to give on the TX channel. -/
def WritePos.command (seqctr : BitVec 8) : WritePos → Option Instr
  | .load kind [] => some kind.encoder
  | .load _ (l :: _) => some (l.command seqctr)
  | .send => some .txSend
  | .connecting => none

/-! ### Receiving (R242) -/

/-- What the dialect gives for a message id (R246): the checksum seed, the declared payload size, and the payload decoder. The spec
speaks of sizes up to 255 (42_decode_validate.md R158); a larger one is the model's own case (DESIGN CHOICE, log 25). -/
structure DialectEntry (α : Type) where
  seed : Byte
  size : Nat
  decode : Bytes → Option α

/-- The dialect: none for an unknown message id. -/
abbrev Dialect (α : Type) := BitVec 24 → Option (DialectEntry α)

/-- The registers `ConnNext` reads of a frame whose checksum is right, in R242's order. -/
def frameRegs : List RxReg :=
  [.ver, .len, .seq, .sys, .comp, .incompat, .compat, .linkid, .ts, .hash]

/-- The raw frame a `next()` hands to its caller: version tag, message id, the registers of `frameRegs`, and the payload as
far as the dialect declares it. -/
structure RawFrame where
  ver : BitVec 48
  msgid : BitVec 24
  fields : List (BitVec 48)
  payload : Bytes
  deriving DecidableEq, Repr

/-- What a `next()` gives. -/
inductive Received (α : Type) where
  /-- The stream has ended (status `EOS`). -/
  | endOfStream
  /-- The raw frame and the decoded message. -/
  | frame (raw : RawFrame) (message : α)
  /-- A reset came while it waited for a response, which is then lost (70_reset_and_hazards.md R291, log 24; what the procedure
  gives then is the model's choice, log 18). -/
  | lost
  deriving DecidableEq, Repr

/-- Where a procedure that holds the read lock is. -/
inductive ReadPos where
  /-- `SYNC.NEXT`. -/
  | scan
  /-- `RDR MSGID`. -/
  | msgid
  /-- `RX.CHK` with the seed the dialect gives for the id. -/
  | check (id : BitVec 24) (seed : Byte) (size : Nat)
  /-- `RDR` of the register behind those got. -/
  | regs (id : BitVec 24) (size : Nat) (got : List (BitVec 48))
  /-- `LDB RXPAY` of the byte behind those got. -/
  | pay (id : BitVec 24) (size : Nat) (fields : List (BitVec 48)) (got : Bytes)
  /-- `SYNC.DROP`. -/
  | drop
  /-- `SYNC.CONNECT`, of `connect` (R244). -/
  | connect
  deriving DecidableEq, Repr

/-- The command to give on the RX channel. -/
def ReadPos.command : ReadPos → Instr
  | .scan => .syncNext
  | .msgid => .rdr RxReg.msgid.number
  | .check _ seed _ => .rxChk seed
  | .regs _ _ got => .rdr (frameRegs.getD got.length .ver).number
  | .pay _ _ _ got => .ldb 0 (BitVec.ofNat 16 got.length)
  | .drop => .syncDrop
  | .connect => .syncConnect

/-- What a procedure of the read path does with a response. -/
inductive ReadNext (α : Type) where
  | goOn (p : ReadPos)
  /-- Go on, after a report to the diagnostic hook. 91_not_in_source.md N15: the spec gives the hook no interface. That the
  report is the message id of the frame is the model's choice (DESIGN CHOICE, log 23). -/
  | report (id : BitVec 24) (p : ReadPos)
  | ends (r : Received α)
  | connected

/-- The payload's bytes are read one by one; with all there, the dialect's decoder decides. Where the dialect declares more than the
255 bytes of `R.RXPAY`, the reads past the space go on all the same (DESIGN CHOICE, log 25). -/
def payloadNext {α : Type} (dialect : Dialect α) (id : BitVec 24) (size : Nat) (fields : List (BitVec 48)) (got : Bytes) :
    ReadNext α :=
  if got.length < size then .goOn (.pay id size fields got)
  else
    match (dialect id).bind fun e => e.decode got with
    | none => .report id .drop
    | some m => .ends (.frame ⟨fields.headD 0, id, fields, got⟩ m)

/-- `ConnNext`, response by response, with the tests in D0's order: dialect, checksum, payload (R242, 60_exceptions.md R262). The
status of an `LDB` is not looked at: one past `R.RXPAY` answers `BADARG` with data 0, which is then the payload's byte (DESIGN
CHOICE, log 25). -/
def ReadPos.after {α : Type} (dialect : Dialect α) : ReadPos → Response → ReadNext α
  | .scan, r => if r.status = .eos then .ends .endOfStream else .goOn .msgid
  | .msgid, r =>
    match dialect (r.data.setWidth 24) with
    | none => .goOn .drop
    | some e => .goOn (.check (r.data.setWidth 24) e.seed e.size)
  | .check id _ size, r => if r.data = 0 then .goOn .drop else .goOn (.regs id size [])
  | .regs id size got, r =>
    let fields := got ++ [r.data]
    if fields.length < frameRegs.length then .goOn (.regs id size fields) else payloadNext dialect id size fields []
  | .pay id size fields got, r => payloadNext dialect id size fields (got ++ [r.data.setWidth 8])
  | .drop, _ => .goOn .scan
  | .connect, _ => .connected

/-! ### The Connection -/

/-- A procedure that holds a lock: where it is, and, while its command is not answered, the place among the channel's responses
of the one it waits for. -/
structure Call (P : Type) where
  pos : P
  waits : Option Nat
  deriving DecidableEq, Repr

/-- The host's Connection around an MFU. -/
structure Conn (α : Type) where
  /-- The MFU. -/
  mfu : State
  /-- The outgoing sequence counter (R243). -/
  seqctr : BitVec 8
  /-- The procedure that holds the read lock (R241). -/
  reader : Option (Call ReadPos)
  /-- The procedure that holds the write lock (R241). -/
  writer : Option (Call WritePos)
  /-- What the `next()`s have given, oldest first. -/
  received : List (Received α)
  /-- How the sends have ended, oldest first. -/
  sent : List SendResult
  /-- What the diagnostic hook was given, oldest first (log 23). -/
  reports : List (BitVec 24)
  deriving DecidableEq, Repr

/-- The Connection around an MFU just reset (10_state.md R45). -/
def Conn.start {α : Type} : Conn α where
  mfu := State.reset
  seqctr := 0
  reader := none
  writer := none
  received := []
  sent := []
  reports := []

/-! ### Calling a procedure: it begins once its lock is free (R241) -/

/-- A thread calls `next()`. -/
def Conn.callNext {α : Type} (c : Conn α) : Conn α :=
  match c.reader with
  | none => { c with reader := some ⟨.scan, none⟩ }
  | some _ => c

/-- A thread calls `sendV1`, `sendUnsignedV2` or `sendSignedV2`. -/
def Conn.callSend {α : Type} (kind : SendKind) (sys comp : Byte) (m : Outgoing) (c : Conn α) : Conn α :=
  match c.writer with
  | none => { c with writer := some ⟨.load kind (sendLoads kind sys comp m), none⟩ }
  | some _ => c

/-- A thread calls `connect`, which takes both locks (R244); rebinding source and sink is outside the MFU. -/
def Conn.callConnect {α : Type} (c : Conn α) : Conn α :=
  match c.reader, c.writer with
  | none, none => { c with reader := some ⟨.connect, none⟩, writer := some ⟨.connecting, none⟩ }
  | _, _ => c

/-! ### Moves -/

/-- The reader's response is there. -/
def Conn.readerTakes {α : Type} (dialect : Dialect α) (p : ReadPos) (r : Response) (c : Conn α) : Conn α :=
  match p.after dialect r with
  | .goOn q => { c with reader := some ⟨q, none⟩ }
  | .report id q => { c with reader := some ⟨q, none⟩, reports := c.reports ++ [id] }
  | .ends x => { c with reader := none, received := c.received ++ [x] }
  | .connected => { c with reader := none, writer := none, seqctr := 0 }

/-- The writer's response is there (R245): the counter goes up once the frame is constructed, before it is written, and stays
up if the write fails; nothing is retried. -/
def Conn.writerTakes {α : Type} (p : WritePos) (r : Response) (c : Conn α) : Conn α :=
  match p with
  | .load kind (_ :: todo) => { c with writer := some ⟨.load kind todo, none⟩ }
  | .load _ [] =>
    if r.status = .ok then { c with writer := some ⟨.send, none⟩, seqctr := c.seqctr + 1 }
    else { c with writer := none, sent := c.sent ++ [.refused r.status] }
  | .send => { c with writer := none, sent := c.sent ++ [if r.status = .ioerr then .ioError else .sent] }
  | .connecting => c

/-- The thread that holds the read lock moves: it gives its command, or takes the response, or is suspended for want of it. -/
def Conn.readerMove {α : Type} (dialect : Dialect α) (c : Conn α) : Conn α :=
  match c.reader with
  | none => c
  | some ⟨p, none⟩ =>
    { c with mfu := c.mfu.issue .rx (encode p.command), reader := some ⟨p, some (c.mfu.nextAnswer .rx)⟩ }
  | some ⟨p, some n⟩ =>
    match c.mfu.rx.responses[n]? with
    | none => c
    | some r => c.readerTakes dialect p r

/-- The thread that holds the write lock moves. -/
def Conn.writerMove {α : Type} (c : Conn α) : Conn α :=
  match c.writer with
  | none => c
  | some ⟨p, none⟩ =>
    match p.command c.seqctr with
    | none => c
    | some i => { c with mfu := c.mfu.issue .tx (encode i), writer := some ⟨p, some (c.mfu.nextAnswer .tx)⟩ }
  | some ⟨p, some n⟩ =>
    match c.mfu.tx.responses[n]? with
    | none => c
    | some r => c.writerTakes p r

/-- At a reset the commands outstanding are lost (70_reset_and_hazards.md R291): their procedures end, and the locks are free. The
spec does not speak of a command that the MFU has answered and whose thread has not taken the response: that response is
lost too, and its procedure ends the same way (DESIGN CHOICE, log 24). A procedure between two commands goes on (log 18). -/
def Conn.loseCalls {α : Type} (c : Conn α) : Conn α :=
  let c1 : Conn α :=
    match c.writer with
    | some ⟨_, some _⟩ => { c with writer := none, sent := c.sent ++ [.lost] }
    | _ => c
  match c1.reader with
  | some ⟨.connect, some _⟩ => { c1 with reader := none, writer := none }
  | some ⟨_, some _⟩ => { c1 with reader := none, received := c1.received ++ [.lost] }
  | _ => c1

/-- What a reset does to the host: it loses the responses it waits for, and its sequence counter is 0 again (10_state.md R45,
70_reset_and_hazards.md R292). -/
def Conn.atReset {α : Type} (c : Conn α) : Conn α := { c.loseCalls with seqctr := 0 }

/-- The MFU takes a step, with the agents around it. -/
def Conn.mfuMove {α : Type} (c : Conn α) : Conn α :=
  match step c.mfu with
  | .next s => if c.mfu.resetNext then { c.atReset with mfu := s } else { c with mfu := s }
  | .fault _ => c
  | .refused _ => c

/-- Who moves. -/
inductive Mover where
  | reader
  | writer
  | mfu
  deriving DecidableEq, Repr

/-- One move of the Connection with its MFU; the order of the moves is the scheduler's (R241). -/
def Conn.move {α : Type} (dialect : Dialect α) (c : Conn α) : Mover → Conn α
  | .reader => c.readerMove dialect
  | .writer => c.writerMove
  | .mfu => c.mfuMove

/-- Moves in sequence. -/
def Conn.run {α : Type} (dialect : Dialect α) (ms : List Mover) (c : Conn α) : Conn α := ms.foldl (Conn.move dialect) c

end Sys2Proof.Machine
end

