-- ==== Sys2Proof/Safety.lean ====
section
/-! DEFINITION. The terms the statements use: the invariant of the machine's states, what the spec gives as a function of the
stream (44_sync.md R200), and the environment assumption SINK_MAY_FAIL = false. -/

namespace Sys2Proof.Machine

/-! ### The invariant -/

/-- Every listed byte lies inside a space of `n` bytes (10_state.md R35). -/
abbrev Memory.inBounds (n : Nat) (m : Memory) : Prop := ∀ c ∈ m, c.1 < n

/-- The three byte spaces are in canonical form and no larger than R35 says. -/
structure Spaces.Inv (m : Spaces) : Prop where
  pay_wf : m.pay.wf
  buf_wf : m.buf.wf
  key_wf : m.key.wf
  pay_bound : m.pay.inBounds Config.maxPayload
  buf_bound : m.buf.inBounds Config.maxFrame
  key_bound : m.key.inBounds Config.keyBytes

/-- The first `n` bytes of a space were written. -/
def Memory.writtenTo (m : Memory) (n : Nat) : Prop := ∀ i, i < n → (m.get? i).isSome

/-- What holds of the TX half between steps. -/
structure TxHalf.Inv (t : TxHalf) : Prop where
  mem : t.mem.Inv
  /-- `T.TXLEN` is 0 to 280 (R27). -/
  txlen_le : t.txlen.toNat ≤ Config.maxFrame
  /-- `T.TXBUF[0..TXLEN)` holds a frame when `TXVALID = 1` (R25, 20_memory.md R66). -/
  frame_written : t.txvalid = true → t.mem.buf.writtenTo t.txlen.toNat
  /-- A `TX.SEND` is held only while a frame is valid and the sink has not answered (41_encode.md R148). -/
  sending_waits : t.sending = true → t.txvalid = true ∧ t.sink = []

/-- The command held on the RX channel waits for bytes that an open stream has not delivered (44_sync.md R190, R205). -/
def RxHalf.heldOk (r : RxHalf) : Prop :=
  match r.held with
  | none => True
  | some (.scan p) => r.closed = false ∧ r.frame = false ∧ attemptMarker r.stream false 0 = .hold p r.tent
  | some .drop => r.closed = false ∧ r.frame = false ∧ r.stream = [] ∧ r.tent = 0

/-- What holds of the RX half between steps. -/
structure RxHalf.Inv (r : RxHalf) : Prop where
  mem : r.mem.Inv
  /-- `R.RXLEN` is 0 to 280 (R33). -/
  rxlen_le : r.rxlen.toNat ≤ Config.maxFrame
  /-- `0 ≤ t ≤ |S|` (R41). -/
  tent_le : r.tent ≤ r.stream.length
  /-- `t ≤ 280` (44_sync.md R199). -/
  tent_bound : r.tent ≤ Config.maxFrame
  /-- `R.VER` is 0, 1 or 2 (R30). -/
  ver_legal : r.ver.toNat ≤ 2
  /-- A current frame has a version, and its payload is zero beyond `LEN` (R30, R35). -/
  frame_ver : r.frame = true → r.ver ≠ 0
  frame_pay : r.frame = true → r.mem.pay.writtenTo Config.maxPayload
  frame_zeros : r.frame = true → ∀ i, r.len.toNat ≤ i → i < Config.maxPayload → r.mem.pay.get? i = some 0
  /-- The verdicts and `SIGNED` speak of a current frame (R31). -/
  crcOk_frame : r.crcOk = true → r.frame = true
  sigOk_signed : r.sigOk = true → r.signed = true
  signed_frame : r.signed = true → r.frame = true ∧ r.ver = 2
  /-- v2-only fields are 0 in a v1 frame, signature fields are 0 in an unsigned one (R30). -/
  v1_fields : r.ver = 1 → r.incompat = 0 ∧ r.compat = 0 ∧ r.msgid.toNat < 256
  unsigned_fields : r.frame = true → r.signed = false → r.linkid = 0 ∧ r.ts = 0 ∧ r.hash = 0
  /-- After `EOS` nothing is left and the stream stays closed (44_sync.md R202). -/
  eos_closed : r.eos = true → r.closed = true ∧ r.stream = []
  held_ok : r.heldOk

/-- What holds of every state a run reaches. -/
structure State.Inv (s : State) : Prop where
  tx : s.tx.Inv
  rx : s.rx.Inv

/-! ### The scanner's answer as a function of the stream (44_sync.md R200) -/

/-- `FrameLen(s)`. -/
def frameLenOf (s : Bytes) : Option Nat :=
  if byteAt s 0 = Config.stxV1 ∧ 2 ≤ s.length then some (8 + (byteAt s 1).toNat)
  else if byteAt s 0 = Config.stxV2 ∧ 3 ≤ s.length then
    some (12 + (byteAt s 1).toNat + 13 * ((byteAt s 2).getLsbD 0).toNat)
  else none

/-- `Scan(s)`: `none` for `Ended`, else the bytes from the window's first on and the window's length. -/
def scanOf : Bytes → Option (Bytes × Nat)
  | [] => none
  | b :: rest =>
    match frameLenOf (b :: rest) with
    | some n => if n ≤ (b :: rest).length then some (b :: rest, n) else scanOf rest
    | none => scanOf rest

/-! ### What a command answers -/

/-- The command completes on the TX channel: the TX half becomes `t`, and nothing else of the machine changes. -/
def ToTx (i : Instr) (s : State) (t : TxHalf) : Prop := exec i s = .next { s with tx := t }

/-- The command completes on the RX channel: the RX half becomes `r`, and nothing else of the machine changes. -/
def ToRx (i : Instr) (s : State) (r : RxHalf) : Prop := exec i s = .next { s with rx := r }

/-- The half is as it was, but for one more response. -/
def TxHalf.says (t : TxHalf) (st : Status) (d : BitVec 48) : TxHalf := { t with responses := t.responses ++ [⟨st, d⟩] }

/-- The half is as it was, but for one more response. -/
def RxHalf.says (r : RxHalf) (st : Status) (d : BitVec 48) : RxHalf := { r with responses := r.responses ++ [⟨st, d⟩] }

/-- The statuses a command can answer, `ILLEGAL` apart (60_exceptions.md R263). -/
def statusesOf : Instr → List Status
  | .rdr _ | .wrr _ _ | .ldb _ _ | .stb _ _ _ | .crcBuf _ _ _ => [.ok, .badarg]
  | .crcInit | .crcAcc _ | .encV2U | .encV2S | .syncDrop | .syncConnect => [.ok]
  | .encV1 => [.ok, .range]
  | .txSend => [.ok, .noframe, .ioerr]
  | .decV1 | .decV2 => [.ok, .format]
  | .rxChk _ => [.ok, .noframe]
  | .sigVfy => [.ok, .noframe, .nosig]
  | .syncNext => [.ok, .eos]

/-! ### Frames: what a command leaves as it was -/

/-- Every byte of every space of the half reads as before. -/
def Spaces.same (m m' : Spaces) : Prop := ∀ sp i, (m'.get sp).get? i = (m.get sp).get? i

/-- Every byte of every space reads as before, but for bytes `i` up to but not including `j` of the space `x`. -/
def Spaces.sameBut (x : Space) (i j : Nat) (m m' : Spaces) : Prop :=
  ∀ sp k, ¬(sp = x ∧ i ≤ k ∧ k < j) → (m'.get sp).get? k = (m.get sp).get? k

/-- The TX descriptor registers and `T.CFG` (10_state.md R23, R24) are as before. -/
def TxHalf.sameOperands (t t' : TxHalf) : Prop :=
  t'.seq = t.seq ∧ t'.sys = t.sys ∧ t'.comp = t.comp ∧ t'.msgid = t.msgid ∧ t'.seed = t.seed ∧ t'.plen = t.plen ∧
    t'.linkid = t.linkid ∧ t'.ts = t.ts ∧ t'.truncEn = t.truncEn

/-- What belongs to the agents around the TX half is as before, the responses apart. -/
def TxHalf.sameAround (t t' : TxHalf) : Prop :=
  t'.sending = t.sending ∧ t'.sink = t.sink ∧ t'.queue = t.queue

/-- The RX descriptor registers (R30) are as before. -/
def RxHalf.sameDescriptor (r r' : RxHalf) : Prop :=
  r'.ver = r.ver ∧ r'.len = r.len ∧ r'.incompat = r.incompat ∧ r'.compat = r.compat ∧ r'.seq = r.seq ∧ r'.sys = r.sys ∧
    r'.comp = r.comp ∧ r'.msgid = r.msgid ∧ r'.cksum = r.cksum ∧ r'.linkid = r.linkid ∧ r'.ts = r.ts ∧ r'.hash = r.hash

/-- The flags of `R.STATUS` (R31) are as before. -/
def RxHalf.sameFlags (r r' : RxHalf) : Prop :=
  r'.frame = r.frame ∧ r'.crcOk = r.crcOk ∧ r'.sigOk = r.sigOk ∧ r'.eos = r.eos ∧ r'.signed = r.signed

/-- The four flags that speak of a current frame are clear (R31). -/
def RxHalf.noFrameFlags (r : RxHalf) : Prop := r.frame = false ∧ r.crcOk = false ∧ r.sigOk = false ∧ r.signed = false

/-- The frame is the current one, as `StoreFrame` writes it (42_decode_validate.md R158): descriptor, flags, and the payload
zero-extended to the whole of `R.RXPAY`. -/
def RxHalf.holdsFrame (e : Nat) (r : RxHalf) (f : Frame) : Prop :=
  r.ver = f.ver.number ∧ r.len = f.len ∧ r.incompat = f.incompat ∧ r.compat = f.compat ∧ r.seq = f.seq ∧ r.sys = f.sys ∧
    r.comp = f.comp ∧ r.msgid = f.msgid ∧ r.cksum = f.cksum ∧ r.linkid = f.linkid ∧ r.ts = f.ts ∧ r.hash = fromLe 48 f.hash ∧
    r.frame = true ∧ r.signed = f.signed ∧ r.crcOk = false ∧ r.sigOk = false ∧
    r.mem.memRead e .rx .pay 0 Config.maxPayload = zeroExtend f.payload

/-- The stream and the held command (R41, 44_sync.md R190) are as before. -/
def RxHalf.sameStream (r r' : RxHalf) : Prop :=
  r'.stream = r.stream ∧ r'.tent = r.tent ∧ r'.closed = r.closed ∧ r'.held = r.held ∧ r'.queue = r.queue

/-! ### The environment -/

/-- SINK_MAY_FAIL = false (00_scope.md R8): no sink answer, given or to come, is a failure. -/
def State.sinkNeverFails (s : State) : Prop :=
  (∀ a ∈ s.tx.sink, a = .takesAll) ∧ ∀ a, Move.sink a ∈ s.moves → a = .takesAll

/-- The bytes delivered one by one to the RX half. -/
def RxHalf.deliverAll (r : RxHalf) (u : Bytes) : RxHalf := u.foldl RxHalf.deliver r

/-- The outcome of two commands, one on each channel, TX first. -/
def txThenRx (i j : Instr) (s : State) : Host.Outcome State Fault Refusal :=
  match exec i { s with chan := .tx } with
  | .next t => exec j { t with chan := .rx }
  | x => x

/-- The outcome of two commands, one on each channel, RX first. -/
def rxThenTx (i j : Instr) (s : State) : Host.Outcome State Fault Refusal :=
  match exec j { s with chan := .rx } with
  | .next t => exec i { t with chan := .tx }
  | x => x

/-- A thread gives its command, the MFU takes a step, the thread takes the response if it is there (46_host_connection.md R241). -/
def Conn.turn {α : Type} (dialect : Dialect α) (x : Mover) (c : Conn α) : Conn α := c.run dialect [x, .mfu, x]

/-- The offset of the sequence byte in a frame of this kind (30_encoding.md R91, R92). -/
def SendKind.seqOffset : SendKind → Nat
  | .v1 => 2
  | .v2u | .v2s _ _ _ => 4

/-- The state of an outcome, if it is one. -/
def nextState : Host.Outcome State Fault Refusal → Option State
  | .next t => some t
  | .fault _ => none
  | .refused _ => none

end Sys2Proof.Machine
end

