-- ==== Sys2Proof/Certificates/Slice0/Obligations.lean ====
section
/-! DEFINITION. The statements about the model, for the provers. -/

open Sys2Proof Sys2Proof.Machine

/-! ### The command word (30_encoding.md) -/

/-- Decoding a command's word gives the command back, with every operand at every value its field admits. -/
def Obligations.DecodeOfEncodeIsTheCommand : Prop := ∀ i : Instr, decode (encode i) = .instr i

/-- A word that decodes is the word of the command it decodes to: the decoder drops no bit. -/
def Obligations.EncodeOfDecodeIsTheWord : Prop := ∀ (w : CmdWord) (i : Instr), decode w = .instr i → encode i = w

/-- R98: "A word selects a command when word & mask = op << 56", with the opcodes of R96 and the masks of R98 written out. -/
def Obligations.WordSelectsACommandByItsMask : Prop :=
  (∀ (w : CmdWord) (o : Opcode),
    (∃ i, decode w = .instr i ∧ i.opcode = o) ↔ w &&& o.format.mask = (o.code.setWidth 64) <<< 56) ∧
  ∀ o c m, (o, c, m) ∈
      [(Opcode.rdr, (0x01 : BitVec 8), (0xFF00FFFFFFFFFFFF : CmdWord)), (.wrr, 0x02, 0xFF00000000000000),
        (.ldb, 0x03, 0xFF00FFFFFFFF0000), (.stb, 0x04, 0xFF00FFFFFF000000), (.crcInit, 0x10, 0xFFFFFFFFFFFFFFFF),
        (.crcAcc, 0x11, 0xFFFFFFFFFFFFFF00), (.crcBuf, 0x12, 0xFF00FFFF00000000), (.encV1, 0x20, 0xFFFFFFFFFFFFFFFF),
        (.encV2U, 0x21, 0xFFFFFFFFFFFFFFFF), (.encV2S, 0x22, 0xFFFFFFFFFFFFFFFF), (.txSend, 0x23, 0xFFFFFFFFFFFFFFFF),
        (.decV1, 0x30, 0xFFFFFFFFFFFFFFFF), (.decV2, 0x31, 0xFFFFFFFFFFFFFFFF), (.rxChk, 0x32, 0xFFFFFFFFFFFFFF00),
        (.sigVfy, 0x33, 0xFFFFFFFFFFFFFFFF), (.syncNext, 0x40, 0xFFFFFFFFFFFFFFFF), (.syncDrop, 0x41, 0xFFFFFFFFFFFFFFFF),
        (.syncConnect, 0x42, 0xFFFFFFFFFFFFFFFF)] →
    o.code = c ∧ o.format.mask = m

/-- R99: every operand is the slice of the word that R99 names. -/
def Obligations.OperandsAreTheSlicesOfTheWord : Prop :=
  ∀ (w : CmdWord) (i : Instr), decode w = .instr i →
    match i with
    | .rdr reg => reg = w.extractLsb' 48 8
    | .wrr reg value => reg = w.extractLsb' 48 8 ∧ value = w.extractLsb' 0 48
    | .ldb space index => space = w.extractLsb' 48 8 ∧ index = w.extractLsb' 0 16
    | .stb space index byte =>
      space = w.extractLsb' 48 8 ∧ index = w.extractLsb' 8 16 ∧ byte = w.extractLsb' 0 8
    | .crcAcc byte | .rxChk byte => byte = w.extractLsb' 0 8
    | .crcBuf space off n =>
      space = w.extractLsb' 48 8 ∧ off = w.extractLsb' 16 16 ∧ n = w.extractLsb' 0 16
    | _ => True

/-- Some words of 95_test_vectors.md decode to the commands written beside them there. -/
def Obligations.WordsOfTheTestVectorsDecode : Prop :=
  decode 0x0102000000000000 = .instr (.rdr 0x02) ∧
  decode 0x0206000000012345 = .instr (.wrr 0x06 0x012345) ∧
  decode 0x0301000000000117 = .instr (.ldb 1 279) ∧
  decode 0x040000000000FEAB = .instr (.stb 0 254 0xAB) ∧
  decode 0x11000000000000AB = .instr (.crcAcc 0xAB) ∧
  decode 0x120100000001000E = .instr (.crcBuf 1 1 14) ∧
  decode 0x2000000000000000 = .instr .encV1 ∧
  decode 0x2300000000000000 = .instr .txSend ∧
  decode 0x3200000000000032 = .instr (.rxChk 50) ∧
  decode 0x4100000000000000 = .instr .syncDrop

/-- R103: a word that selects no command legal on its channel is `ILLEGAL`: it changes no state, and is answered with status
`ILLEGAL` and data 0. -/
def Obligations.IllegalWordChangesNothing : Prop :=
  ∀ (w : CmdWord) (s : State),
    (∀ i : Instr, i.wellFormed s.chan = true → w &&& i.opcode.format.mask ≠ (i.opcode.code.setWidth 64) <<< 56) →
    (s.chan = .tx → runWord w s = .next { s with tx := s.tx.says .illegal 0 }) ∧
    (s.chan = .rx → runWord w s = .next { s with rx := s.rx.says .illegal 0 })

/-! ### The step (20_memory.md R70) -/

/-- Unless the reset input comes, a step runs the oldest word issued on a channel that is not held, whatever word it is: the word
leaves the queue and is run as `runWord` says, which is `exec` of the command it decodes to (and `ILLEGAL` where it decodes to
none, IllegalWordChangesNothing). The channel served last waits if the other one can be served (log 5). Where neither half can
accept a word, the outside world makes its next move, and with none left nothing changes (log 4). What the reset input does
is ResetInputResetsBothHalves. -/
def Obligations.StepExecutesTheOldestIssuedCommand : Prop :=
  (∀ (w : CmdWord) (i : Instr) (s : State), decode w = .instr i → runWord w s = exec i s) ∧
  ∀ s : State, s.moves.head? ≠ some .reset →
    (∀ (w : CmdWord) (q : List CmdWord),
      (s.tx.sending = false → s.tx.queue = w :: q →
        s.chan = .rx ∨ s.rx.held ≠ none ∨ s.rx.queue = [] →
        step s = runWord w { s with chan := .tx, tx := { s.tx with queue := q } }) ∧
      (s.rx.held = none → s.rx.queue = w :: q →
        s.chan = .tx ∨ s.tx.sending = true ∨ s.tx.queue = [] →
        step s = runWord w { s with chan := .rx, rx := { s.rx with queue := q } })) ∧
    (s.tx.sending = true ∨ s.tx.queue = [] → s.rx.held ≠ none ∨ s.rx.queue = [] →
      (∀ (m : Move) (ms : List Move), s.moves = m :: ms → step s = .next ({ s with moves := ms }.applyMove m)) ∧
      (s.moves = [] → step s = .next s))

/-- No step stops the machine (log 15): every error is the status of a response, and a held command waits. A command that reads a
byte never written gets a free value (log 1), where U1 would also let it be refused. -/
def Obligations.EveryStepAnswersANextState : Prop := ∀ s : State, ∃ t, step s = .next t

/-- R70: "A channel accepts no command while one is executing or held": without a reset, no word leaves its queue. -/
def Obligations.HeldChannelAcceptsNoCommand : Prop :=
  ∀ (s t : State) (c : Channel), step s = .next t → s.isHeld c = true → s.moves.head? ≠ some .reset →
    s.queue c <+: t.queue c

/-- A command begun on a channel that is not held gets one response when it completes, and none while it is held; the other
channel gets none and stays held or not. A move of the outside world that is no reset lets a held command go on: it stays held
with no response, or completes with one response; where nothing is held no response is given (R97, R190). -/
def Obligations.CommandGetsOneResponseWhenItCompletes : Prop :=
  (∀ (i : Instr) (s t : State), s.isHeld s.chan = false → exec i s = .next t →
    t.responses s.chan.other = s.responses s.chan.other ∧ t.isHeld s.chan.other = s.isHeld s.chan.other ∧
    ((t.isHeld s.chan = true ∧ t.responses s.chan = s.responses s.chan) ∨
      (t.isHeld s.chan = false ∧ ∃ r, t.responses s.chan = s.responses s.chan ++ [r]))) ∧
  ∀ (m : Move) (s : State) (c : Channel), m ≠ .reset →
    ((s.applyMove m).isHeld c = s.isHeld c ∧ (s.applyMove m).responses c = s.responses c) ∨
      (s.isHeld c = true ∧ (s.applyMove m).isHeld c = false ∧ ∃ r, (s.applyMove m).responses c = s.responses c ++ [r])

/-- R263: the statuses each command can answer on a channel where it is legal. -/
def Obligations.CommandsAnswerOnlyTheirStatuses : Prop :=
  ∀ (i : Instr) (s t : State) (r : Response), i.wellFormed s.chan = true → exec i s = .next t →
    t.responses s.chan = s.responses s.chan ++ [r] → r.status ∈ statusesOf i

/-! ### Reset and the invariant -/

/-- R45: the reset values, the host's sequence counter with them, which is 0 at the start and after every reset. -/
def Obligations.ResetLeavesTheValuesOfTheTable : Prop :=
  let t := State.reset.tx
  let r := State.reset.rx
  (t.seq = 0 ∧ t.sys = 0 ∧ t.comp = 0 ∧ t.msgid = 0 ∧ t.seed = 0 ∧ t.plen = 0 ∧ t.linkid = 0 ∧ t.ts = 0) ∧
  t.truncEn = true ∧ t.txvalid = false ∧ t.crcacc = 0xFFFF ∧ r.crcacc = 0xFFFF ∧ t.txlen = 0 ∧ r.rxlen = 0 ∧ t.out = [] ∧
  (r.ver = 0 ∧ r.len = 0 ∧ r.incompat = 0 ∧ r.compat = 0 ∧ r.seq = 0 ∧ r.sys = 0 ∧ r.comp = 0 ∧ r.msgid = 0 ∧
    r.cksum = 0 ∧ r.linkid = 0 ∧ r.ts = 0 ∧ r.hash = 0) ∧
  r.statusWord = 0 ∧ r.stream = [] ∧ r.tent = 0 ∧ r.closed = false ∧
  (∀ sp i, (t.mem.get sp).get? i = none ∧ (r.mem.get sp).get? i = none) ∧
  State.reset.isHeld .tx = false ∧ State.reset.isHeld .rx = false ∧ (Conn.start : Conn Unit).seqctr = 0 ∧
  ∀ (α : Type) (c : Conn α), c.mfu.moves.head? = some .reset → c.mfuMove.seqctr = 0

/-- The reset input gives both halves their reset state, whatever came before, also where a half could have executed a command
or one is held: that command is abandoned with no response, none is held or waiting any more (R290, R291). What stays is
outside the MFU: the sink and the moves to come (log 10). -/
def Obligations.ResetInputResetsBothHalves : Prop :=
  ∀ (s : State) (ms : List Move), s.moves = .reset :: ms →
    ∃ t, step s = .next t ∧ t.rx = State.reset.rx ∧ t.tx = { State.reset.tx with sink := s.tx.sink } ∧ t.moves = ms

/-- The state after reset meets the invariant. -/
def Obligations.ResetMeetsTheInvariant : Prop := State.reset.Inv

/-- Every step keeps the invariant: the byte spaces stay in canonical form and within their sizes, `0 <= t <= |S|` and
`t <= 280`, `TXLEN` and `RXLEN` stay at most 280, the status flags stay consistent with the frame they speak of, a valid
frame's bytes are all written, the payload space is zero beyond `LEN`, after `EOS` the stream is empty and closed, and a held
command waits for bytes an open stream has not delivered. -/
def Obligations.EveryStepKeepsTheInvariant : Prop :=
  ∀ s t : State, s.Inv → step s = .next t → t.Inv

/-! ### Access (45_access_system.md) -/

/-- R220: `RDR` answers the register, zero-extended, for every number of R100, and `BADARG` for every other; it changes
nothing. -/
def Obligations.RdrReadsEveryRegister : Prop :=
  ∀ s : State,
    (s.chan = .tx →
      (∀ d n, (n, d) ∈ [((0x00 : BitVec 8), s.tx.statusWord.setWidth 48), (0x01, s.tx.cfgWord.setWidth 48),
          (0x02, s.tx.crcacc.setWidth 48), (0x03, s.tx.seq.setWidth 48), (0x04, s.tx.sys.setWidth 48),
          (0x05, s.tx.comp.setWidth 48), (0x06, s.tx.msgid.setWidth 48), (0x07, s.tx.seed.setWidth 48),
          (0x08, s.tx.plen.setWidth 48), (0x09, s.tx.linkid.setWidth 48), (0x0A, s.tx.ts),
          (0x0B, s.tx.txlen.setWidth 48)] →
        ToTx (.rdr n) s (s.tx.says .ok d)) ∧
      ∀ n : BitVec 8, 0x0B < n.toNat → ToTx (.rdr n) s (s.tx.says .badarg 0)) ∧
    (s.chan = .rx →
      (∀ d n, (n, d) ∈ [((0x00 : BitVec 8), s.rx.statusWord.setWidth 48), (0x02, s.rx.crcacc.setWidth 48),
          (0x10, s.rx.ver.setWidth 48), (0x11, s.rx.len.setWidth 48), (0x12, s.rx.incompat.setWidth 48),
          (0x13, s.rx.compat.setWidth 48), (0x14, s.rx.seq.setWidth 48), (0x15, s.rx.sys.setWidth 48),
          (0x16, s.rx.comp.setWidth 48), (0x17, s.rx.msgid.setWidth 48), (0x18, s.rx.cksum.setWidth 48),
          (0x19, s.rx.linkid.setWidth 48), (0x1A, s.rx.ts), (0x1B, s.rx.hash), (0x1C, s.rx.rxlen.setWidth 48),
          (0x1D, (BitVec.ofNat 9 s.rx.tent).setWidth 48)] →
        ToRx (.rdr n) s (s.rx.says .ok d)) ∧
      ∀ n : BitVec 8, n = 0x01 ∨ (0x03 ≤ n.toNat ∧ n.toNat ≤ 0x0F) ∨ 0x1D < n.toNat →
        ToRx (.rdr n) s (s.rx.says .badarg 0))

/-- R221: the bits `RDR` answers for the status words and `T.CFG`, that `R.TENT` reads as `t`, and that after a decode of a
signed frame byte `k` of the number `R.HASH` reads as is byte `k` of the frame's hash: decoded by `DEC.V2`, by `SYNC.NEXT`, or
by a held `SYNC.NEXT` that a move of the source completes. -/
def Obligations.StatusWordsReadBitByBit : Prop :=
  ∀ s : State,
    (s.chan = .tx →
      (∃ d, ToTx (.rdr 0x00) s (s.tx.says .ok d) ∧ d.getLsbD 0 = s.tx.txvalid ∧ ∀ k, 1 ≤ k → d.getLsbD k = false) ∧
      ∃ d, ToTx (.rdr 0x01) s (s.tx.says .ok d) ∧ d.getLsbD 0 = s.tx.truncEn ∧ ∀ k, 1 ≤ k → d.getLsbD k = false) ∧
    (s.chan = .rx →
      (∃ d, ToRx (.rdr 0x00) s (s.rx.says .ok d) ∧ d.getLsbD 0 = s.rx.frame ∧ d.getLsbD 1 = s.rx.crcOk ∧
        d.getLsbD 2 = s.rx.sigOk ∧ d.getLsbD 3 = s.rx.eos ∧ d.getLsbD 4 = s.rx.signed ∧
        ∀ k, 5 ≤ k → d.getLsbD k = false) ∧
      (s.rx.tent ≤ 280 → ∃ d, ToRx (.rdr 0x1D) s (s.rx.says .ok d) ∧ d.toNat = s.rx.tent) ∧
      (let f := s.rx.mem.memRead s.epoch .rx .buf 0 s.rx.rxlen.toNat
       ∀ t, exec .decV2 s = .next t → t.rx.frame = true → t.rx.signed = true →
        ∃ d, ToRx (.rdr 0x1B) t (t.rx.says .ok d) ∧
          ∀ k, k < 6 → d.extractLsb' (8 * k) 8 = byteAt f (19 + (byteAt f 1).toNat + k)) ∧
      ∀ t, (exec .syncNext s = .next t ∨ s.rx.frame = false ∧ ∃ m, t = s.applyMove m) →
        t.rx.frame = true → t.rx.signed = true →
        ∃ d, ToRx (.rdr 0x1B) t (t.rx.says .ok d) ∧
          ∀ k, k < 6 → d.extractLsb' (8 * k) 8 = byteAt t.rx.stream (19 + (byteAt t.rx.stream 1).toNat + k))

/-- R222: `WRR` writes every writable register with a value that fits, answers `(OK, 0)` and changes nothing else; for a
register that does not exist or is read-only, a value too wide, and `RXLEN` above 280 it answers `BADARG` and changes
nothing. -/
def Obligations.WrrWritesARegisterOrIsRefused : Prop :=
  ∀ (s : State) (v : BitVec 48),
    (s.chan = .tx →
      (v.toNat < 2 → ToTx (.wrr 0x01 v) s ({ s.tx with truncEn := v.getLsbD 0 }.says .ok 0)) ∧
      (v.toNat < 2 ^ 16 → ToTx (.wrr 0x02 v) s ({ s.tx with crcacc := v.setWidth 16 }.says .ok 0)) ∧
      (v.toNat < 2 ^ 8 →
        ToTx (.wrr 0x03 v) s ({ s.tx with seq := v.setWidth 8 }.says .ok 0) ∧
        ToTx (.wrr 0x04 v) s ({ s.tx with sys := v.setWidth 8 }.says .ok 0) ∧
        ToTx (.wrr 0x05 v) s ({ s.tx with comp := v.setWidth 8 }.says .ok 0) ∧
        ToTx (.wrr 0x07 v) s ({ s.tx with seed := v.setWidth 8 }.says .ok 0) ∧
        ToTx (.wrr 0x08 v) s ({ s.tx with plen := v.setWidth 8 }.says .ok 0) ∧
        ToTx (.wrr 0x09 v) s ({ s.tx with linkid := v.setWidth 8 }.says .ok 0)) ∧
      (v.toNat < 2 ^ 24 → ToTx (.wrr 0x06 v) s ({ s.tx with msgid := v.setWidth 24 }.says .ok 0)) ∧
      ToTx (.wrr 0x0A v) s ({ s.tx with ts := v }.says .ok 0) ∧
      ∀ n : BitVec 8, n = 0x00 ∨ 0x0B ≤ n.toNat ∨ (n = 0x01 ∧ 2 ≤ v.toNat) ∨ (n = 0x02 ∧ 2 ^ 16 ≤ v.toNat) ∨
          (n ∈ [(0x03 : BitVec 8), 0x04, 0x05, 0x07, 0x08, 0x09] ∧ 2 ^ 8 ≤ v.toNat) ∨ (n = 0x06 ∧ 2 ^ 24 ≤ v.toNat) →
        ToTx (.wrr n v) s (s.tx.says .badarg 0)) ∧
    (s.chan = .rx →
      (v.toNat < 2 ^ 16 → ToRx (.wrr 0x02 v) s ({ s.rx with crcacc := v.setWidth 16 }.says .ok 0)) ∧
      (v.toNat ≤ 280 → ToRx (.wrr 0x1C v) s ({ s.rx with rxlen := v.setWidth 9 }.says .ok 0)) ∧
      ∀ n : BitVec 8, (n ≠ 0x02 ∧ n ≠ 0x1C) ∨ (n = 0x02 ∧ 2 ^ 16 ≤ v.toNat) ∨ (n = 0x1C ∧ 280 < v.toNat) →
        ToRx (.wrr n v) s (s.rx.says .badarg 0))

/-- R224: `LDB` of a byte of a readable space answers that byte and changes nothing; a byte that was written reads as written
(one that was not reads as some byte, a free value: log 1). A key space, a space that does not exist and an index outside
the space answer `BADARG`. -/
def Obligations.LdbAnswersTheByteOrIsRefused : Prop :=
  ∀ (s : State) (a : BitVec 8) (i : BitVec 16),
    (s.chan = .tx →
      ((a = 0 ∧ i.toNat < 255 → ∃ b : Byte, ToTx (.ldb a i) s (s.tx.says .ok (b.setWidth 48)) ∧
        ∀ x, s.tx.mem.pay.get? i.toNat = some x → b = x) ∧
      (a = 1 ∧ i.toNat < 280 → ∃ b : Byte, ToTx (.ldb a i) s (s.tx.says .ok (b.setWidth 48)) ∧
        ∀ x, s.tx.mem.buf.get? i.toNat = some x → b = x) ∧
      (2 ≤ a.toNat ∨ (a = 0 ∧ 255 ≤ i.toNat) ∨ (a = 1 ∧ 280 ≤ i.toNat) → ToTx (.ldb a i) s (s.tx.says .badarg 0)))) ∧
    (s.chan = .rx →
      ((a = 0 ∧ i.toNat < 255 → ∃ b : Byte, ToRx (.ldb a i) s (s.rx.says .ok (b.setWidth 48)) ∧
        ∀ x, s.rx.mem.pay.get? i.toNat = some x → b = x) ∧
      (a = 1 ∧ i.toNat < 280 → ∃ b : Byte, ToRx (.ldb a i) s (s.rx.says .ok (b.setWidth 48)) ∧
        ∀ x, s.rx.mem.buf.get? i.toNat = some x → b = x) ∧
      (2 ≤ a.toNat ∨ (a = 0 ∧ 255 ≤ i.toNat) ∨ (a = 1 ∧ 280 ≤ i.toNat) → ToRx (.ldb a i) s (s.rx.says .badarg 0))))

/-- R225: `STB` stores the byte at the index of a writable space, answers `(OK, 0)`, leaves every other byte and everything
else as it was; `T.TXBUF`, `R.RXPAY`, a space that does not exist and an index outside the space answer `BADARG` and nothing
changes. -/
def Obligations.StbStoresTheByteOrIsRefused : Prop :=
  ∀ (s : State) (a : BitVec 8) (i : BitVec 16) (b : Byte),
    (s.chan = .tx →
      (∀ sp, (a = 0 ∧ sp = Space.pay ∧ i.toNat < 255) ∨ (a = 2 ∧ sp = Space.key ∧ i.toNat < 32) →
        ∃ m, ToTx (.stb a i b) s ({ s.tx with mem := m }.says .ok 0) ∧ (m.get sp).get? i.toNat = some b ∧
          s.tx.mem.sameBut sp i.toNat (i.toNat + 1) m) ∧
      (a = 1 ∨ 3 ≤ a.toNat ∨ (a = 0 ∧ 255 ≤ i.toNat) ∨ (a = 2 ∧ 32 ≤ i.toNat) →
        ToTx (.stb a i b) s (s.tx.says .badarg 0))) ∧
    (s.chan = .rx →
      (∀ sp, (a = 1 ∧ sp = Space.buf ∧ i.toNat < 280) ∨ (a = 2 ∧ sp = Space.key ∧ i.toNat < 32) →
        ∃ m, ToRx (.stb a i b) s ({ s.rx with mem := m }.says .ok 0) ∧ (m.get sp).get? i.toNat = some b ∧
          s.rx.mem.sameBut sp i.toNat (i.toNat + 1) m) ∧
      (a = 0 ∨ 3 ≤ a.toNat ∨ (a = 1 ∧ 280 ≤ i.toNat) ∨ (a = 2 ∧ 32 ≤ i.toNat) →
        ToRx (.stb a i b) s (s.rx.says .badarg 0)))

/-- The frame of `RDR`, `LDB`, `CRC.INIT`, `CRC.ACC`, `CRC.BUF` and `WRR`, on either channel: no byte of any space changes,
nor the other half, nor the stream, the flags of `R.STATUS`, the RX descriptor, `TXVALID`, `TXLEN` and `OUT`; only `WRR`
changes TX operands, only `WRR` and the CRC commands change the channel's accumulator. -/
def Obligations.RegisterCommandsLeaveTheRest : Prop :=
  ∀ (i : Instr) (s t : State), exec i s = .next t →
    (match i with
      | .rdr _ | .ldb _ _ | .crcInit | .crcAcc _ | .crcBuf _ _ _ | .wrr _ _ => True
      | _ => False) →
    (s.chan = .tx → t.rx = s.rx ∧ s.tx.mem.same t.tx.mem ∧ s.tx.sameAround t.tx ∧
      t.tx.txvalid = s.tx.txvalid ∧ t.tx.txlen = s.tx.txlen ∧ t.tx.out = s.tx.out ∧
      ((∀ n v, i ≠ .wrr n v) → s.tx.sameOperands t.tx) ∧
      ((∃ n, i = .rdr n) ∨ (∃ a k, i = .ldb a k) → t.tx.crcacc = s.tx.crcacc)) ∧
    (s.chan = .rx → t.tx = s.tx ∧ s.rx.mem.same t.rx.mem ∧ s.rx.sameStream t.rx ∧ s.rx.sameDescriptor t.rx ∧
      s.rx.sameFlags t.rx ∧ ((∀ n v, i ≠ .wrr n v) → t.rx.rxlen = s.rx.rxlen) ∧
      ((∃ n, i = .rdr n) ∨ (∃ a k, i = .ldb a k) → t.rx.crcacc = s.rx.crcacc)) ∧
    t.epoch = s.epoch ∧ t.moves = s.moves ∧ t.chan = s.chan

/-- The key spaces are write-only (20_memory.md R61): in two machines that differ only in the bytes of `T.TXKEY`, every command
but `ENC.V2S`, and every one on the RX channel, has the same effect and the same response; and the same for `R.RXKEY` and
`SIG.VFY`. -/
def Obligations.KeysReachTheHostOnlyThroughSignatures : Prop :=
  ∀ (i : Instr) (s : State) (k : Memory),
    (i ≠ .encV2S ∨ s.chan = .rx → ∃ t k', exec i s = .next t ∧
      exec i { s with tx := { s.tx with mem := { s.tx.mem with key := k } } } =
        .next { t with tx := { t.tx with mem := { t.tx.mem with key := k' } } }) ∧
    (i ≠ .sigVfy ∨ s.chan = .tx → ∃ t k', exec i s = .next t ∧
      exec i { s with rx := { s.rx with mem := { s.rx.mem with key := k } } } =
        .next { t with rx := { t.rx with mem := { t.rx.mem with key := k' } } })

/-! ### The checksum unit (40_crc.md) -/

/-- R122: `CRC.INIT` sets the accumulator of its half to `0xFFFF` and answers `(OK, 0)`. -/
def Obligations.CrcInitSetsTheAccumulator : Prop :=
  ∀ s : State,
    (s.chan = .tx → ToTx .crcInit s ({ s.tx with crcacc := 0xFFFF }.says .ok 0)) ∧
    (s.chan = .rx → ToRx .crcInit s ({ s.rx with crcacc := 0xFFFF }.says .ok 0))

/-- R123: `CRC.ACC` accumulates its byte and answers the new accumulator. -/
def Obligations.CrcAccAccumulatesItsByte : Prop :=
  ∀ (s : State) (b : Byte),
    (s.chan = .tx → let c := Sys2Proof.Machine.crcAcc s.tx.crcacc b
      ToTx (.crcAcc b) s ({ s.tx with crcacc := c }.says .ok (c.setWidth 48))) ∧
    (s.chan = .rx → let c := Sys2Proof.Machine.crcAcc s.rx.crcacc b
      ToRx (.crcAcc b) s ({ s.rx with crcacc := c }.says .ok (c.setWidth 48)))

/-- R124: `CRC.BUF` accumulates `n` bytes from `off` of a payload space or frame buffer; a range that passes the end,
computed without wrap, a key space and a space that does not exist answer `BADARG` with no change. -/
def Obligations.CrcBufAccumulatesTheRange : Prop :=
  ∀ (s : State) (a : BitVec 8) (off n : BitVec 16),
    (∀ sp size, (a = 0 ∧ sp = Space.pay ∧ size = 255) ∨ (a = 1 ∧ sp = Space.buf ∧ size = 280) →
      off.toNat + n.toNat ≤ size →
      (s.chan = .tx →
        let c := crc16From s.tx.crcacc (s.tx.mem.memRead s.epoch .tx sp off.toNat n.toNat)
        ToTx (.crcBuf a off n) s ({ s.tx with crcacc := c }.says .ok (c.setWidth 48))) ∧
      (s.chan = .rx →
        let c := crc16From s.rx.crcacc (s.rx.mem.memRead s.epoch .rx sp off.toNat n.toNat)
        ToRx (.crcBuf a off n) s ({ s.rx with crcacc := c }.says .ok (c.setWidth 48)))) ∧
    (2 ≤ a.toNat ∨ (a = 0 ∧ 255 < off.toNat + n.toNat) ∨ (a = 1 ∧ 280 < off.toNat + n.toNat) →
      (s.chan = .tx → ToTx (.crcBuf a off n) s (s.tx.says .badarg 0)) ∧
      (s.chan = .rx → ToRx (.crcBuf a off n) s (s.rx.says .badarg 0)))

/-- R121: `CrcAcc` is eight steps of the bit loop, `Crc16From` folds it over a byte sequence, `Crc16` starts from `0xFFFF`; and
the byte-parallel form and the table form, `T[i] = CrcAcc(0, i)`, compute the same function. -/
def Obligations.CrcFormsAgree : Prop :=
  (∀ (c : BitVec 16) (b : Byte), Sys2Proof.Machine.crcAcc c b =
    (fun c : BitVec 16 => if c.getLsbD 0 then (c >>> 1) ^^^ 0x8408 else c >>> 1)^[8] (c ^^^ b.setWidth 16)) ∧
  (∀ (c : BitVec 16) (b : Byte) (s : Bytes), crc16From c [] = c ∧
    crc16From c (b :: s) = crc16From (Sys2Proof.Machine.crcAcc c b) s ∧ crc16 s = crc16From 0xFFFF s) ∧
  (∀ i t, (i, t) ∈ [((0 : Byte), (0x0000 : BitVec 16)), (1, 0x1189), (2, 0x2312), (3, 0x329B), (255, 0x0F78)] →
    Sys2Proof.Machine.crcAcc 0 i = t) ∧
  ∀ (c : BitVec 16) (b : Byte),
    (let t0 : Byte := b ^^^ c.setWidth 8
     let t1 : Byte := t0 ^^^ (t0 <<< 4)
     Sys2Proof.Machine.crcAcc c b =
       (c >>> 8) ^^^ (t1.setWidth 16 <<< 8) ^^^ (t1.setWidth 16 <<< 3) ^^^ (t1.setWidth 16 >>> 4)) ∧
    Sys2Proof.Machine.crcAcc c b =
      (c >>> 8) ^^^ Sys2Proof.Machine.crcAcc 0 ((c ^^^ b.setWidth 16).setWidth 8)

/-- R126: accumulation may be split; it is a bijection of the accumulator for each byte; it is linear over exclusive-or; a byte
string followed by its own checksum, low byte first, has checksum zero; and a change confined to one byte changes the
checksum. -/
def Obligations.CrcLaws : Prop :=
  (∀ (c : BitVec 16) (s u : Bytes), crc16From c (s ++ u) = crc16From (crc16From c s) u) ∧
  (∀ b : Byte, Function.Bijective fun c => Sys2Proof.Machine.crcAcc c b) ∧
  (∀ (c d : BitVec 16) (b e : Byte), Sys2Proof.Machine.crcAcc (c ^^^ d) (b ^^^ e) =
    Sys2Proof.Machine.crcAcc c b ^^^ Sys2Proof.Machine.crcAcc d e ^^^ Sys2Proof.Machine.crcAcc 0 0) ∧
  Sys2Proof.Machine.crcAcc 0 0 = 0 ∧
  (∀ s : Bytes, crc16 (s ++ leBytes 2 (crc16 s)) = 0) ∧
  ∀ (c : BitVec 16) (u v : Bytes) (x y : Byte), x ≠ y → crc16From c (u ++ x :: v) ≠ crc16From c (u ++ y :: v)

/-! ### The encoders and the sender (41_encode.md) -/

/-- R142: `ENC.V1` builds the v1 frame in `T.TXBUF`, or answers `RANGE` with no state change for an id above 255. -/
def Obligations.EncV1BuildsTheFrameOrIsRefused : Prop :=
  ∀ s : State, s.chan = .tx →
    (255 < s.tx.msgid.toNat → ToTx .encV1 s (s.tx.says .range 0)) ∧
    (s.tx.msgid.toNat ≤ 255 →
      let pay := s.tx.mem.memRead s.epoch .tx .pay 0 s.tx.plen.toNat
      let body := [0xFE, s.tx.plen, s.tx.seq, s.tx.sys, s.tx.comp, s.tx.msgid.extractLsb' 0 8] ++ pay
      let c := crc16 (body.drop 1 ++ [s.tx.seed])
      let f := body ++ [c.extractLsb' 0 8, c.extractLsb' 8 8]
      ∃ t, ToTx .encV1 s t ∧ t.mem.memRead s.epoch .tx .buf 0 (8 + s.tx.plen.toNat) = f ∧
        t.txlen.toNat = 8 + s.tx.plen.toNat ∧ t.crcacc = c ∧ t.txvalid = true ∧
        t.responses = s.tx.responses ++ [⟨.ok, BitVec.ofNat 48 (8 + s.tx.plen.toNat)⟩])

/-- R145 with R143: `ENC.V2U` builds the unsigned v2 frame of the wire payload. -/
def Obligations.EncV2UBuildsTheFrame : Prop :=
  ∀ s : State, s.chan = .tx →
    let pay := s.tx.mem.memRead s.epoch .tx .pay 0 s.tx.plen.toNat
    let wire := if s.tx.truncEn then trunc pay else pay
    let hdr := [0xFD, BitVec.ofNat 8 wire.length, 0x00, 0x00, s.tx.seq, s.tx.sys, s.tx.comp,
      s.tx.msgid.extractLsb' 0 8, s.tx.msgid.extractLsb' 8 8, s.tx.msgid.extractLsb' 16 8]
    let c := crc16 (hdr.drop 1 ++ wire ++ [s.tx.seed])
    let f := hdr ++ wire ++ [c.extractLsb' 0 8, c.extractLsb' 8 8]
    ∃ t, ToTx .encV2U s t ∧ t.mem.memRead s.epoch .tx .buf 0 (12 + wire.length) = f ∧
      t.txlen.toNat = 12 + wire.length ∧ t.crcacc = c ∧ t.txvalid = true ∧
      t.responses = s.tx.responses ++ [⟨.ok, BitVec.ofNat 48 (12 + wire.length)⟩]

/-- R146 with R143: `ENC.V2S` builds the signed v2 frame of the wire payload: the unsigned layout with the signed bit, then
link id, timestamp low byte first, and the six hash bytes over everything before them. -/
def Obligations.EncV2SBuildsTheSignedFrame : Prop :=
  ∀ s : State, s.chan = .tx →
    let pay := s.tx.mem.memRead s.epoch .tx .pay 0 s.tx.plen.toNat
    let wire := if s.tx.truncEn then trunc pay else pay
    let hdr := [0xFD, BitVec.ofNat 8 wire.length, 0x01, 0x00, s.tx.seq, s.tx.sys, s.tx.comp,
      s.tx.msgid.extractLsb' 0 8, s.tx.msgid.extractLsb' 8 8, s.tx.msgid.extractLsb' 16 8]
    let c := crc16 (hdr.drop 1 ++ wire ++ [s.tx.seed])
    let sb := hdr ++ wire ++ [c.extractLsb' 0 8, c.extractLsb' 8 8] ++
      [s.tx.linkid, s.tx.ts.extractLsb' 0 8, s.tx.ts.extractLsb' 8 8, s.tx.ts.extractLsb' 16 8,
        s.tx.ts.extractLsb' 24 8, s.tx.ts.extractLsb' 32 8, s.tx.ts.extractLsb' 40 8]
    let f := sb ++ (sha256 (s.tx.mem.memRead s.epoch .tx .key 0 32 ++ sb)).take 6
    ∃ t, ToTx .encV2S s t ∧ t.mem.memRead s.epoch .tx .buf 0 (25 + wire.length) = f ∧
      t.txlen.toNat = 25 + wire.length ∧ t.crcacc = c ∧ t.txvalid = true ∧
      t.responses = s.tx.responses ++ [⟨.ok, BitVec.ofNat 48 (25 + wire.length)⟩]

/-- R144: truncation removes only zero bytes, only from the end, all of them down to one byte, and never the last byte of a
non-empty payload. -/
def Obligations.TruncationRemovesOnlyTrailingZeros : Prop :=
  ∀ pay : Bytes,
    trunc pay ++ List.replicate (pay.length - (trunc pay).length) 0 = pay ∧
    (pay = [] → trunc pay = []) ∧ (pay ≠ [] → 1 ≤ (trunc pay).length) ∧
    (2 ≤ (trunc pay).length → (trunc pay).getLast? ≠ some 0)

/-- R140: an encoder changes `T.TXBUF[0..L)`, `T.TXLEN`, `T.CRCACC` and `TXVALID` and nothing else: no operand, no byte of
`T.TXBUF` from `L` on, no other space, nothing on the wire, nothing of the RX half; a refused `ENC.V1` changes nothing at all. -/
def Obligations.EncodersLeaveTheRest : Prop :=
  ∀ (i : Instr) (s t : State), s.chan = .tx → i = .encV1 ∨ i = .encV2U ∨ i = .encV2S → exec i s = .next t →
    s.tx.sameOperands t.tx ∧ s.tx.sameAround t.tx ∧ t.tx.out = s.tx.out ∧
    s.tx.mem.sameBut .buf 0 t.tx.txlen.toNat t.tx.mem ∧
    (i = .encV1 → 255 < s.tx.msgid.toNat → t.tx = s.tx.says .range 0) ∧
    t.rx = s.rx ∧ t.epoch = s.epoch ∧ t.moves = s.moves ∧ t.chan = s.chan

/-- R148: `TX.SEND` with no valid frame answers `NOFRAME`; else, as the sink decides (its decision is the head of `sink`, log 8), it appends the whole frame to `OUT` and
answers `OK` with its length, or appends the first `k` bytes and answers `IOERR` with `k`, or is held while the sink does
neither. Nothing else changes; `TXVALID` stays. -/
def Obligations.TxSendAppendsTheFrame : Prop :=
  ∀ s : State, s.chan = .tx →
    let f := s.tx.mem.memRead s.epoch .tx .buf 0 s.tx.txlen.toNat
    (s.tx.txvalid = false → ToTx .txSend s (s.tx.says .noframe 0)) ∧
    (s.tx.txvalid = true →
      (∀ rest, s.tx.sink = .takesAll :: rest →
        ToTx .txSend s ({ s.tx with out := s.tx.out ++ f, sink := rest, sending := false }.says .ok
          (s.tx.txlen.setWidth 48))) ∧
      (∀ k rest, k ≤ s.tx.txlen.toNat → s.tx.sink = .failsAfter k :: rest →
        ToTx .txSend s ({ s.tx with out := s.tx.out ++ f.take k, sink := rest, sending := false }.says .ioerr
          (BitVec.ofNat 48 k))) ∧
      (s.tx.sink = [] → ToTx .txSend s { s.tx with sending := true }))

/-- The sink's answer to a held `TX.SEND` completes it, with the effect it would have had at once. -/
def Obligations.SinkAnswerCompletesAHeldSend : Prop :=
  ∀ (s : State) (a : SinkAnswer), s.chan = .tx → s.tx.txvalid = true → s.tx.sink = [] →
    ∃ t, exec .txSend s = .next t ∧
      exec .txSend { s with tx := { s.tx with sink := [a] } } = .next (t.applyMove (.sink a))

/-- R28: `OUT` is append-only, and only a `TX.SEND` appends to it: a step that is no reset leaves it a prefix, and a command
other than `TX.SEND` leaves it as it was. -/
def Obligations.OnlyTxSendAppendsToOut : Prop :=
  (∀ s t : State, step s = .next t → s.moves.head? ≠ some .reset → s.tx.out <+: t.tx.out) ∧
  (∀ (i : Instr) (s t : State), exec i s = .next t → i ≠ .txSend → t.tx.out = s.tx.out) ∧
  (∀ (s : State) (m : Move), m ≠ .reset → s.tx.sending = false → (s.applyMove m).tx.out = s.tx.out)

/-! ### The decoders and the validator (42_decode_validate.md) -/

/-- R156, R159 (and R158): `DEC.V1` on bytes enough for the length they declare, whatever their first byte, stores every field; on
fewer it answers `FORMAT`, with the four frame flags cleared and everything else as it was. -/
def Obligations.DecV1StoresTheFields : Prop :=
  ∀ s : State, s.chan = .rx →
    let f := s.rx.mem.memRead s.epoch .rx .buf 0 s.rx.rxlen.toNat
    let n := (byteAt f 1).toNat
    let cleared := { s.rx with frame := false, crcOk := false, sigOk := false, signed := false }
    (f.length < 2 ∨ f.length < 8 + n → ToRx .decV1 s (cleared.says .format 0)) ∧
    (2 ≤ f.length → 8 + n ≤ f.length →
    ∃ r, ToRx .decV1 s r ∧ r.responses = s.rx.responses ++ [⟨.ok, BitVec.ofNat 48 (8 + n)⟩] ∧
      r.ver = 1 ∧ r.len = byteAt f 1 ∧ r.incompat = 0 ∧ r.compat = 0 ∧ r.seq = byteAt f 2 ∧ r.sys = byteAt f 3 ∧
      r.comp = byteAt f 4 ∧ r.msgid = (byteAt f 5).setWidth 24 ∧
      r.cksum.toNat = (byteAt f (6 + n)).toNat + 256 * (byteAt f (7 + n)).toNat ∧
      r.linkid = 0 ∧ r.ts = 0 ∧ r.hash = 0 ∧
      r.frame = true ∧ r.crcOk = false ∧ r.sigOk = false ∧ r.signed = false ∧ r.eos = s.rx.eos ∧
      ∀ k, k < 255 → r.mem.pay.get? k = some (if k < n then byteAt f (6 + k) else 0))

/-- R157, R160 (and R158): `DEC.V2` on bytes enough for the length and the signed bit they declare stores every field; on fewer
it answers `FORMAT`, with the four frame flags cleared and everything else as it was. -/
def Obligations.DecV2StoresTheFields : Prop :=
  ∀ s : State, s.chan = .rx →
    let f := s.rx.mem.memRead s.epoch .rx .buf 0 s.rx.rxlen.toNat
    let n := (byteAt f 1).toNat
    let sg := (byteAt f 2).getLsbD 0
    let cleared := { s.rx with frame := false, crcOk := false, sigOk := false, signed := false }
    (f.length < 3 ∨ f.length < 12 + n + 13 * sg.toNat → ToRx .decV2 s (cleared.says .format 0)) ∧
    (3 ≤ f.length → 12 + n + 13 * sg.toNat ≤ f.length →
    ∃ r, ToRx .decV2 s r ∧ r.responses = s.rx.responses ++ [⟨.ok, BitVec.ofNat 48 (12 + n + 13 * sg.toNat)⟩] ∧
      r.ver = 2 ∧ r.len = byteAt f 1 ∧ r.incompat = byteAt f 2 ∧ r.compat = byteAt f 3 ∧ r.seq = byteAt f 4 ∧
      r.sys = byteAt f 5 ∧ r.comp = byteAt f 6 ∧
      r.msgid.toNat = (byteAt f 7).toNat + 256 * (byteAt f 8).toNat + 65536 * (byteAt f 9).toNat ∧
      r.cksum.toNat = (byteAt f (10 + n)).toNat + 256 * (byteAt f (11 + n)).toNat ∧
      (sg = false → r.linkid = 0 ∧ r.ts = 0 ∧ r.hash = 0) ∧
      (sg = true → r.linkid = byteAt f (12 + n) ∧
        (∀ k, k < 6 → r.ts.extractLsb' (8 * k) 8 = byteAt f (13 + n + k)) ∧
        ∀ k, k < 6 → r.hash.extractLsb' (8 * k) 8 = byteAt f (19 + n + k)) ∧
      r.frame = true ∧ r.crcOk = false ∧ r.sigOk = false ∧ r.signed = sg ∧ r.eos = s.rx.eos ∧
      ∀ k, k < 255 → r.mem.pay.get? k = some (if k < n then byteAt f (10 + k) else 0))

/-- R31: which commands set and clear each flag of `R.STATUS`. A flag is up after a command only if that command sets it or it
was up before and the command does not clear it; and no command but those of the table changes it. -/
def Obligations.FlagsChangeOnlyAsTheTableSays : Prop :=
  ∀ (i : Instr) (s t : State), exec i s = .next t → s.chan = .rx →
    let decodes := i = .decV1 ∨ i = .decV2 ∨ i = .syncNext
    let clears := decodes ∨ i = .syncDrop ∨ i = .syncConnect
    (t.rx.frame = true → (clears → decodes) ∧ (¬clears → s.rx.frame = true)) ∧
    (t.rx.signed = true → (clears → (i = .decV2 ∨ i = .syncNext) ∧ t.rx.frame = true ∧ t.rx.ver = 2 ∧
        t.rx.incompat.getLsbD 0 = true) ∧ (¬clears → s.rx.signed = true)) ∧
    (clears → t.rx.crcOk = false ∧ t.rx.sigOk = false) ∧
    (¬clears → t.rx.frame = s.rx.frame ∧ t.rx.signed = s.rx.signed) ∧
    (¬clears → (∀ seed, i ≠ .rxChk seed) → t.rx.crcOk = s.rx.crcOk) ∧
    (¬clears → i ≠ .sigVfy → t.rx.sigOk = s.rx.sigOk) ∧
    (i ≠ .syncNext → i ≠ .syncConnect → t.rx.eos = s.rx.eos) ∧
    (i = .syncNext → s.rx.eos = true → t.rx.eos = true) ∧
    (i = .syncConnect → t.rx.eos = false)

/-- The frame of `DEC.V1` and `DEC.V2`: no space but `R.RXPAY`, not the stream, `RXLEN`, `R.CRCACC`, `EOS`, nothing of the
TX half. -/
def Obligations.DecodersLeaveTheRest : Prop :=
  ∀ (i : Instr) (s t : State), s.chan = .rx → i = .decV1 ∨ i = .decV2 → exec i s = .next t →
    s.rx.mem.sameBut .pay 0 255 t.rx.mem ∧ s.rx.sameStream t.rx ∧ t.rx.rxlen = s.rx.rxlen ∧
    t.rx.crcacc = s.rx.crcacc ∧ t.rx.eos = s.rx.eos ∧
    t.tx = s.tx ∧ t.epoch = s.epoch ∧ t.moves = s.moves ∧ t.chan = s.chan

/-- R163: `RX.CHK` recomputes the checksum from the descriptor and the payload, writes it to `R.CRCACC`, sets `CRC_OK` and
answers 1 or 0; with no current frame it answers `NOFRAME` and changes nothing. -/
def Obligations.RxChkRecomputesTheChecksum : Prop :=
  ∀ (s : State) (seed : Byte), s.chan = .rx →
    let r := s.rx
    let pay := r.mem.memRead s.epoch .rx .pay 0 r.len.toNat
    let id := [r.msgid.extractLsb' 0 8, r.msgid.extractLsb' 8 8, r.msgid.extractLsb' 16 8]
    let c1 := crc16 ([r.len, r.seq, r.sys, r.comp, r.msgid.extractLsb' 0 8] ++ pay ++ [seed])
    let c2 := crc16 ([r.len, r.incompat, r.compat, r.seq, r.sys, r.comp] ++ id ++ pay ++ [seed])
    let c := if r.ver = 1 then c1 else c2
    (r.frame = false → ToRx (.rxChk seed) s (r.says .noframe 0)) ∧
    (r.frame = true →
      (c = r.cksum → ToRx (.rxChk seed) s ({ r with crcacc := c, crcOk := true }.says .ok 1)) ∧
      (c ≠ r.cksum → ToRx (.rxChk seed) s ({ r with crcacc := c, crcOk := false }.says .ok 0)))

/-- For a frame decoded from the buffer, `RX.CHK` computes the checksum over the wire bytes: header without marker, payload,
then the seed (40_crc.md R125). -/
def Obligations.RxChkCoversTheWireBytes : Prop :=
  ∀ (s t : State) (seed : Byte), s.chan = .rx →
    let f := s.rx.mem.memRead s.epoch .rx .buf 0 s.rx.rxlen.toNat
    (exec .decV1 s = .next t → t.rx.frame = true →
      ∃ u, exec (.rxChk seed) t = .next u ∧
        u.rx.crcacc = crc16 (slice f 1 (6 + (byteAt f 1).toNat) ++ [seed])) ∧
    (exec .decV2 s = .next t → t.rx.frame = true →
      ∃ u, exec (.rxChk seed) t = .next u ∧
        u.rx.crcacc = crc16 (slice f 1 (10 + (byteAt f 1).toNat) ++ [seed]))

/-- R147: what an encoder builds, decoded, gives the operands back, and `RX.CHK` with the same seed answers 1: `ENC.V1`. -/
def Obligations.V1FrameRoundTrips : Prop :=
  ∀ s u : State, s.chan = .tx → s.tx.msgid.toNat ≤ 255 →
    ∃ t, exec .encV1 s = .next t ∧
      (u.chan = .rx → u.rx.rxlen = t.tx.txlen →
        u.rx.mem.memRead u.epoch .rx .buf 0 t.tx.txlen.toNat = t.tx.mem.memRead t.epoch .tx .buf 0 t.tx.txlen.toNat →
        ∃ v, exec .decV1 u = .next v ∧
          v.rx.ver = 1 ∧ v.rx.len = s.tx.plen ∧ v.rx.seq = s.tx.seq ∧ v.rx.sys = s.tx.sys ∧ v.rx.comp = s.tx.comp ∧
          v.rx.msgid = s.tx.msgid ∧ v.rx.cksum = t.tx.crcacc ∧
          v.rx.mem.memRead v.epoch .rx .pay 0 s.tx.plen.toNat = s.tx.mem.memRead s.epoch .tx .pay 0 s.tx.plen.toNat ∧
          ∃ w, exec (.rxChk s.tx.seed) v = .next w ∧ w.rx.responses = v.rx.responses ++ [⟨.ok, 1⟩])

/-- R147: the same for `ENC.V2U` and `ENC.V2S`, the payload's trailing zeros put back; for `ENC.V2S` the link id and the timestamp
come back too and `SIGNED` is set, for `ENC.V2U` they are 0 and it is not (R146, R157, R164). -/
def Obligations.V2FrameRoundTrips : Prop :=
  ∀ (s u : State) (i : Instr), s.chan = .tx → i = .encV2U ∨ i = .encV2S →
    ∃ t, exec i s = .next t ∧
      (u.chan = .rx → u.rx.rxlen = t.tx.txlen →
        u.rx.mem.memRead u.epoch .rx .buf 0 t.tx.txlen.toNat = t.tx.mem.memRead t.epoch .tx .buf 0 t.tx.txlen.toNat →
        ∃ v, exec .decV2 u = .next v ∧
          v.rx.ver = 2 ∧ v.rx.incompat = (if i = .encV2S then 1 else 0) ∧ v.rx.compat = 0 ∧
          v.rx.signed = decide (i = .encV2S) ∧ v.rx.linkid = (if i = .encV2S then s.tx.linkid else 0) ∧
          v.rx.ts = (if i = .encV2S then s.tx.ts else 0) ∧
          v.rx.len.toNat = (s.tx.wirePayload s.epoch).length ∧
          v.rx.seq = s.tx.seq ∧ v.rx.sys = s.tx.sys ∧ v.rx.comp = s.tx.comp ∧
          v.rx.msgid = s.tx.msgid ∧ v.rx.cksum = t.tx.crcacc ∧
          v.rx.mem.memRead v.epoch .rx .pay 0 s.tx.plen.toNat = s.tx.mem.memRead s.epoch .tx .pay 0 s.tx.plen.toNat ∧
          ∃ w, exec (.rxChk s.tx.seed) v = .next w ∧ w.rx.responses = v.rx.responses ++ [⟨.ok, 1⟩])

/-- R164: where `RX.CHK` with the sender's seed answers 1 for a frame decoded from the buffer, it answers 0 for another seed; and
in a machine whose buffer differs in exactly one covered byte, the length byte and the signed bit apart, the decoder succeeds
and `RX.CHK` with the same seed answers 0. `h` is the header's length. -/
def Obligations.ChangedCoveredByteFailsTheCheck : Prop :=
  ∀ (i : Instr) (h : Nat) (s t u : State) (seed : Byte), (i = .decV1 ∧ h = 6) ∨ (i = .decV2 ∧ h = 10) → s.chan = .rx →
    exec i s = .next t → t.rx.frame = true → exec (.rxChk seed) t = .next u →
    u.rx.responses = t.rx.responses ++ [⟨.ok, 1⟩] →
    let f := s.rx.mem.memRead s.epoch .rx .buf 0 s.rx.rxlen.toNat
    (∀ seed', seed' ≠ seed → ∃ u', exec (.rxChk seed') t = .next u' ∧
      u'.rx.responses = t.rx.responses ++ [⟨.ok, 0⟩] ∧ u'.rx.crcOk = false) ∧
    ∀ (s' : State) (k : Nat) (x : Byte), s'.chan = .rx →
      s'.rx.mem.memRead s'.epoch .rx .buf 0 s'.rx.rxlen.toNat = f.set k x →
      2 ≤ k → k < h + t.rx.len.toNat → x ≠ byteAt f k →
      (i = .decV2 → k = 2 → x.getLsbD 0 = (byteAt f 2).getLsbD 0) →
      ∃ t' u', exec i s' = .next t' ∧ t'.rx.frame = true ∧ exec (.rxChk seed) t' = .next u' ∧
        u'.rx.responses = t'.rx.responses ++ [⟨.ok, 0⟩] ∧ u'.rx.crcOk = false

/-! ### Signatures (43_signature.md) -/

/-- R176: `SIG.VFY` recomputes the hash over the signed bytes of the current frame (R172) with the key in `R.RXKEY`, sets
`SIG_OK` and answers 1 or 0; `NOFRAME` and `NOSIG` change nothing. -/
def Obligations.SigVfyRecomputesTheHash : Prop :=
  ∀ s : State, s.chan = .rx →
    let r := s.rx
    let pay := r.mem.memRead s.epoch .rx .pay 0 r.len.toNat
    let id := [r.msgid.extractLsb' 0 8, r.msgid.extractLsb' 8 8, r.msgid.extractLsb' 16 8]
    let sb := [0xFD, r.len, r.incompat, r.compat, r.seq, r.sys, r.comp] ++ id ++ pay ++
      [r.cksum.extractLsb' 0 8, r.cksum.extractLsb' 8 8] ++
      [r.linkid, r.ts.extractLsb' 0 8, r.ts.extractLsb' 8 8, r.ts.extractLsb' 16 8, r.ts.extractLsb' 24 8,
        r.ts.extractLsb' 32 8, r.ts.extractLsb' 40 8]
    let h := (sha256 (r.mem.memRead s.epoch .rx .key 0 32 ++ sb)).take 6
    (r.frame = false → ToRx .sigVfy s (r.says .noframe 0)) ∧
    (r.frame = true → r.ver ≠ 2 ∨ r.signed = false → ToRx .sigVfy s (r.says .nosig 0)) ∧
    (r.frame = true → r.ver = 2 → r.signed = true →
      ((∀ k, k < 6 → h.getD k 0 = r.hash.extractLsb' (8 * k) 8) →
        ToRx .sigVfy s ({ r with sigOk := true }.says .ok 1)) ∧
      ((∃ k, k < 6 ∧ h.getD k 0 ≠ r.hash.extractLsb' (8 * k) 8) →
        ToRx .sigVfy s ({ r with sigOk := false }.says .ok 0)))

/-- R177 (a): a frame built by `ENC.V2S` with a key and decoded unchanged verifies 1 against that key. -/
def Obligations.SignedFrameVerifiesWithItsKey : Prop :=
  ∀ s u : State, s.chan = .tx →
    ∃ t, exec .encV2S s = .next t ∧
      (u.chan = .rx → u.rx.rxlen = t.tx.txlen →
        u.rx.mem.memRead u.epoch .rx .buf 0 t.tx.txlen.toNat = t.tx.mem.memRead t.epoch .tx .buf 0 t.tx.txlen.toNat →
        u.rx.mem.memRead u.epoch .rx .key 0 32 = s.tx.mem.memRead s.epoch .tx .key 0 32 →
        ∃ v w, exec .decV2 u = .next v ∧ exec .sigVfy v = .next w ∧
          w.rx.responses = v.rx.responses ++ [⟨.ok, 1⟩] ∧ w.rx.sigOk = true)

/-- The frame of `RX.CHK` and `SIG.VFY`: nothing changes but the verdict each gives, the response, and for `RX.CHK` the
accumulator. -/
def Obligations.ValidatorsLeaveTheRest : Prop :=
  ∀ (i : Instr) (s t : State), s.chan = .rx → (∃ seed, i = .rxChk seed) ∨ i = .sigVfy → exec i s = .next t →
    s.rx.mem.same t.rx.mem ∧ s.rx.sameStream t.rx ∧ s.rx.sameDescriptor t.rx ∧ t.rx.rxlen = s.rx.rxlen ∧
    t.rx.frame = s.rx.frame ∧ t.rx.eos = s.rx.eos ∧ t.rx.signed = s.rx.signed ∧
    (i = .sigVfy → t.rx.crcacc = s.rx.crcacc ∧ t.rx.crcOk = s.rx.crcOk) ∧
    (i ≠ .sigVfy → t.rx.sigOk = s.rx.sigOk) ∧
    t.tx = s.tx ∧ t.epoch = s.epoch ∧ t.moves = s.moves ∧ t.chan = s.chan

/-! ### The scanner (44_sync.md) -/

/-- R200: on a closed stream `SYNC.NEXT` answers `EOS` exactly when `Scan` ends, and otherwise `OK` with the window `Scan`
finds, having dropped exactly the bytes before it; the window is then the current frame, decoded by the decoder of its
format, wherever `Scan` found it. -/
def Obligations.SyncNextIsScanOnAClosedStream : Prop :=
  ∀ s : State, s.chan = .rx → s.rx.closed = true →
    match scanOf (s.rx.stream.drop s.rx.tent) with
    | none => ∃ r, ToRx .syncNext s r ∧ r.responses = s.rx.responses ++ [⟨.eos, 0⟩] ∧ r.eos = true ∧ r.noFrameFlags ∧
        r.stream = [] ∧ r.tent = 0 ∧ r.held = none ∧ r.rxlen = s.rx.rxlen ∧ s.rx.sameDescriptor r ∧ s.rx.mem.same r.mem
    | some (w, n) => ∃ r f, ToRx .syncNext s r ∧
        decodeFrame (if byteAt w 0 = 0xFE then .v1 else .v2) (w.take n) = some f ∧
        r.responses = s.rx.responses ++ [⟨.ok, BitVec.ofNat 48 n⟩] ∧
        r.stream = w ∧ r.tent = n ∧ r.held = none ∧ r.rxlen.toNat = n ∧
        r.mem.memRead s.epoch .rx .buf 0 n = w.take n ∧ r.holdsFrame s.epoch f ∧ r.eos = s.rx.eos

/-- R197: on any stream that has a whole frame-shaped window behind bytes no marker can make a frame of, `SYNC.NEXT` drops
those bytes and returns the window, decoded: registers, payload and flags are those a decoder of the window's format gives. -/
def Obligations.SyncNextReturnsTheFirstWindow : Prop :=
  ∀ (s : State) (g w rest : Bytes) (n : Nat), s.chan = .rx → s.rx.stream.drop s.rx.tent = g ++ w ++ rest →
    (∀ b ∈ g, b ≠ 0xFE ∧ b ≠ 0xFD) → frameLenOf w = some n → w.length = n →
    ∃ r f, ToRx .syncNext s r ∧ decodeFrame (if byteAt w 0 = 0xFE then .v1 else .v2) w = some f ∧
      r.responses = s.rx.responses ++ [⟨.ok, BitVec.ofNat 48 n⟩] ∧ r.stream = w ++ rest ∧ r.tent = n ∧ r.held = none ∧
      r.rxlen.toNat = n ∧ r.mem.memRead s.epoch .rx .buf 0 n = w ∧ r.holdsFrame s.epoch f ∧ r.eos = s.rx.eos

/-- R200: a window found while the stream is open is the one `Scan` finds in every continuation of the stream. -/
def Obligations.OpenWindowStandsForEveryContinuation : Prop :=
  ∀ (s t : State) (u : Bytes), s.chan = .rx → s.rx.closed = false → s.rx.held = none → exec .syncNext s = .next t →
    t.rx.held = none →
    ∃ n, t.rx.responses = s.rx.responses ++ [⟨.ok, BitVec.ofNat 48 n⟩] ∧
      scanOf (s.rx.stream.drop s.rx.tent ++ u) = some (t.rx.stream ++ u, n)

/-- R200: the answer depends on which bytes arrive and not on when. Delivering bytes to a `SYNC.NEXT`, held or complete, gives
the same machine as delivering them before it is issued. -/
def Obligations.ScanDoesNotDependOnWhenBytesArrive : Prop :=
  ∀ (s : State) (u : Bytes), s.chan = .rx → s.rx.held = none → s.rx.tent ≤ s.rx.stream.length →
    ∃ t, exec .syncNext s = .next t ∧
      exec .syncNext { s with rx := s.rx.deliverAll u } = .next { t with rx := t.rx.deliverAll u }

/-- R76, R190: `Deliver` appends its byte at the end of `S` and `Close` sets `closed`, and with no command held nothing else
changes; after `Close` a delivery changes nothing (log 7). A held `SYNC.DROP` completes by consuming the byte that comes, or
nothing at `Close` (R196). And a held `SYNC.NEXT` or `SYNC.DROP` is lifted only by the source: no other move of the outside
world but a reset, and no command of the TX channel, changes the RX half's state, its queue apart. -/
def Obligations.OnlyTheSourceLiftsAHeldCommand : Prop :=
  (∀ (s : State) (b : Byte), s.rx.closed = false → s.rx.held = none →
    s.applyMove (.deliver b) = { s with rx := { s.rx with stream := s.rx.stream ++ [b] } }) ∧
  (∀ (s : State) (b : Byte), s.rx.closed = true → s.applyMove (.deliver b) = s) ∧
  (∀ s : State, s.rx.held = none → s.applyMove .close = { s with rx := { s.rx with closed := true } }) ∧
  (∀ (s : State) (b : Byte), s.rx.held = some .drop → s.rx.stream = [] → s.rx.closed = false →
    s.applyMove (.deliver b) = { s with rx := { s.rx with stream := [], tent := 0, held := none }.says .ok 0 } ∧
    s.applyMove .close = { s with rx := { s.rx with closed := true, tent := 0, held := none }.says .ok 0 }) ∧
  ∀ (s : State), s.rx.held ≠ none →
    (∀ m : Move, (∀ b, m ≠ .deliver b) → m ≠ .close → m ≠ .reset →
      ∃ q, (s.applyMove m).rx = { s.rx with queue := q }) ∧
    (∀ (i : Instr) (t : State), s.chan = .tx → exec i s = .next t → t.rx = s.rx)

/-- R197, decision D17: a `SYNC.NEXT` on an open stream whose bytes, behind those that are no marker, are none or begin a frame
that is not whole is held. Held, it has cleared the four flags and dropped the bytes before the one its attempt starts at;
the cursor is behind the bytes of the header it has read, and the descriptor, `RXLEN`, every byte space, the accumulator and
`EOS` are as before. Closing the stream completes it with what a closed stream gives. -/
def Obligations.CloseCompletesAHeldScan : Prop :=
  ∀ (s : State) (g w : Bytes), s.chan = .rx → s.rx.closed = false → s.rx.held = none →
    s.rx.stream.drop s.rx.tent = g ++ w → (∀ b ∈ g, b ≠ 0xFE ∧ b ≠ 0xFD) →
    (∀ b rest, w = b :: rest → b = 0xFE ∨ b = 0xFD) → (∀ n, frameLenOf w = some n → w.length < n) →
    ∃ r, ToRx .syncNext s r ∧ r.held ≠ none ∧ r.responses = s.rx.responses ∧ r.noFrameFlags ∧ r.stream = w ∧
      r.tent = min w.length (if byteAt w 0 = 0xFE then 2 else 3) ∧ r.closed = false ∧ r.eos = s.rx.eos ∧
      s.rx.sameDescriptor r ∧ r.rxlen = s.rx.rxlen ∧ r.mem = s.rx.mem ∧ r.crcacc = s.rx.crcacc ∧
      exec .syncNext { s with rx := s.rx.close } = .next ({ s with rx := r }.applyMove .close)

/-- R198 with R196: `SYNC.DROP` clears the four frame flags and consumes exactly one byte, the one at the committed position;
on a closed empty stream it consumes nothing, on an open empty one it is held. -/
def Obligations.SyncDropConsumesOneByte : Prop :=
  ∀ s : State, s.chan = .rx →
    let r := { s.rx with frame := false, crcOk := false, sigOk := false, signed := false, tent := 0, held := none }
    (∀ b rest, s.rx.stream = b :: rest → ToRx .syncDrop s ({ r with stream := rest }.says .ok 0)) ∧
    (s.rx.stream = [] → s.rx.closed = true → ToRx .syncDrop s (r.says .ok 0)) ∧
    (s.rx.stream = [] → s.rx.closed = false → ToRx .syncDrop s { r with held := some .drop })

/-- R203: `SYNC.CONNECT` empties and reopens the stream and clears the five status bits; nothing else changes. -/
def Obligations.SyncConnectReopensTheStream : Prop :=
  ∀ s : State, s.chan = .rx →
    let r := { s.rx with frame := false, crcOk := false, sigOk := false, signed := false, eos := false }
    ToRx .syncConnect s ({ r with stream := [], tent := 0, closed := false }.says .ok 0)

/-- R202: after `EOS`, every further `SYNC.NEXT` answers `EOS` at once, and nothing but `SYNC.CONNECT` or reset lowers the
flag. -/
def Obligations.EosStaysUntilConnect : Prop :=
  (∀ s : State, s.Inv → s.chan = .rx → s.rx.eos = true →
    ∃ r, ToRx .syncNext s r ∧ r.responses = s.rx.responses ++ [⟨.eos, 0⟩] ∧ r.eos = true) ∧
  (∀ (i : Instr) (s t : State), exec i s = .next t → i ≠ .syncConnect → s.rx.eos = true → t.rx.eos = true) ∧
  (∀ (s : State) (m : Move), m ≠ .reset → s.rx.eos = true → (s.applyMove m).rx.eos = true)

/-- R201 (b): after a window the host rejects, `SYNC.DROP` and the next `SYNC.NEXT` together scan from the window's second
byte: the bytes of a real frame inside it are still there. -/
def Obligations.RejectedWindowIsRescannedFromItsSecondByte : Prop :=
  ∀ (s : State) (b : Byte) (rest : Bytes), s.chan = .rx → s.rx.stream = b :: rest → s.rx.closed = true →
    ∃ t, exec .syncDrop s = .next t ∧
      match scanOf rest with
      | none => ∃ r, ToRx .syncNext t r ∧ r.eos = true ∧ r.responses = t.rx.responses ++ [⟨.eos, 0⟩]
      | some (w, n) => ∃ r, ToRx .syncNext t r ∧ r.stream = w ∧ r.tent = n ∧
          r.responses = t.rx.responses ++ [⟨.ok, BitVec.ofNat 48 n⟩]

/-- The frame of `SYNC.NEXT`, `SYNC.DROP` and `SYNC.CONNECT`: the key, `R.CRCACC`, the queue and the TX half never change;
only `SYNC.NEXT` writes `R.RXPAY`, `R.RXBUF`, the descriptor and `RXLEN`, and the bytes of `R.RXBUF` beyond the window stay. -/
def Obligations.ScannerCommandsLeaveTheRest : Prop :=
  ∀ (i : Instr) (s t : State), s.chan = .rx → i = .syncNext ∨ i = .syncDrop ∨ i = .syncConnect → exec i s = .next t →
    t.rx.mem.key = s.rx.mem.key ∧ t.rx.crcacc = s.rx.crcacc ∧ t.rx.queue = s.rx.queue ∧
    (∀ k, t.rx.tent ≤ k → t.rx.mem.buf.get? k = s.rx.mem.buf.get? k) ∧
    (i ≠ .syncNext → s.rx.mem.same t.rx.mem ∧ s.rx.sameDescriptor t.rx ∧ t.rx.rxlen = s.rx.rxlen) ∧
    (i ≠ .syncConnect → t.rx.closed = s.rx.closed) ∧
    t.tx = s.tx ∧ t.epoch = s.epoch ∧ t.moves = s.moves ∧ t.chan = s.chan

/-! ### The two halves and the host -/

/-- R20, R70: the halves share no state, so a TX command and an RX command commute. -/
def Obligations.TxAndRxCommandsCommute : Prop :=
  ∀ (i j : Instr) (s : State), ∃ t u, txThenRx i j s = .next t ∧ rxThenTx i j s = .next u ∧
    t.tx = u.tx ∧ t.rx = u.rx ∧ t.epoch = u.epoch ∧ t.moves = u.moves

/-- R243 to R245: the sequence counter changes only where an encoder has answered `OK` to the writer, by one (mod 256), and to 0 at
a `connect` or a reset. A send that gets the write lock of an MFU with nothing else to do on it comes, by turns of its thread and the
MFU, to one of these ends: refused, with the counter and the wire as before; or, with the counter raised, a frame that carries
the counter's value at the sequence byte's offset was sent whole, was sent in part (`IOERR`), or waits in `T.TXBUF` for the
sink with its procedure in place. The model's choices it rests on: the procedures as data, and a message of more than 255
bytes (N17), log 18; a key that is not 32 bytes long (N7), log 26; the sink's decisions as a list, log 8. -/
def Obligations.SendUsesEachSequenceNumberOnce : Prop :=
  (∀ (α : Type) (dialect : Dialect α) (x : Mover) (c : Conn α), (c.move dialect x).seqctr ≠ c.seqctr →
    ((c.move dialect x).seqctr.toNat = (c.seqctr.toNat + 1) % 256 ∧ x = .writer ∧
      ∃ kind n r, c.writer = some ⟨.load kind [], some n⟩ ∧ c.mfu.tx.responses[n]? = some r ∧ r.status = .ok) ∨
    ((c.move dialect x).seqctr = 0 ∧ x = .reader ∧ ∃ n, c.reader = some ⟨.connect, some n⟩) ∨
    ((c.move dialect x).seqctr = 0 ∧ x = .mfu ∧ c.mfu.moves.head? = some .reset)) ∧
  ∀ (α : Type) (dialect : Dialect α) (kind : SendKind) (sys comp : Byte) (m : Outgoing) (c : Conn α), c.writer = none →
    c.mfu.tx.sending = false → c.mfu.tx.queue = [] → c.mfu.rx.queue = [] → c.mfu.moves.head? ≠ some .reset →
    ∃ n, let d := (Conn.turn dialect .writer)^[n] (c.callSend kind sys comp m)
      (d.writer = none ∧ (∃ st, d.sent = c.sent ++ [.refused st]) ∧ d.seqctr = c.seqctr ∧
        d.mfu.tx.out = c.mfu.tx.out) ∨
      (d.seqctr = c.seqctr + 1 ∧ ∃ f, byteAt f kind.seqOffset = c.seqctr ∧
        d.mfu.tx.mem.memRead d.mfu.epoch .tx .buf 0 d.mfu.tx.txlen.toNat = f ∧
        ((d.writer = none ∧ d.sent = c.sent ++ [.sent] ∧ d.mfu.tx.out = c.mfu.tx.out ++ f) ∨
          (d.writer = none ∧ d.sent = c.sent ++ [.ioError] ∧ ∃ k, d.mfu.tx.out = c.mfu.tx.out ++ f.take k) ∨
          ((∃ k, d.writer = some ⟨.send, some k⟩) ∧ d.mfu.tx.sending = true ∧ d.mfu.tx.out = c.mfu.tx.out)))
end

