-- ==== Sys2Proof/Laws/Bytes.lean ====
section
/-! SUPPORT. Byte order and lengths: little-endian sequences, the hash's lengths, slices. -/

namespace Sys2Proof.Machine

/-! ### Little-endian sequences -/

@[simp] theorem leBytes_length (n : Nat) {w : Nat} (v : BitVec w) : (leBytes n v).length = n := by simp [leBytes]

theorem leBytes_two {w : Nat} (v : BitVec w) : leBytes 2 v = [v.extractLsb' 0 8, v.extractLsb' 8 8] := rfl

theorem leBytes_three {w : Nat} (v : BitVec w) :
    leBytes 3 v = [v.extractLsb' 0 8, v.extractLsb' 8 8, v.extractLsb' 16 8] := rfl

theorem leBytes_six {w : Nat} (v : BitVec w) :
    leBytes 6 v = [v.extractLsb' 0 8, v.extractLsb' 8 8, v.extractLsb' 16 8, v.extractLsb' 24 8, v.extractLsb' 32 8,
      v.extractLsb' 40 8] := rfl

theorem byteAt_leBytes (n : Nat) {w : Nat} (v : BitVec w) (k : Nat) (h : k < n) :
    byteAt (leBytes n v) k = v.extractLsb' (8 * k) 8 := by simp [byteAt, leBytes, h]

theorem byteAt_cons_succ (b : Byte) (s : Bytes) (k : Nat) : byteAt (b :: s) (k + 1) = byteAt s k := by simp [byteAt]

@[simp] theorem byteAt_nil (k : Nat) : byteAt [] k = 0 := by simp [byteAt]

/-- Bit `i` of a little-endian number is bit `i mod 8` of its byte `i / 8`. -/
theorem fromLe_getLsbD (w : Nat) (s : Bytes) (i : Nat) :
    (fromLe w s).getLsbD i = (decide (i < w) && (byteAt s (i / 8)).getLsbD (i % 8)) := by
  induction s generalizing i with
  | nil => simp [fromLe]
  | cons b s ih =>
    have hstep : fromLe w (b :: s) = fromLe w s <<< 8 ||| b.setWidth w := rfl
    rw [hstep, BitVec.getLsbD_or, BitVec.getLsbD_shiftLeft, BitVec.getLsbD_setWidth, ih]
    by_cases hw : i < w
    · rcases Nat.lt_or_ge i 8 with h | h
      · have h1 : i / 8 = 0 := by omega
        have h2 : i % 8 = i := by omega
        simp [hw, h, h1, h2, byteAt]
      · have h1 : i / 8 = (i - 8) / 8 + 1 := by omega
        have h2 : i % 8 = (i - 8) % 8 := by omega
        have h3 : ¬ i < 8 := by omega
        have h4 : i - 8 < w := by omega
        simp [hw, h3, h4, h1, h2, byteAt_cons_succ, BitVec.getLsbD_of_ge b i (by omega)]
    · simp [hw]

/-- Reading back the little-endian bytes of a number of `8 n` bits. -/
theorem fromLe_leBytes (n : Nat) (v : BitVec (8 * n)) : fromLe (8 * n) (leBytes n v) = v := by
  apply BitVec.eq_of_getLsbD_eq
  intro i hi
  have hk : i / 8 < n := by omega
  have hm : i % 8 < 8 := Nat.mod_lt _ (by decide)
  rw [fromLe_getLsbD, byteAt_leBytes n v _ hk, BitVec.getLsbD_extractLsb', Nat.div_add_mod]
  simp [hi, hm]

/-- Two numbers of `8 n` bits with the same bytes are equal. -/
theorem eq_of_leBytes (n : Nat) (v u : BitVec (8 * n)) (h : ∀ k, k < n → v.extractLsb' (8 * k) 8 = u.extractLsb' (8 * k) 8) :
    v = u := by
  rw [← fromLe_leBytes n v, ← fromLe_leBytes n u]
  congr 1
  exact List.map_congr_left fun k hk => h k (List.mem_range.1 hk)

/-- Byte `k` of a little-endian number. -/
theorem fromLe_extractLsb' (n : Nat) (s : Bytes) (k : Nat) (h : k < n) :
    (fromLe (8 * n) s).extractLsb' (8 * k) 8 = byteAt s k := by
  apply BitVec.eq_of_getLsbD_eq
  intro i hi
  have h1 : (8 * k + i) / 8 = k := by omega
  have h2 : (8 * k + i) % 8 = i := by omega
  have h3 : 8 * k + i < 8 * n := by omega
  rw [BitVec.getLsbD_extractLsb', fromLe_getLsbD, h1, h2]
  simp [hi, h3]

/-! ### Slices -/

theorem slice_length (s : Bytes) (i j : Nat) (h : j ≤ s.length) : (slice s i j).length = j - i := by
  simp [slice]; omega

theorem slice_length_le (s : Bytes) (i j : Nat) : (slice s i j).length ≤ j - i := by simp [slice]

theorem byteAt_slice (s : Bytes) (i j k : Nat) (h : k < j - i) : byteAt (slice s i j) k = byteAt s (i + k) := by
  simp [byteAt, slice, List.getD_eq_getElem?_getD, h]

theorem byteAt_append_left (s u : Bytes) (k : Nat) (h : k < s.length) : byteAt (s ++ u) k = byteAt s k := by
  simp [byteAt, List.getElem?_append_left h]

theorem byteAt_append_right (s u : Bytes) (k : Nat) (h : s.length ≤ k) : byteAt (s ++ u) k = byteAt u (k - s.length) := by
  simp [byteAt, List.getElem?_append_right h]

/-- The slice between two parts of a byte string. -/
theorem slice_append (s u v : Bytes) : slice (s ++ u ++ v) s.length (s.length + u.length) = u := by
  simp [slice]

/-! ### The hash -/

@[simp] theorem beBytes_length (n : Nat) {w : Nat} (v : BitVec w) : (beBytes n v).length = n := by simp [beBytes]

@[simp] theorem sha256_length (m : Bytes) : (sha256 m).length = 32 := by simp [sha256, ShaState.digest]

@[simp] theorem mac48_length (key m : Bytes) : (mac48 key m).length = 6 := by simp [mac48]

end Sys2Proof.Machine
end

