-- ==== Sys2Proof/Laws/Crc.lean ====
section
/-! SUPPORT. The bit loop of the CRC unit: it is linear, and each of its steps can be undone (40_crc.md R126). -/

namespace Sys2Proof.Machine

@[simp] theorem crc16From_nil (c : BitVec 16) : crc16From c [] = c := rfl

@[simp] theorem crc16From_cons (c : BitVec 16) (b : Byte) (s : Bytes) :
    crc16From c (b :: s) = crc16From (crcAcc c b) s := rfl

theorem crcBit_xor (c d : BitVec 16) : crcBit (c ^^^ d) = crcBit c ^^^ crcBit d := by
  unfold crcBit
  rw [BitVec.getLsbD_xor]
  cases c.getLsbD 0 <;> cases d.getLsbD 0 <;> simp [BitVec.ushiftRight_xor_distrib]
  · ac_rfl
  · ac_rfl
  · rw [show c >>> 1 ^^^ 0x8408#16 ^^^ (d >>> 1 ^^^ 0x8408#16) = c >>> 1 ^^^ d >>> 1 ^^^ (0x8408#16 ^^^ 0x8408#16) by ac_rfl]
    simp

/-- The bit loop is linear over exclusive-or. -/
theorem crcBits_xor (n : Nat) (c d : BitVec 16) : crcBits n (c ^^^ d) = crcBits n c ^^^ crcBits n d := by
  induction n generalizing c d with
  | zero => rfl
  | succ n ih => simp only [crcBits, crcBit_xor, ih]

/-- A step of the bit loop undone: bit 15 of the result tells whether the polynomial was applied. -/
def crcUnbit (c : BitVec 16) : BitVec 16 := if c.getLsbD 15 then (c ^^^ 0x8408) <<< 1 ||| 1 else c <<< 1

theorem crcUnbit_crcBit (c : BitVec 16) : crcUnbit (crcBit c) = c := by
  have h15 : (crcBit c).getLsbD 15 = c.getLsbD 0 := by
    unfold crcBit
    cases h : c.getLsbD 0 <;> simp
  unfold crcUnbit
  rw [h15]
  unfold crcBit
  cases h : c.getLsbD 0
  · apply BitVec.eq_of_getLsbD_eq
    intro i hi
    rcases i with _ | i <;> simp_all [Nat.add_comm]
  · apply BitVec.eq_of_getLsbD_eq
    intro i hi
    rcases i with _ | i <;> simp_all [Nat.add_comm]

/-- Different accumulators stay different through the bit loop. -/
theorem crcBits_injective (n : Nat) {c d : BitVec 16} (h : crcBits n c = crcBits n d) : c = d := by
  induction n generalizing c d with
  | zero => exact h
  | succ n ih => rw [← crcUnbit_crcBit c, ← crcUnbit_crcBit d, ih h]

end Sys2Proof.Machine
end

