-- ==== Sys2Proof/Laws/Memory.lean ====
section
/-! SUPPORT. Reading and writing byte spaces: read after write, the canonical form, and bounds. -/

namespace Sys2Proof.Machine

/-! ### Lookup -/

@[simp] theorem Memory.get?_nil (i : Nat) : Memory.get? [] i = none := rfl

theorem Memory.get?_cons (c : Host.Cell) (m : Memory) (i : Nat) :
    Memory.get? (c :: m) i = if c.1 = i then some c.2 else m.get? i := rfl

theorem Memory.get?_append (m n : Memory) (i : Nat) :
    Memory.get? (m ++ n) i = (m.get? i).or (n.get? i) := by
  induction m with
  | nil => simp
  | cons c m ih => rw [List.cons_append, get?_cons, get?_cons, ih]; split <;> simp

/-- Lookup in the cells of an address range that keeps or drops the address. -/
theorem Memory.get?_filter (p : Nat → Bool) (m : Memory) (i : Nat) :
    Memory.get? (m.filter fun c => p c.1) i = if p i then m.get? i else none := by
  induction m with
  | nil => simp
  | cons c m ih =>
    by_cases hc : p c.1 <;> by_cases hi : c.1 = i <;> simp_all [get?_cons]

theorem Memory.get?_cells (bs : Bytes) (i j : Nat) :
    (Memory.cells i bs).get? j = if i ≤ j then bs[j - i]? else none := by
  induction bs generalizing i with
  | nil => simp [cells]
  | cons b bs ih =>
    rw [cells, get?_cons, ih]
    rcases Nat.lt_trichotomy i j with h | h | h
    · have : j - i = (j - (i + 1)) + 1 := by omega
      simp [Nat.ne_of_lt h, Nat.succ_le_of_lt h, Nat.le_of_lt h, this]
    · simp [h]
    · have h1 : ¬ i ≤ j := by omega
      have h2 : ¬ i + 1 ≤ j := by omega
      simp [h1, h2, Nat.ne_of_gt h]

/-- Read after write: a byte inside the written range reads as written, every other byte as before. -/
theorem Memory.get?_write (m : Memory) (i : Nat) (bs : Bytes) (j : Nat) :
    (m.write i bs).get? j = if i ≤ j ∧ j < i + bs.length then bs[j - i]? else m.get? j := by
  have h1 := get?_filter (fun a => decide (a < i)) m j
  have h2 := get?_filter (fun a => decide (i + bs.length ≤ a)) m j
  simp only [decide_eq_true_eq] at h1 h2
  rw [write, get?_append, get?_append, get?_cells, h1, h2]
  rcases Nat.lt_or_ge j i with h | h
  · have : ¬ i ≤ j := by omega
    have h' : ¬ i + bs.length ≤ j := by omega
    simp [h, this, h']
  · rcases Nat.lt_or_ge j (i + bs.length) with h' | h'
    · have : ¬ j < i := by omega
      have h'' : j - i < bs.length := by omega
      have h3 : ¬ i + bs.length ≤ j := by omega
      simp [this, h, h', h'']
    · have : ¬ j < i := by omega
      have h'' : bs.length ≤ j - i := by omega
      have h3 : ¬ j < i + bs.length := by omega
      simp [this, h, h', h'', h3]

/-! ### The canonical form -/

@[simp] theorem Memory.wf_nil : Memory.wf [] := List.Pairwise.nil

theorem Memory.cells_addr (bs : Bytes) (i : Nat) (c : Host.Cell) (h : c ∈ Memory.cells i bs) :
    i ≤ c.1 ∧ c.1 < i + bs.length := by
  induction bs generalizing i with
  | nil => simp [cells] at h
  | cons b bs ih =>
    rcases List.mem_cons.1 (by simpa [cells] using h) with rfl | h
    · simp
    · have := ih (i + 1) h
      simp only [List.length_cons]; omega

theorem Memory.cells_wf (bs : Bytes) (i : Nat) : (Memory.cells i bs).wf := by
  induction bs generalizing i with
  | nil => exact .nil
  | cons b bs ih =>
    refine .cons (fun c hc => ?_) (ih (i + 1))
    have := cells_addr bs (i + 1) c hc
    simp only; omega

/-- Writing keeps the canonical form. -/
theorem Memory.write_wf (m : Memory) (i : Nat) (bs : Bytes) (h : m.wf) : (m.write i bs).wf := by
  have hf : ∀ p : Host.Cell → Bool, Memory.wf (m.filter p) := fun p => h.filter p
  refine List.pairwise_append.2 ⟨List.pairwise_append.2 ⟨hf _, cells_wf bs i, ?_⟩, hf _, ?_⟩
  · intro a ha c hc
    have h1 := of_decide_eq_true (List.mem_filter.1 ha).2
    have h2 := cells_addr bs i c hc
    omega
  · intro a ha c hc
    have h1 := of_decide_eq_true (List.mem_filter.1 hc).2
    rcases List.mem_append.1 ha with ha | ha
    · have h2 := of_decide_eq_true (List.mem_filter.1 ha).2
      omega
    · have h2 := cells_addr bs i a ha
      omega

/-- Writing inside a space of `n` bytes keeps every listed byte inside it. -/
theorem Memory.write_inBounds (n : Nat) (m : Memory) (i : Nat) (bs : Bytes) (h : m.inBounds n) (hi : i + bs.length ≤ n) :
    (m.write i bs).inBounds n := by
  intro c hc
  rcases List.mem_append.1 hc with hc | hc
  · rcases List.mem_append.1 hc with hc | hc
    · exact h c (List.mem_filter.1 hc).1
    · have := cells_addr bs i c hc; omega
  · exact h c (List.mem_filter.1 hc).1

/-! ### The three spaces of a half -/

@[simp] theorem Spaces.get_set_self (m : Spaces) (sp : Space) (x : Memory) : (m.set sp x).get sp = x := by
  cases sp <;> rfl

theorem Spaces.get_set (m : Spaces) (sp sp' : Space) (x : Memory) :
    (m.set sp x).get sp' = if sp' = sp then x else m.get sp' := by
  cases sp <;> cases sp' <;> rfl

/-- Read after write, over the three spaces. -/
theorem Spaces.get?_memWrite (m : Spaces) (sp : Space) (i : Nat) (bs : Bytes) (sp' : Space) (j : Nat) :
    ((m.memWrite sp i bs).get sp').get? j =
      if sp' = sp ∧ i ≤ j ∧ j < i + bs.length then bs[j - i]? else (m.get sp').get? j := by
  rw [memWrite, get_set]
  by_cases h : sp' = sp
  · subst h; simp [Memory.get?_write]
  · simp [h]

theorem Spaces.same_refl (m : Spaces) : m.same m := fun _ _ => rfl

/-- A write changes only the bytes of its range. -/
theorem Spaces.sameBut_memWrite (m : Spaces) (sp : Space) (i : Nat) (bs : Bytes) :
    m.sameBut sp i (i + bs.length) (m.memWrite sp i bs) := by
  intro sp' k h
  rw [get?_memWrite, if_neg h]

theorem Spaces.memWrite_pay (m : Spaces) (i : Nat) (bs : Bytes) :
    m.memWrite .pay i bs = { m with pay := m.pay.write i bs } := rfl
theorem Spaces.memWrite_buf (m : Spaces) (i : Nat) (bs : Bytes) :
    m.memWrite .buf i bs = { m with buf := m.buf.write i bs } := rfl
theorem Spaces.memWrite_key (m : Spaces) (i : Nat) (bs : Bytes) :
    m.memWrite .key i bs = { m with key := m.key.write i bs } := rfl

theorem Spaces.reset_inv : Spaces.reset.Inv := by constructor <;> simp [Spaces.reset, Memory.inBounds]

/-- A write inside its space keeps the spaces in canonical form and in bounds. -/
theorem Spaces.memWrite_inv (m : Spaces) (sp : Space) (i : Nat) (bs : Bytes) (h : m.Inv) (hi : i + bs.length ≤ sp.size) :
    (m.memWrite sp i bs).Inv := by
  cases sp
  · exact { h with pay_wf := Memory.write_wf _ _ _ h.pay_wf, pay_bound := Memory.write_inBounds _ _ _ _ h.pay_bound hi }
  · exact { h with buf_wf := Memory.write_wf _ _ _ h.buf_wf, buf_bound := Memory.write_inBounds _ _ _ _ h.buf_bound hi }
  · exact { h with key_wf := Memory.write_wf _ _ _ h.key_wf, key_bound := Memory.write_inBounds _ _ _ _ h.key_bound hi }

/-! ### Reading ranges -/

@[simp] theorem Spaces.memRead_length (e : Nat) (c : Channel) (m : Spaces) (sp : Space) (i n : Nat) :
    (m.memRead e c sp i n).length = n := by simp [memRead]

theorem Spaces.memRead_getElem? (e : Nat) (c : Channel) (m : Spaces) (sp : Space) (i n k : Nat) :
    (m.memRead e c sp i n)[k]? = if k < n then some (m.readByte e c sp (i + k)) else none := by
  by_cases h : k < n <;> simp [memRead, h]

theorem Spaces.readByte_of_get? {e : Nat} {c : Channel} {m : Spaces} {sp : Space} {i : Nat} {b : Byte}
    (h : (m.get sp).get? i = some b) : m.readByte e c sp i = b := by simp [readByte, h]

/-- The range just written reads as written. -/
theorem Spaces.memRead_memWrite (e : Nat) (c : Channel) (m : Spaces) (sp : Space) (i : Nat) (bs : Bytes) :
    (m.memWrite sp i bs).memRead e c sp i bs.length = bs := by
  apply List.ext_getElem?
  intro k
  rw [memRead_getElem?]
  by_cases h : k < bs.length
  · rw [if_pos h, List.getElem?_eq_getElem h]
    exact congrArg some (readByte_of_get? (by rw [get?_memWrite]; simp [h]))
  · rw [if_neg h, List.getElem?_eq_none (by omega)]

/-- A prefix of the range just written reads as written. -/
theorem Spaces.memRead_memWrite_take (e : Nat) (c : Channel) (m : Spaces) (sp : Space) (i n : Nat) (bs : Bytes)
    (h : n ≤ bs.length) : (m.memWrite sp i bs).memRead e c sp i n = bs.take n := by
  apply List.ext_getElem?
  intro k
  rw [memRead_getElem?, List.getElem?_take]
  by_cases hk : k < n
  · have hb : k < bs.length := by omega
    rw [if_pos hk, if_pos hk, List.getElem?_eq_getElem hb]
    exact congrArg some (readByte_of_get? (by rw [get?_memWrite]; simp [hb]))
  · rw [if_neg hk, if_neg hk]

/-- A range of another space reads as before. -/
theorem Spaces.memRead_memWrite_other (e : Nat) (c : Channel) (m : Spaces) (sp sp' : Space) (i j n : Nat) (bs : Bytes)
    (h : sp' ≠ sp) : (m.memWrite sp i bs).memRead e c sp' j n = m.memRead e c sp' j n := by
  simp [memRead, readByte, memWrite, get_set, h]

/-- Every byte of the range written from 0 on was written. -/
theorem Memory.writtenTo_write (m : Memory) (bs : Bytes) (n : Nat) (h : n ≤ bs.length) : (m.write 0 bs).writtenTo n := by
  intro i hi
  have : i < bs.length := by omega
  rw [get?_write]; simp [this]

end Sys2Proof.Machine
end

