-- ==== Sys2Proof/Laws/Frame.lean ====
section
/-! SUPPORT. Frames as built and as decoded: their lengths, and when decoding succeeds. -/

namespace Sys2Proof.Machine

/-! ### Lengths of what the encoders build (41_encode.md R149) -/

@[simp] theorem headerV1_length (len seq sys comp : Byte) (msgid : BitVec 24) :
    (headerV1 len seq sys comp msgid).length = 6 := rfl

@[simp] theorem headerV2_length (len incompat compat seq sys comp : Byte) (msgid : BitVec 24) :
    (headerV2 len incompat compat seq sys comp msgid).length = 10 := rfl

@[simp] theorem sigTail_length (linkid : Byte) (ts : BitVec 48) : (sigTail linkid ts).length = 7 := rfl

theorem buildV1_length (seq sys comp : Byte) (msgid : BitVec 24) (seed : Byte) (pay : Bytes) :
    (buildV1 seq sys comp msgid seed pay).bytes.length = 8 + pay.length := by
  simp [buildV1]; omega

theorem buildV2U_length (seq sys comp : Byte) (msgid : BitVec 24) (seed : Byte) (pay : Bytes) :
    (buildV2U seq sys comp msgid seed pay).bytes.length = 12 + pay.length := by
  simp [buildV2U]; omega

theorem buildV2S_length (seq sys comp : Byte) (msgid : BitVec 24) (seed linkid : Byte) (ts : BitVec 48) (key pay : Bytes) :
    (buildV2S seq sys comp msgid seed linkid ts key pay).bytes.length = 25 + pay.length := by
  simp [buildV2S, signedBytes]; omega

/-! ### Payloads -/

@[simp] theorem TxHalf.payload_length (e : Nat) (t : TxHalf) : (t.payload e).length = t.plen.toNat := by
  simp [TxHalf.payload]

@[simp] theorem RxHalf.payload_length (e : Nat) (r : RxHalf) : (r.payload e).length = r.len.toNat := by
  simp [RxHalf.payload]

@[simp] theorem RxHalf.window_length (e : Nat) (r : RxHalf) : (r.window e).length = r.rxlen.toNat := by
  simp [RxHalf.window]

@[simp] theorem TxHalf.txFrame_length (e : Nat) (t : TxHalf) : (t.txFrame e).length = t.txlen.toNat := by
  simp [TxHalf.txFrame]

theorem truncLen_le (pay : Bytes) (m : Nat) : truncLen pay m ≤ m := by
  induction m with
  | zero => simp [truncLen]
  | succ m ih => rw [truncLen]; split <;> omega

theorem trunc_length (pay : Bytes) : (trunc pay).length = truncLen pay pay.length := by
  have := truncLen_le pay pay.length
  simp [trunc]; omega

theorem TxHalf.wirePayload_length_le (e : Nat) (t : TxHalf) : (t.wirePayload e).length ≤ t.plen.toNat := by
  unfold TxHalf.wirePayload
  split
  · have := truncLen_le (t.payload e) (t.payload e).length
    rw [trunc_length]; simpa using this
  · simp

/-- A payload of at most 255 bytes has its length in the length byte. -/
theorem lenByte_toNat (s : Bytes) (h : s.length ≤ 255) : (lenByte s).toNat = s.length := by
  simp [lenByte]; omega

theorem byte_toNat_le (b : Byte) : b.toNat ≤ 255 := by have := b.isLt; omega

theorem sigLen_le (b : Byte) : sigLen b ≤ 13 := by unfold sigLen; split <;> omega

theorem sigLen_eq (b : Byte) : sigLen b = 13 * (b.getLsbD 0).toNat := by
  unfold sigLen signedBit; cases b.getLsbD 0 <;> rfl

/-! ### Decoding (42_decode_validate.md R155) -/

/-- `DecodeV1` succeeds exactly on bytes enough for the length they declare. -/
theorem decodeV1_isSome (f : Bytes) :
    (decodeV1 f).isSome = (decide (2 ≤ f.length) && decide (frameLenV1 (byteAt f 1) ≤ f.length)) := by
  unfold decodeV1
  by_cases h2 : f.length < 2
  · simp [h2, Nat.not_le.2 h2]
  · by_cases hn : f.length < frameLenV1 (byteAt f 1)
    · simp [h2, hn, Nat.not_le.2 hn]
    · simp [h2, hn, Nat.le_of_not_lt h2, Nat.le_of_not_lt hn]

/-- `DecodeV2` succeeds exactly on bytes enough for the length and the signed bit they declare. -/
theorem decodeV2_isSome (f : Bytes) :
    (decodeV2 f).isSome =
      (decide (3 ≤ f.length) && decide (frameLenV2 (byteAt f 1) (byteAt f 2) ≤ f.length)) := by
  unfold decodeV2
  by_cases h2 : f.length < 3
  · simp [h2, Nat.not_le.2 h2]
  · by_cases hn : f.length < frameLenV2 (byteAt f 1) (byteAt f 2)
    · simp [h2, hn, Nat.not_le.2 hn]
    · simp [h2, hn, Nat.le_of_not_lt h2, Nat.le_of_not_lt hn]

/-- `DecodeV1` on enough bytes, and the size it reports. -/
theorem decodeV1_some {f : Bytes} (h2 : 2 ≤ f.length) (hn : frameLenV1 (byteAt f 1) ≤ f.length) :
    ∃ r, decodeV1 f = some r ∧ r.size = frameLenV1 (byteAt f 1) := by
  unfold decodeV1
  simp only [Nat.not_lt.2 h2, Nat.not_lt.2 hn, if_false]
  exact ⟨_, rfl, rfl⟩

/-- `DecodeV2` on enough bytes, and the size it reports. -/
theorem decodeV2_some {f : Bytes} (h3 : 3 ≤ f.length) (hn : frameLenV2 (byteAt f 1) (byteAt f 2) ≤ f.length) :
    ∃ r, decodeV2 f = some r ∧ r.size = frameLenV2 (byteAt f 1) (byteAt f 2) := by
  unfold decodeV2
  simp only [Nat.not_lt.2 h3, Nat.not_lt.2 hn, if_false]
  refine ⟨_, rfl, ?_⟩
  split <;> rfl

/-- A stand-alone decode of a buffer that holds a frame. -/
theorem RxHalf.decodeWindow_some {v : Ver} {e : Nat} {r : RxHalf} {f : Frame} (h : decodeFrame v (r.window e) = some f) :
    r.decodeWindow v e = (r.clearFrame.storeFrame f).reply (BitVec.ofNat 48 f.size) := by
  simp only [RxHalf.decodeWindow, h]

/-- A stand-alone decode of a buffer that is too short. -/
theorem RxHalf.decodeWindow_none {v : Ver} {e : Nat} {r : RxHalf} (h : decodeFrame v (r.window e) = none) :
    r.decodeWindow v e = r.clearFrame.raise .format 0 := by
  simp only [RxHalf.decodeWindow, h]

/-- What holds of every decoded frame: its version, that the payload is as long as the length byte says, and which fields are
zero (10_state.md R30). -/
structure Frame.Ok (r : Frame) : Prop where
  payload_length : r.payload.length = r.len.toNat
  v1_fields : r.ver = .v1 → r.incompat = 0 ∧ r.compat = 0 ∧ r.msgid.toNat < 256 ∧ r.signed = false
  unsigned_fields : r.signed = false → r.linkid = 0 ∧ r.ts = 0 ∧ r.hash = []

theorem decodeV1_ok {f : Bytes} {r : Frame} (h : decodeV1 f = some r) : r.Ok ∧ r.ver = .v1 := by
  unfold decodeV1 at h
  split at h
  · cases h
  · dsimp only at h
    split at h
    · cases h
    · rename_i _ hn
      cases h
      refine ⟨⟨?_, ?_, fun _ => ⟨rfl, rfl, rfl⟩⟩, rfl⟩
      · simp only [frameLenV1] at hn
        rw [slice_length]
        · simp
        · omega
      · have := (byteAt f 5).isLt
        intro _
        refine ⟨rfl, rfl, ?_, rfl⟩
        simp [BitVec.toNat_setWidth]; omega

theorem decodeV2_ok {f : Bytes} {r : Frame} (h : decodeV2 f = some r) : r.Ok ∧ r.ver = .v2 := by
  unfold decodeV2 at h
  split at h
  · cases h
  · dsimp only at h
    split at h
    · cases h
    · rename_i _ hn
      have hp : (slice f 10 (10 + (byteAt f 1).toNat)).length = (byteAt f 1).toNat := by
        simp only [frameLenV2] at hn
        rw [slice_length]
        · simp
        · omega
      split at h
      · rename_i hs
        cases h
        exact ⟨⟨hp, fun h => by simp [withSignature] at h, fun h => by simp [withSignature, hs] at h⟩, rfl⟩
      · cases h
        exact ⟨⟨hp, fun h => by simp at h, fun _ => ⟨rfl, rfl, rfl⟩⟩, rfl⟩

/-- Every decoded frame has its decoder's version and is as R30 says. -/
theorem decodeFrame_ok {v : Ver} {f : Bytes} {r : Frame} (h : decodeFrame v f = some r) : r.Ok ∧ r.ver = v := by
  cases v
  · exact decodeV1_ok h
  · exact decodeV2_ok h

theorem zeroExtend_length (pay : Bytes) (h : pay.length ≤ 255) : (zeroExtend pay).length = 255 := by
  simp [zeroExtend, Config.maxPayload]; omega

/-- Byte `k` of a zero-extended payload. -/
theorem zeroExtend_getElem? (pay : Bytes) (k : Nat) (hk : k < 255) :
    (zeroExtend pay)[k]? = some (if k < pay.length then byteAt pay k else 0) := by
  unfold zeroExtend byteAt
  rcases Nat.lt_or_ge k pay.length with h | h
  · simp [List.getElem?_append_left h, h]
  · have h1 : ¬ k < pay.length := by omega
    have h2 : k - pay.length < Config.maxPayload - pay.length := by simp only [Config.maxPayload]; omega
    simp [List.getElem?_append_right h, h1, h2]

end Sys2Proof.Machine
end

