-- ==== Sys2Proof/Laws/State.lean ====
section
/-! SUPPORT. One lemma per field for every named update of a half and of the machine: what the update leaves and what it sets. -/

namespace Sys2Proof.Machine

/-! ### `answer` -/

@[simp] theorem TxHalf.answer_seq (t : TxHalf) (x : Response) : (t.answer x).seq = t.seq := rfl
@[simp] theorem TxHalf.answer_sys (t : TxHalf) (x : Response) : (t.answer x).sys = t.sys := rfl
@[simp] theorem TxHalf.answer_comp (t : TxHalf) (x : Response) : (t.answer x).comp = t.comp := rfl
@[simp] theorem TxHalf.answer_msgid (t : TxHalf) (x : Response) : (t.answer x).msgid = t.msgid := rfl
@[simp] theorem TxHalf.answer_seed (t : TxHalf) (x : Response) : (t.answer x).seed = t.seed := rfl
@[simp] theorem TxHalf.answer_plen (t : TxHalf) (x : Response) : (t.answer x).plen = t.plen := rfl
@[simp] theorem TxHalf.answer_linkid (t : TxHalf) (x : Response) : (t.answer x).linkid = t.linkid := rfl
@[simp] theorem TxHalf.answer_ts (t : TxHalf) (x : Response) : (t.answer x).ts = t.ts := rfl
@[simp] theorem TxHalf.answer_truncEn (t : TxHalf) (x : Response) : (t.answer x).truncEn = t.truncEn := rfl
@[simp] theorem TxHalf.answer_txvalid (t : TxHalf) (x : Response) : (t.answer x).txvalid = t.txvalid := rfl
@[simp] theorem TxHalf.answer_crcacc (t : TxHalf) (x : Response) : (t.answer x).crcacc = t.crcacc := rfl
@[simp] theorem TxHalf.answer_txlen (t : TxHalf) (x : Response) : (t.answer x).txlen = t.txlen := rfl
@[simp] theorem TxHalf.answer_out (t : TxHalf) (x : Response) : (t.answer x).out = t.out := rfl
@[simp] theorem TxHalf.answer_mem (t : TxHalf) (x : Response) : (t.answer x).mem = t.mem := rfl
@[simp] theorem TxHalf.answer_sending (t : TxHalf) (x : Response) : (t.answer x).sending = t.sending := rfl
@[simp] theorem TxHalf.answer_sink (t : TxHalf) (x : Response) : (t.answer x).sink = t.sink := rfl
@[simp] theorem TxHalf.answer_queue (t : TxHalf) (x : Response) : (t.answer x).queue = t.queue := rfl
@[simp] theorem TxHalf.answer_responses (t : TxHalf) (x : Response) : (t.answer x).responses = t.responses ++ [x] := rfl

/-! ### `answer` -/

@[simp] theorem RxHalf.answer_ver (r : RxHalf) (x : Response) : (r.answer x).ver = r.ver := rfl
@[simp] theorem RxHalf.answer_len (r : RxHalf) (x : Response) : (r.answer x).len = r.len := rfl
@[simp] theorem RxHalf.answer_incompat (r : RxHalf) (x : Response) : (r.answer x).incompat = r.incompat := rfl
@[simp] theorem RxHalf.answer_compat (r : RxHalf) (x : Response) : (r.answer x).compat = r.compat := rfl
@[simp] theorem RxHalf.answer_seq (r : RxHalf) (x : Response) : (r.answer x).seq = r.seq := rfl
@[simp] theorem RxHalf.answer_sys (r : RxHalf) (x : Response) : (r.answer x).sys = r.sys := rfl
@[simp] theorem RxHalf.answer_comp (r : RxHalf) (x : Response) : (r.answer x).comp = r.comp := rfl
@[simp] theorem RxHalf.answer_msgid (r : RxHalf) (x : Response) : (r.answer x).msgid = r.msgid := rfl
@[simp] theorem RxHalf.answer_cksum (r : RxHalf) (x : Response) : (r.answer x).cksum = r.cksum := rfl
@[simp] theorem RxHalf.answer_linkid (r : RxHalf) (x : Response) : (r.answer x).linkid = r.linkid := rfl
@[simp] theorem RxHalf.answer_ts (r : RxHalf) (x : Response) : (r.answer x).ts = r.ts := rfl
@[simp] theorem RxHalf.answer_hash (r : RxHalf) (x : Response) : (r.answer x).hash = r.hash := rfl
@[simp] theorem RxHalf.answer_frame (r : RxHalf) (x : Response) : (r.answer x).frame = r.frame := rfl
@[simp] theorem RxHalf.answer_crcOk (r : RxHalf) (x : Response) : (r.answer x).crcOk = r.crcOk := rfl
@[simp] theorem RxHalf.answer_sigOk (r : RxHalf) (x : Response) : (r.answer x).sigOk = r.sigOk := rfl
@[simp] theorem RxHalf.answer_eos (r : RxHalf) (x : Response) : (r.answer x).eos = r.eos := rfl
@[simp] theorem RxHalf.answer_signed (r : RxHalf) (x : Response) : (r.answer x).signed = r.signed := rfl
@[simp] theorem RxHalf.answer_crcacc (r : RxHalf) (x : Response) : (r.answer x).crcacc = r.crcacc := rfl
@[simp] theorem RxHalf.answer_rxlen (r : RxHalf) (x : Response) : (r.answer x).rxlen = r.rxlen := rfl
@[simp] theorem RxHalf.answer_stream (r : RxHalf) (x : Response) : (r.answer x).stream = r.stream := rfl
@[simp] theorem RxHalf.answer_tent (r : RxHalf) (x : Response) : (r.answer x).tent = r.tent := rfl
@[simp] theorem RxHalf.answer_closed (r : RxHalf) (x : Response) : (r.answer x).closed = r.closed := rfl
@[simp] theorem RxHalf.answer_mem (r : RxHalf) (x : Response) : (r.answer x).mem = r.mem := rfl
@[simp] theorem RxHalf.answer_held (r : RxHalf) (x : Response) : (r.answer x).held = r.held := rfl
@[simp] theorem RxHalf.answer_queue (r : RxHalf) (x : Response) : (r.answer x).queue = r.queue := rfl
@[simp] theorem RxHalf.answer_responses (r : RxHalf) (x : Response) : (r.answer x).responses = r.responses ++ [x] := rfl

/-! ### `reply` and `raise` are `answer` -/

@[simp] theorem TxHalf.reply_eq (t : TxHalf) (d : BitVec 48) : t.reply d = t.answer ⟨.ok, d⟩ := rfl
@[simp] theorem RxHalf.reply_eq (r : RxHalf) (d : BitVec 48) : r.reply d = r.answer ⟨.ok, d⟩ := rfl
@[simp] theorem TxHalf.raise_eq (t : TxHalf) (st : Status) (d : BitVec 48) : t.raise st d = t.answer ⟨st, d⟩ := rfl
@[simp] theorem RxHalf.raise_eq (r : RxHalf) (st : Status) (d : BitVec 48) : r.raise st d = r.answer ⟨st, d⟩ := rfl
@[simp] theorem TxHalf.illegal_eq (e : Nat) (t : TxHalf) : TxHalf.illegal e t = t.answer ⟨.illegal, 0⟩ := rfl
@[simp] theorem RxHalf.illegal_eq (e : Nat) (r : RxHalf) : RxHalf.illegal e r = r.answer ⟨.illegal, 0⟩ := rfl

/-! ### `clearFrame` (10_state.md R31) -/

@[simp] theorem RxHalf.clearFrame_ver (r : RxHalf) : (r.clearFrame).ver = r.ver := rfl
@[simp] theorem RxHalf.clearFrame_len (r : RxHalf) : (r.clearFrame).len = r.len := rfl
@[simp] theorem RxHalf.clearFrame_incompat (r : RxHalf) : (r.clearFrame).incompat = r.incompat := rfl
@[simp] theorem RxHalf.clearFrame_compat (r : RxHalf) : (r.clearFrame).compat = r.compat := rfl
@[simp] theorem RxHalf.clearFrame_seq (r : RxHalf) : (r.clearFrame).seq = r.seq := rfl
@[simp] theorem RxHalf.clearFrame_sys (r : RxHalf) : (r.clearFrame).sys = r.sys := rfl
@[simp] theorem RxHalf.clearFrame_comp (r : RxHalf) : (r.clearFrame).comp = r.comp := rfl
@[simp] theorem RxHalf.clearFrame_msgid (r : RxHalf) : (r.clearFrame).msgid = r.msgid := rfl
@[simp] theorem RxHalf.clearFrame_cksum (r : RxHalf) : (r.clearFrame).cksum = r.cksum := rfl
@[simp] theorem RxHalf.clearFrame_linkid (r : RxHalf) : (r.clearFrame).linkid = r.linkid := rfl
@[simp] theorem RxHalf.clearFrame_ts (r : RxHalf) : (r.clearFrame).ts = r.ts := rfl
@[simp] theorem RxHalf.clearFrame_hash (r : RxHalf) : (r.clearFrame).hash = r.hash := rfl
@[simp] theorem RxHalf.clearFrame_frame (r : RxHalf) : (r.clearFrame).frame = false := rfl
@[simp] theorem RxHalf.clearFrame_crcOk (r : RxHalf) : (r.clearFrame).crcOk = false := rfl
@[simp] theorem RxHalf.clearFrame_sigOk (r : RxHalf) : (r.clearFrame).sigOk = false := rfl
@[simp] theorem RxHalf.clearFrame_eos (r : RxHalf) : (r.clearFrame).eos = r.eos := rfl
@[simp] theorem RxHalf.clearFrame_signed (r : RxHalf) : (r.clearFrame).signed = false := rfl
@[simp] theorem RxHalf.clearFrame_crcacc (r : RxHalf) : (r.clearFrame).crcacc = r.crcacc := rfl
@[simp] theorem RxHalf.clearFrame_rxlen (r : RxHalf) : (r.clearFrame).rxlen = r.rxlen := rfl
@[simp] theorem RxHalf.clearFrame_stream (r : RxHalf) : (r.clearFrame).stream = r.stream := rfl
@[simp] theorem RxHalf.clearFrame_tent (r : RxHalf) : (r.clearFrame).tent = r.tent := rfl
@[simp] theorem RxHalf.clearFrame_closed (r : RxHalf) : (r.clearFrame).closed = r.closed := rfl
@[simp] theorem RxHalf.clearFrame_mem (r : RxHalf) : (r.clearFrame).mem = r.mem := rfl
@[simp] theorem RxHalf.clearFrame_held (r : RxHalf) : (r.clearFrame).held = r.held := rfl
@[simp] theorem RxHalf.clearFrame_queue (r : RxHalf) : (r.clearFrame).queue = r.queue := rfl
@[simp] theorem RxHalf.clearFrame_responses (r : RxHalf) : (r.clearFrame).responses = r.responses := rfl

/-! ### `setCrcOk` -/

@[simp] theorem RxHalf.setCrcOk_ver (r : RxHalf) (b : Bool) : (r.setCrcOk b).ver = r.ver := rfl
@[simp] theorem RxHalf.setCrcOk_len (r : RxHalf) (b : Bool) : (r.setCrcOk b).len = r.len := rfl
@[simp] theorem RxHalf.setCrcOk_incompat (r : RxHalf) (b : Bool) : (r.setCrcOk b).incompat = r.incompat := rfl
@[simp] theorem RxHalf.setCrcOk_compat (r : RxHalf) (b : Bool) : (r.setCrcOk b).compat = r.compat := rfl
@[simp] theorem RxHalf.setCrcOk_seq (r : RxHalf) (b : Bool) : (r.setCrcOk b).seq = r.seq := rfl
@[simp] theorem RxHalf.setCrcOk_sys (r : RxHalf) (b : Bool) : (r.setCrcOk b).sys = r.sys := rfl
@[simp] theorem RxHalf.setCrcOk_comp (r : RxHalf) (b : Bool) : (r.setCrcOk b).comp = r.comp := rfl
@[simp] theorem RxHalf.setCrcOk_msgid (r : RxHalf) (b : Bool) : (r.setCrcOk b).msgid = r.msgid := rfl
@[simp] theorem RxHalf.setCrcOk_cksum (r : RxHalf) (b : Bool) : (r.setCrcOk b).cksum = r.cksum := rfl
@[simp] theorem RxHalf.setCrcOk_linkid (r : RxHalf) (b : Bool) : (r.setCrcOk b).linkid = r.linkid := rfl
@[simp] theorem RxHalf.setCrcOk_ts (r : RxHalf) (b : Bool) : (r.setCrcOk b).ts = r.ts := rfl
@[simp] theorem RxHalf.setCrcOk_hash (r : RxHalf) (b : Bool) : (r.setCrcOk b).hash = r.hash := rfl
@[simp] theorem RxHalf.setCrcOk_frame (r : RxHalf) (b : Bool) : (r.setCrcOk b).frame = r.frame := rfl
@[simp] theorem RxHalf.setCrcOk_crcOk (r : RxHalf) (b : Bool) : (r.setCrcOk b).crcOk = b := rfl
@[simp] theorem RxHalf.setCrcOk_sigOk (r : RxHalf) (b : Bool) : (r.setCrcOk b).sigOk = r.sigOk := rfl
@[simp] theorem RxHalf.setCrcOk_eos (r : RxHalf) (b : Bool) : (r.setCrcOk b).eos = r.eos := rfl
@[simp] theorem RxHalf.setCrcOk_signed (r : RxHalf) (b : Bool) : (r.setCrcOk b).signed = r.signed := rfl
@[simp] theorem RxHalf.setCrcOk_crcacc (r : RxHalf) (b : Bool) : (r.setCrcOk b).crcacc = r.crcacc := rfl
@[simp] theorem RxHalf.setCrcOk_rxlen (r : RxHalf) (b : Bool) : (r.setCrcOk b).rxlen = r.rxlen := rfl
@[simp] theorem RxHalf.setCrcOk_stream (r : RxHalf) (b : Bool) : (r.setCrcOk b).stream = r.stream := rfl
@[simp] theorem RxHalf.setCrcOk_tent (r : RxHalf) (b : Bool) : (r.setCrcOk b).tent = r.tent := rfl
@[simp] theorem RxHalf.setCrcOk_closed (r : RxHalf) (b : Bool) : (r.setCrcOk b).closed = r.closed := rfl
@[simp] theorem RxHalf.setCrcOk_mem (r : RxHalf) (b : Bool) : (r.setCrcOk b).mem = r.mem := rfl
@[simp] theorem RxHalf.setCrcOk_held (r : RxHalf) (b : Bool) : (r.setCrcOk b).held = r.held := rfl
@[simp] theorem RxHalf.setCrcOk_queue (r : RxHalf) (b : Bool) : (r.setCrcOk b).queue = r.queue := rfl
@[simp] theorem RxHalf.setCrcOk_responses (r : RxHalf) (b : Bool) : (r.setCrcOk b).responses = r.responses := rfl

/-! ### `setSigOk` -/

@[simp] theorem RxHalf.setSigOk_ver (r : RxHalf) (b : Bool) : (r.setSigOk b).ver = r.ver := rfl
@[simp] theorem RxHalf.setSigOk_len (r : RxHalf) (b : Bool) : (r.setSigOk b).len = r.len := rfl
@[simp] theorem RxHalf.setSigOk_incompat (r : RxHalf) (b : Bool) : (r.setSigOk b).incompat = r.incompat := rfl
@[simp] theorem RxHalf.setSigOk_compat (r : RxHalf) (b : Bool) : (r.setSigOk b).compat = r.compat := rfl
@[simp] theorem RxHalf.setSigOk_seq (r : RxHalf) (b : Bool) : (r.setSigOk b).seq = r.seq := rfl
@[simp] theorem RxHalf.setSigOk_sys (r : RxHalf) (b : Bool) : (r.setSigOk b).sys = r.sys := rfl
@[simp] theorem RxHalf.setSigOk_comp (r : RxHalf) (b : Bool) : (r.setSigOk b).comp = r.comp := rfl
@[simp] theorem RxHalf.setSigOk_msgid (r : RxHalf) (b : Bool) : (r.setSigOk b).msgid = r.msgid := rfl
@[simp] theorem RxHalf.setSigOk_cksum (r : RxHalf) (b : Bool) : (r.setSigOk b).cksum = r.cksum := rfl
@[simp] theorem RxHalf.setSigOk_linkid (r : RxHalf) (b : Bool) : (r.setSigOk b).linkid = r.linkid := rfl
@[simp] theorem RxHalf.setSigOk_ts (r : RxHalf) (b : Bool) : (r.setSigOk b).ts = r.ts := rfl
@[simp] theorem RxHalf.setSigOk_hash (r : RxHalf) (b : Bool) : (r.setSigOk b).hash = r.hash := rfl
@[simp] theorem RxHalf.setSigOk_frame (r : RxHalf) (b : Bool) : (r.setSigOk b).frame = r.frame := rfl
@[simp] theorem RxHalf.setSigOk_crcOk (r : RxHalf) (b : Bool) : (r.setSigOk b).crcOk = r.crcOk := rfl
@[simp] theorem RxHalf.setSigOk_sigOk (r : RxHalf) (b : Bool) : (r.setSigOk b).sigOk = b := rfl
@[simp] theorem RxHalf.setSigOk_eos (r : RxHalf) (b : Bool) : (r.setSigOk b).eos = r.eos := rfl
@[simp] theorem RxHalf.setSigOk_signed (r : RxHalf) (b : Bool) : (r.setSigOk b).signed = r.signed := rfl
@[simp] theorem RxHalf.setSigOk_crcacc (r : RxHalf) (b : Bool) : (r.setSigOk b).crcacc = r.crcacc := rfl
@[simp] theorem RxHalf.setSigOk_rxlen (r : RxHalf) (b : Bool) : (r.setSigOk b).rxlen = r.rxlen := rfl
@[simp] theorem RxHalf.setSigOk_stream (r : RxHalf) (b : Bool) : (r.setSigOk b).stream = r.stream := rfl
@[simp] theorem RxHalf.setSigOk_tent (r : RxHalf) (b : Bool) : (r.setSigOk b).tent = r.tent := rfl
@[simp] theorem RxHalf.setSigOk_closed (r : RxHalf) (b : Bool) : (r.setSigOk b).closed = r.closed := rfl
@[simp] theorem RxHalf.setSigOk_mem (r : RxHalf) (b : Bool) : (r.setSigOk b).mem = r.mem := rfl
@[simp] theorem RxHalf.setSigOk_held (r : RxHalf) (b : Bool) : (r.setSigOk b).held = r.held := rfl
@[simp] theorem RxHalf.setSigOk_queue (r : RxHalf) (b : Bool) : (r.setSigOk b).queue = r.queue := rfl
@[simp] theorem RxHalf.setSigOk_responses (r : RxHalf) (b : Bool) : (r.setSigOk b).responses = r.responses := rfl

/-! ### `storeFrame` (42_decode_validate.md R158) -/

@[simp] theorem RxHalf.storeFrame_ver (r : RxHalf) (f : Frame) : (r.storeFrame f).ver = f.ver.number := rfl
@[simp] theorem RxHalf.storeFrame_len (r : RxHalf) (f : Frame) : (r.storeFrame f).len = f.len := rfl
@[simp] theorem RxHalf.storeFrame_incompat (r : RxHalf) (f : Frame) : (r.storeFrame f).incompat = f.incompat := rfl
@[simp] theorem RxHalf.storeFrame_compat (r : RxHalf) (f : Frame) : (r.storeFrame f).compat = f.compat := rfl
@[simp] theorem RxHalf.storeFrame_seq (r : RxHalf) (f : Frame) : (r.storeFrame f).seq = f.seq := rfl
@[simp] theorem RxHalf.storeFrame_sys (r : RxHalf) (f : Frame) : (r.storeFrame f).sys = f.sys := rfl
@[simp] theorem RxHalf.storeFrame_comp (r : RxHalf) (f : Frame) : (r.storeFrame f).comp = f.comp := rfl
@[simp] theorem RxHalf.storeFrame_msgid (r : RxHalf) (f : Frame) : (r.storeFrame f).msgid = f.msgid := rfl
@[simp] theorem RxHalf.storeFrame_cksum (r : RxHalf) (f : Frame) : (r.storeFrame f).cksum = f.cksum := rfl
@[simp] theorem RxHalf.storeFrame_linkid (r : RxHalf) (f : Frame) : (r.storeFrame f).linkid = f.linkid := rfl
@[simp] theorem RxHalf.storeFrame_ts (r : RxHalf) (f : Frame) : (r.storeFrame f).ts = f.ts := rfl
@[simp] theorem RxHalf.storeFrame_hash (r : RxHalf) (f : Frame) : (r.storeFrame f).hash = fromLe 48 f.hash := rfl
@[simp] theorem RxHalf.storeFrame_frame (r : RxHalf) (f : Frame) : (r.storeFrame f).frame = true := rfl
@[simp] theorem RxHalf.storeFrame_crcOk (r : RxHalf) (f : Frame) : (r.storeFrame f).crcOk = false := rfl
@[simp] theorem RxHalf.storeFrame_sigOk (r : RxHalf) (f : Frame) : (r.storeFrame f).sigOk = false := rfl
@[simp] theorem RxHalf.storeFrame_eos (r : RxHalf) (f : Frame) : (r.storeFrame f).eos = r.eos := rfl
@[simp] theorem RxHalf.storeFrame_signed (r : RxHalf) (f : Frame) : (r.storeFrame f).signed = f.signed := rfl
@[simp] theorem RxHalf.storeFrame_crcacc (r : RxHalf) (f : Frame) : (r.storeFrame f).crcacc = r.crcacc := rfl
@[simp] theorem RxHalf.storeFrame_rxlen (r : RxHalf) (f : Frame) : (r.storeFrame f).rxlen = r.rxlen := rfl
@[simp] theorem RxHalf.storeFrame_stream (r : RxHalf) (f : Frame) : (r.storeFrame f).stream = r.stream := rfl
@[simp] theorem RxHalf.storeFrame_tent (r : RxHalf) (f : Frame) : (r.storeFrame f).tent = r.tent := rfl
@[simp] theorem RxHalf.storeFrame_closed (r : RxHalf) (f : Frame) : (r.storeFrame f).closed = r.closed := rfl
@[simp] theorem RxHalf.storeFrame_mem (r : RxHalf) (f : Frame) : (r.storeFrame f).mem = r.mem.memWrite .pay 0 (zeroExtend f.payload) := rfl
@[simp] theorem RxHalf.storeFrame_held (r : RxHalf) (f : Frame) : (r.storeFrame f).held = r.held := rfl
@[simp] theorem RxHalf.storeFrame_queue (r : RxHalf) (f : Frame) : (r.storeFrame f).queue = r.queue := rfl
@[simp] theorem RxHalf.storeFrame_responses (r : RxHalf) (f : Frame) : (r.storeFrame f).responses = r.responses := rfl

/-! ### `bufCommit` (44_sync.md R194) -/

@[simp] theorem RxHalf.bufCommit_ver (r : RxHalf) : (r.bufCommit).ver = r.ver := rfl
@[simp] theorem RxHalf.bufCommit_len (r : RxHalf) : (r.bufCommit).len = r.len := rfl
@[simp] theorem RxHalf.bufCommit_incompat (r : RxHalf) : (r.bufCommit).incompat = r.incompat := rfl
@[simp] theorem RxHalf.bufCommit_compat (r : RxHalf) : (r.bufCommit).compat = r.compat := rfl
@[simp] theorem RxHalf.bufCommit_seq (r : RxHalf) : (r.bufCommit).seq = r.seq := rfl
@[simp] theorem RxHalf.bufCommit_sys (r : RxHalf) : (r.bufCommit).sys = r.sys := rfl
@[simp] theorem RxHalf.bufCommit_comp (r : RxHalf) : (r.bufCommit).comp = r.comp := rfl
@[simp] theorem RxHalf.bufCommit_msgid (r : RxHalf) : (r.bufCommit).msgid = r.msgid := rfl
@[simp] theorem RxHalf.bufCommit_cksum (r : RxHalf) : (r.bufCommit).cksum = r.cksum := rfl
@[simp] theorem RxHalf.bufCommit_linkid (r : RxHalf) : (r.bufCommit).linkid = r.linkid := rfl
@[simp] theorem RxHalf.bufCommit_ts (r : RxHalf) : (r.bufCommit).ts = r.ts := rfl
@[simp] theorem RxHalf.bufCommit_hash (r : RxHalf) : (r.bufCommit).hash = r.hash := rfl
@[simp] theorem RxHalf.bufCommit_frame (r : RxHalf) : (r.bufCommit).frame = r.frame := rfl
@[simp] theorem RxHalf.bufCommit_crcOk (r : RxHalf) : (r.bufCommit).crcOk = r.crcOk := rfl
@[simp] theorem RxHalf.bufCommit_sigOk (r : RxHalf) : (r.bufCommit).sigOk = r.sigOk := rfl
@[simp] theorem RxHalf.bufCommit_eos (r : RxHalf) : (r.bufCommit).eos = r.eos := rfl
@[simp] theorem RxHalf.bufCommit_signed (r : RxHalf) : (r.bufCommit).signed = r.signed := rfl
@[simp] theorem RxHalf.bufCommit_crcacc (r : RxHalf) : (r.bufCommit).crcacc = r.crcacc := rfl
@[simp] theorem RxHalf.bufCommit_rxlen (r : RxHalf) : (r.bufCommit).rxlen = r.rxlen := rfl
@[simp] theorem RxHalf.bufCommit_stream (r : RxHalf) : (r.bufCommit).stream = r.stream.drop r.tent := rfl
@[simp] theorem RxHalf.bufCommit_tent (r : RxHalf) : (r.bufCommit).tent = 0 := rfl
@[simp] theorem RxHalf.bufCommit_closed (r : RxHalf) : (r.bufCommit).closed = r.closed := rfl
@[simp] theorem RxHalf.bufCommit_mem (r : RxHalf) : (r.bufCommit).mem = r.mem := rfl
@[simp] theorem RxHalf.bufCommit_held (r : RxHalf) : (r.bufCommit).held = r.held := rfl
@[simp] theorem RxHalf.bufCommit_queue (r : RxHalf) : (r.bufCommit).queue = r.queue := rfl
@[simp] theorem RxHalf.bufCommit_responses (r : RxHalf) : (r.bufCommit).responses = r.responses := rfl

/-! ### `bufRollback` (R195) -/

@[simp] theorem RxHalf.bufRollback_ver (r : RxHalf) : (r.bufRollback).ver = r.ver := rfl
@[simp] theorem RxHalf.bufRollback_len (r : RxHalf) : (r.bufRollback).len = r.len := rfl
@[simp] theorem RxHalf.bufRollback_incompat (r : RxHalf) : (r.bufRollback).incompat = r.incompat := rfl
@[simp] theorem RxHalf.bufRollback_compat (r : RxHalf) : (r.bufRollback).compat = r.compat := rfl
@[simp] theorem RxHalf.bufRollback_seq (r : RxHalf) : (r.bufRollback).seq = r.seq := rfl
@[simp] theorem RxHalf.bufRollback_sys (r : RxHalf) : (r.bufRollback).sys = r.sys := rfl
@[simp] theorem RxHalf.bufRollback_comp (r : RxHalf) : (r.bufRollback).comp = r.comp := rfl
@[simp] theorem RxHalf.bufRollback_msgid (r : RxHalf) : (r.bufRollback).msgid = r.msgid := rfl
@[simp] theorem RxHalf.bufRollback_cksum (r : RxHalf) : (r.bufRollback).cksum = r.cksum := rfl
@[simp] theorem RxHalf.bufRollback_linkid (r : RxHalf) : (r.bufRollback).linkid = r.linkid := rfl
@[simp] theorem RxHalf.bufRollback_ts (r : RxHalf) : (r.bufRollback).ts = r.ts := rfl
@[simp] theorem RxHalf.bufRollback_hash (r : RxHalf) : (r.bufRollback).hash = r.hash := rfl
@[simp] theorem RxHalf.bufRollback_frame (r : RxHalf) : (r.bufRollback).frame = r.frame := rfl
@[simp] theorem RxHalf.bufRollback_crcOk (r : RxHalf) : (r.bufRollback).crcOk = r.crcOk := rfl
@[simp] theorem RxHalf.bufRollback_sigOk (r : RxHalf) : (r.bufRollback).sigOk = r.sigOk := rfl
@[simp] theorem RxHalf.bufRollback_eos (r : RxHalf) : (r.bufRollback).eos = r.eos := rfl
@[simp] theorem RxHalf.bufRollback_signed (r : RxHalf) : (r.bufRollback).signed = r.signed := rfl
@[simp] theorem RxHalf.bufRollback_crcacc (r : RxHalf) : (r.bufRollback).crcacc = r.crcacc := rfl
@[simp] theorem RxHalf.bufRollback_rxlen (r : RxHalf) : (r.bufRollback).rxlen = r.rxlen := rfl
@[simp] theorem RxHalf.bufRollback_stream (r : RxHalf) : (r.bufRollback).stream = r.stream := rfl
@[simp] theorem RxHalf.bufRollback_tent (r : RxHalf) : (r.bufRollback).tent = 0 := rfl
@[simp] theorem RxHalf.bufRollback_closed (r : RxHalf) : (r.bufRollback).closed = r.closed := rfl
@[simp] theorem RxHalf.bufRollback_mem (r : RxHalf) : (r.bufRollback).mem = r.mem := rfl
@[simp] theorem RxHalf.bufRollback_held (r : RxHalf) : (r.bufRollback).held = r.held := rfl
@[simp] theorem RxHalf.bufRollback_queue (r : RxHalf) : (r.bufRollback).queue = r.queue := rfl
@[simp] theorem RxHalf.bufRollback_responses (r : RxHalf) : (r.bufRollback).responses = r.responses := rfl

/-! ### `finishEncode` (41_encode.md R140) -/

@[simp] theorem TxHalf.finishEncode_seq (t : TxHalf) (b : Built) : (t.finishEncode b).seq = t.seq := rfl
@[simp] theorem TxHalf.finishEncode_sys (t : TxHalf) (b : Built) : (t.finishEncode b).sys = t.sys := rfl
@[simp] theorem TxHalf.finishEncode_comp (t : TxHalf) (b : Built) : (t.finishEncode b).comp = t.comp := rfl
@[simp] theorem TxHalf.finishEncode_msgid (t : TxHalf) (b : Built) : (t.finishEncode b).msgid = t.msgid := rfl
@[simp] theorem TxHalf.finishEncode_seed (t : TxHalf) (b : Built) : (t.finishEncode b).seed = t.seed := rfl
@[simp] theorem TxHalf.finishEncode_plen (t : TxHalf) (b : Built) : (t.finishEncode b).plen = t.plen := rfl
@[simp] theorem TxHalf.finishEncode_linkid (t : TxHalf) (b : Built) : (t.finishEncode b).linkid = t.linkid := rfl
@[simp] theorem TxHalf.finishEncode_ts (t : TxHalf) (b : Built) : (t.finishEncode b).ts = t.ts := rfl
@[simp] theorem TxHalf.finishEncode_truncEn (t : TxHalf) (b : Built) : (t.finishEncode b).truncEn = t.truncEn := rfl
@[simp] theorem TxHalf.finishEncode_txvalid (t : TxHalf) (b : Built) : (t.finishEncode b).txvalid = true := rfl
@[simp] theorem TxHalf.finishEncode_crcacc (t : TxHalf) (b : Built) : (t.finishEncode b).crcacc = b.cksum := rfl
@[simp] theorem TxHalf.finishEncode_txlen (t : TxHalf) (b : Built) : (t.finishEncode b).txlen = BitVec.ofNat 9 b.bytes.length := rfl
@[simp] theorem TxHalf.finishEncode_out (t : TxHalf) (b : Built) : (t.finishEncode b).out = t.out := rfl
@[simp] theorem TxHalf.finishEncode_mem (t : TxHalf) (b : Built) : (t.finishEncode b).mem = t.mem.memWrite .buf 0 b.bytes := rfl
@[simp] theorem TxHalf.finishEncode_sending (t : TxHalf) (b : Built) : (t.finishEncode b).sending = t.sending := rfl
@[simp] theorem TxHalf.finishEncode_sink (t : TxHalf) (b : Built) : (t.finishEncode b).sink = t.sink := rfl
@[simp] theorem TxHalf.finishEncode_queue (t : TxHalf) (b : Built) : (t.finishEncode b).queue = t.queue := rfl
@[simp] theorem TxHalf.finishEncode_responses (t : TxHalf) (b : Built) : (t.finishEncode b).responses = t.responses ++ [⟨.ok, BitVec.ofNat 48 b.bytes.length⟩] := rfl

/-! ### `replyCrc` (40_crc.md R123) -/

@[simp] theorem TxHalf.replyCrc_seq (t : TxHalf) (c : BitVec 16) : (t.replyCrc c).seq = t.seq := rfl
@[simp] theorem TxHalf.replyCrc_sys (t : TxHalf) (c : BitVec 16) : (t.replyCrc c).sys = t.sys := rfl
@[simp] theorem TxHalf.replyCrc_comp (t : TxHalf) (c : BitVec 16) : (t.replyCrc c).comp = t.comp := rfl
@[simp] theorem TxHalf.replyCrc_msgid (t : TxHalf) (c : BitVec 16) : (t.replyCrc c).msgid = t.msgid := rfl
@[simp] theorem TxHalf.replyCrc_seed (t : TxHalf) (c : BitVec 16) : (t.replyCrc c).seed = t.seed := rfl
@[simp] theorem TxHalf.replyCrc_plen (t : TxHalf) (c : BitVec 16) : (t.replyCrc c).plen = t.plen := rfl
@[simp] theorem TxHalf.replyCrc_linkid (t : TxHalf) (c : BitVec 16) : (t.replyCrc c).linkid = t.linkid := rfl
@[simp] theorem TxHalf.replyCrc_ts (t : TxHalf) (c : BitVec 16) : (t.replyCrc c).ts = t.ts := rfl
@[simp] theorem TxHalf.replyCrc_truncEn (t : TxHalf) (c : BitVec 16) : (t.replyCrc c).truncEn = t.truncEn := rfl
@[simp] theorem TxHalf.replyCrc_txvalid (t : TxHalf) (c : BitVec 16) : (t.replyCrc c).txvalid = t.txvalid := rfl
@[simp] theorem TxHalf.replyCrc_crcacc (t : TxHalf) (c : BitVec 16) : (t.replyCrc c).crcacc = c := rfl
@[simp] theorem TxHalf.replyCrc_txlen (t : TxHalf) (c : BitVec 16) : (t.replyCrc c).txlen = t.txlen := rfl
@[simp] theorem TxHalf.replyCrc_out (t : TxHalf) (c : BitVec 16) : (t.replyCrc c).out = t.out := rfl
@[simp] theorem TxHalf.replyCrc_mem (t : TxHalf) (c : BitVec 16) : (t.replyCrc c).mem = t.mem := rfl
@[simp] theorem TxHalf.replyCrc_sending (t : TxHalf) (c : BitVec 16) : (t.replyCrc c).sending = t.sending := rfl
@[simp] theorem TxHalf.replyCrc_sink (t : TxHalf) (c : BitVec 16) : (t.replyCrc c).sink = t.sink := rfl
@[simp] theorem TxHalf.replyCrc_queue (t : TxHalf) (c : BitVec 16) : (t.replyCrc c).queue = t.queue := rfl
@[simp] theorem TxHalf.replyCrc_responses (t : TxHalf) (c : BitVec 16) : (t.replyCrc c).responses = t.responses ++ [⟨.ok, c.setWidth 48⟩] := rfl

/-! ### `replyCrc` -/

@[simp] theorem RxHalf.replyCrc_ver (r : RxHalf) (c : BitVec 16) : (r.replyCrc c).ver = r.ver := rfl
@[simp] theorem RxHalf.replyCrc_len (r : RxHalf) (c : BitVec 16) : (r.replyCrc c).len = r.len := rfl
@[simp] theorem RxHalf.replyCrc_incompat (r : RxHalf) (c : BitVec 16) : (r.replyCrc c).incompat = r.incompat := rfl
@[simp] theorem RxHalf.replyCrc_compat (r : RxHalf) (c : BitVec 16) : (r.replyCrc c).compat = r.compat := rfl
@[simp] theorem RxHalf.replyCrc_seq (r : RxHalf) (c : BitVec 16) : (r.replyCrc c).seq = r.seq := rfl
@[simp] theorem RxHalf.replyCrc_sys (r : RxHalf) (c : BitVec 16) : (r.replyCrc c).sys = r.sys := rfl
@[simp] theorem RxHalf.replyCrc_comp (r : RxHalf) (c : BitVec 16) : (r.replyCrc c).comp = r.comp := rfl
@[simp] theorem RxHalf.replyCrc_msgid (r : RxHalf) (c : BitVec 16) : (r.replyCrc c).msgid = r.msgid := rfl
@[simp] theorem RxHalf.replyCrc_cksum (r : RxHalf) (c : BitVec 16) : (r.replyCrc c).cksum = r.cksum := rfl
@[simp] theorem RxHalf.replyCrc_linkid (r : RxHalf) (c : BitVec 16) : (r.replyCrc c).linkid = r.linkid := rfl
@[simp] theorem RxHalf.replyCrc_ts (r : RxHalf) (c : BitVec 16) : (r.replyCrc c).ts = r.ts := rfl
@[simp] theorem RxHalf.replyCrc_hash (r : RxHalf) (c : BitVec 16) : (r.replyCrc c).hash = r.hash := rfl
@[simp] theorem RxHalf.replyCrc_frame (r : RxHalf) (c : BitVec 16) : (r.replyCrc c).frame = r.frame := rfl
@[simp] theorem RxHalf.replyCrc_crcOk (r : RxHalf) (c : BitVec 16) : (r.replyCrc c).crcOk = r.crcOk := rfl
@[simp] theorem RxHalf.replyCrc_sigOk (r : RxHalf) (c : BitVec 16) : (r.replyCrc c).sigOk = r.sigOk := rfl
@[simp] theorem RxHalf.replyCrc_eos (r : RxHalf) (c : BitVec 16) : (r.replyCrc c).eos = r.eos := rfl
@[simp] theorem RxHalf.replyCrc_signed (r : RxHalf) (c : BitVec 16) : (r.replyCrc c).signed = r.signed := rfl
@[simp] theorem RxHalf.replyCrc_crcacc (r : RxHalf) (c : BitVec 16) : (r.replyCrc c).crcacc = c := rfl
@[simp] theorem RxHalf.replyCrc_rxlen (r : RxHalf) (c : BitVec 16) : (r.replyCrc c).rxlen = r.rxlen := rfl
@[simp] theorem RxHalf.replyCrc_stream (r : RxHalf) (c : BitVec 16) : (r.replyCrc c).stream = r.stream := rfl
@[simp] theorem RxHalf.replyCrc_tent (r : RxHalf) (c : BitVec 16) : (r.replyCrc c).tent = r.tent := rfl
@[simp] theorem RxHalf.replyCrc_closed (r : RxHalf) (c : BitVec 16) : (r.replyCrc c).closed = r.closed := rfl
@[simp] theorem RxHalf.replyCrc_mem (r : RxHalf) (c : BitVec 16) : (r.replyCrc c).mem = r.mem := rfl
@[simp] theorem RxHalf.replyCrc_held (r : RxHalf) (c : BitVec 16) : (r.replyCrc c).held = r.held := rfl
@[simp] theorem RxHalf.replyCrc_queue (r : RxHalf) (c : BitVec 16) : (r.replyCrc c).queue = r.queue := rfl
@[simp] theorem RxHalf.replyCrc_responses (r : RxHalf) (c : BitVec 16) : (r.replyCrc c).responses = r.responses ++ [⟨.ok, c.setWidth 48⟩] := rfl

/-! ### `onChannel` (10_state.md R20) -/

variable (s : State) (f : Nat → TxHalf → TxHalf) (g : Nat → RxHalf → RxHalf)

theorem State.onChannel_tx (h : s.chan = .tx) : s.onChannel f g = { s with tx := f s.epoch s.tx } := by simp [State.onChannel, h]
theorem State.onChannel_rx (h : s.chan = .rx) : s.onChannel f g = { s with rx := g s.epoch s.rx } := by simp [State.onChannel, h]
@[simp] theorem State.onChannel_chan : (s.onChannel f g).chan = s.chan := by unfold State.onChannel; split <;> rfl
@[simp] theorem State.onChannel_epoch : (s.onChannel f g).epoch = s.epoch := by unfold State.onChannel; split <;> rfl
@[simp] theorem State.onChannel_moves : (s.onChannel f g).moves = s.moves := by unfold State.onChannel; split <;> rfl

/-- The TX half after an effect on a channel. -/
theorem State.onChannel_txHalf : (s.onChannel f g).tx = if s.chan = .tx then f s.epoch s.tx else s.tx := by
  unfold State.onChannel; cases s.chan <;> simp

/-- The RX half after an effect on a channel. -/
theorem State.onChannel_rxHalf : (s.onChannel f g).rx = if s.chan = .rx then g s.epoch s.rx else s.rx := by
  unfold State.onChannel; cases s.chan <;> simp

end Sys2Proof.Machine
end

