-- ==== Sys2Proof/Laws/Step.lean ====
section
/-! SUPPORT. What a command, a word and a step can do: a command acts on the half of its channel and on nothing else, and no
step stops. -/

namespace Sys2Proof.Machine

/-! ### A command -/

/-- The command's effect on the TX half, when it arrives there. -/
def txEffect : Instr → Nat → TxHalf → TxHalf
  | .rdr reg => TxHalf.rdr reg
  | .wrr reg value => TxHalf.wrr reg value
  | .ldb space index => TxHalf.ldb space index
  | .stb space index byte => TxHalf.stb space index byte
  | .crcInit => TxHalf.crcInit
  | .crcAcc byte => fun _ t => t.replyCrc (Sys2Proof.Machine.crcAcc t.crcacc byte)
  | .crcBuf space off n => TxHalf.crcBuf space off n
  | .encV1 => TxHalf.encV1
  | .encV2U => TxHalf.encV2U
  | .encV2S => TxHalf.encV2S
  | .txSend => TxHalf.txSend
  | .decV1 | .decV2 | .rxChk _ | .sigVfy | .syncNext | .syncDrop | .syncConnect => TxHalf.illegal

/-- The command's effect on the RX half, when it arrives there. -/
def rxEffect : Instr → Nat → RxHalf → RxHalf
  | .rdr reg => RxHalf.rdr reg
  | .wrr reg value => RxHalf.wrr reg value
  | .ldb space index => RxHalf.ldb space index
  | .stb space index byte => RxHalf.stb space index byte
  | .crcInit => RxHalf.crcInit
  | .crcAcc byte => fun _ r => r.replyCrc (Sys2Proof.Machine.crcAcc r.crcacc byte)
  | .crcBuf space off n => RxHalf.crcBuf space off n
  | .encV1 | .encV2U | .encV2S | .txSend => RxHalf.illegal
  | .decV1 => RxHalf.decodeWindow .v1
  | .decV2 => RxHalf.decodeWindow .v2
  | .rxChk seed => RxHalf.rxChk seed
  | .sigVfy => RxHalf.sigVfy
  | .syncNext => RxHalf.syncNext
  | .syncDrop => RxHalf.syncDrop
  | .syncConnect => RxHalf.syncConnect

/-- Every command answers a next state, by its effect on the half of its channel (10_state.md R20). -/
theorem exec_eq (i : Instr) (s : State) : exec i s = .next (s.onChannel (txEffect i) (rxEffect i)) := by
  cases i <;> rfl

theorem exec_tx (i : Instr) {s : State} (h : s.chan = .tx) :
    exec i s = .next { s with tx := txEffect i s.epoch s.tx } := by
  rw [exec_eq, State.onChannel, h]

theorem exec_rx (i : Instr) {s : State} (h : s.chan = .rx) :
    exec i s = .next { s with rx := rxEffect i s.epoch s.rx } := by
  rw [exec_eq, State.onChannel, h]

/-- What follows from a command's next state. -/
theorem exec_cases {i : Instr} {s t : State} (h : exec i s = .next t) :
    (s.chan = .tx ∧ t = { s with tx := txEffect i s.epoch s.tx }) ∨
      (s.chan = .rx ∧ t = { s with rx := rxEffect i s.epoch s.rx }) := by
  have hc : s.chan = .tx ∨ s.chan = .rx := by cases s.chan <;> simp
  rcases hc with hc | hc
  · rw [exec_tx i hc] at h; exact .inl ⟨hc, (Host.Outcome.next.inj h).symm⟩
  · rw [exec_rx i hc] at h; exact .inr ⟨hc, (Host.Outcome.next.inj h).symm⟩

/-- A command that is illegal on a channel does there what a word that is no command does (30_encoding.md R103). -/
theorem txEffect_illegal {i : Instr} (h : i.wellFormed .tx = false) : txEffect i = TxHalf.illegal := by
  cases i <;> first | rfl | cases h

theorem rxEffect_illegal {i : Instr} (h : i.wellFormed .rx = false) : rxEffect i = RxHalf.illegal := by
  cases i <;> first | rfl | cases h

/-! ### A word -/

/-- What an accepted word does: the command it decodes to, or `ILLEGAL`. -/
theorem runWord_cases (w : CmdWord) (s : State) :
    (∃ i, decode w = .instr i ∧ runWord w s = .next (s.onChannel (txEffect i) (rxEffect i))) ∨
      ((∃ why, decode w = .illegal why) ∧ runWord w s = .next (s.onChannel TxHalf.illegal RxHalf.illegal)) := by
  unfold runWord
  cases h : decode w with
  | instr i => exact .inl ⟨i, rfl, exec_eq i s⟩
  | illegal why => exact .inr ⟨⟨why, rfl⟩, rfl⟩

/-! ### A step -/

/-- Where the reset input comes next, a step is that reset and nothing else (70_reset_and_hazards.md R290). -/
theorem step_reset {s : State} {ms : List Move} (h : s.moves = .reset :: ms) :
    step s = .next { s with moves := ms }.pinReset := by
  simp [step, State.resetNext, State.outsideMove, State.applyMove, h]

/-- The word of a channel that can be served next: the other channel was served last, or cannot be served. -/
theorem nextCommand_tx {s : State} {w : CmdWord} {q : List CmdWord} (hs : s.tx.sending = false) (hq : s.tx.queue = w :: q)
    (ho : s.chan = .rx ∨ s.rx.held ≠ none ∨ s.rx.queue = []) : s.nextCommand = some (.tx, w) := by
  have ht : s.tx.ready = some w := by simp [TxHalf.ready, hs, hq]
  have hr : s.chan = .rx ∨ s.rx.ready = none := by
    refine ho.imp_right fun h => ?_
    rcases h with h | h
    · simp [RxHalf.ready, Option.isSome_iff_ne_none.2 h]
    · simp [RxHalf.ready, h]
  unfold State.nextCommand
  cases hc : s.chan <;> simp_all [Channel.other, State.ready]

theorem nextCommand_rx {s : State} {w : CmdWord} {q : List CmdWord} (hs : s.rx.held = none) (hq : s.rx.queue = w :: q)
    (ho : s.chan = .tx ∨ s.tx.sending = true ∨ s.tx.queue = []) : s.nextCommand = some (.rx, w) := by
  have hr : s.rx.ready = some w := by simp [RxHalf.ready, hs, hq]
  have ht : s.chan = .tx ∨ s.tx.ready = none := by
    refine ho.imp_right fun h => ?_
    rcases h with h | h <;> simp [TxHalf.ready, h]
  unfold State.nextCommand
  cases hc : s.chan <;> simp_all [Channel.other, State.ready]

/-- No word can be accepted where each half is held or has none. -/
theorem nextCommand_none {s : State} (ht : s.tx.sending = true ∨ s.tx.queue = [])
    (hr : s.rx.held ≠ none ∨ s.rx.queue = []) : s.nextCommand = none := by
  have h1 : s.tx.ready = none := by rcases ht with h | h <;> simp [TxHalf.ready, h]
  have h2 : s.rx.ready = none := by
    rcases hr with h | h
    · simp [RxHalf.ready, Option.isSome_iff_ne_none.2 h]
    · simp [RxHalf.ready, h]
  unfold State.nextCommand
  cases hc : s.chan <;> simp [Channel.other, State.ready, h1, h2]

/-- Everything a step can do: the reset input does not come, and the TX half or the RX half, holding no command, takes the
oldest word issued to it and runs it; or the outside world makes its next move. -/
theorem step_cases {s t : State} (h : step s = .next t) :
    (∃ w q f, s.moves.head? ≠ some .reset ∧ s.tx.sending = false ∧ s.tx.queue = w :: q ∧ (f = TxHalf.illegal ∨ ∃ i, decode w = .instr i ∧ f = txEffect i) ∧
        t = { s with chan := .tx, tx := f s.epoch { s.tx with queue := q } }) ∨
    (∃ w q f, s.moves.head? ≠ some .reset ∧ s.rx.held = none ∧ s.rx.queue = w :: q ∧ (f = RxHalf.illegal ∨ ∃ i, decode w = .instr i ∧ f = rxEffect i) ∧
        t = { s with chan := .rx, rx := f s.epoch { s.rx with queue := q } }) ∨
    ((s.moves.head? = some .reset ∨ s.nextCommand = none) ∧ t = s.outsideMove) := by
  unfold step at h
  split at h
  · rename_i hm
    cases h
    exact .inr (.inr ⟨.inl (by simpa [State.resetNext] using hm), rfl⟩)
  rename_i hm
  have hm : s.moves.head? ≠ some .reset := by simpa [State.resetNext] using hm
  cases hn : s.nextCommand with
  | none => rw [hn] at h; cases h; exact .inr (.inr ⟨.inr rfl, rfl⟩)
  | some p =>
    obtain ⟨c, w⟩ := p
    rw [hn] at h
    have hr : s.ready c = some w := by
      unfold State.nextCommand at hn
      cases ho : s.ready s.chan.other with
      | some w' => rw [ho] at hn; cases hn; exact ho
      | none =>
        rw [ho] at hn
        cases hs : s.ready s.chan with
        | none => rw [hs] at hn; cases hn
        | some w' => rw [hs] at hn; cases hn; exact hs
    have hw := runWord_cases w (s.accept c)
    cases c
    · left
      have hq : s.tx.sending = false ∧ ∃ q, s.tx.queue = w :: q := by
        simp only [State.ready, TxHalf.ready] at hr
        split at hr
        · cases hr
        · rename_i hs
          refine ⟨by simpa using hs, ?_⟩
          cases hq : s.tx.queue with
          | nil => rw [hq] at hr; cases hr
          | cons a q => rw [hq] at hr; cases hr; exact ⟨q, rfl⟩
      obtain ⟨hs, q, hq⟩ := hq
      have ha : s.accept .tx = { s with chan := .tx, tx := { s.tx with queue := q } } := by simp [State.accept, hq]
      rcases hw with ⟨i, hd, he⟩ | ⟨-, he⟩
      · rw [show runWord w (s.accept .tx) = .next t from h, ha] at he
        cases he
        exact ⟨w, q, _, hm, hs, hq, .inr ⟨i, hd, rfl⟩, rfl⟩
      · rw [show runWord w (s.accept .tx) = .next t from h, ha] at he
        cases he
        exact ⟨w, q, _, hm, hs, hq, .inl rfl, rfl⟩
    · right; left
      have hq : s.rx.held = none ∧ ∃ q, s.rx.queue = w :: q := by
        simp only [State.ready, RxHalf.ready] at hr
        split at hr
        · cases hr
        · rename_i hs
          refine ⟨by simpa using hs, ?_⟩
          cases hq : s.rx.queue with
          | nil => rw [hq] at hr; cases hr
          | cons a q => rw [hq] at hr; cases hr; exact ⟨q, rfl⟩
      obtain ⟨hs, q, hq⟩ := hq
      have ha : s.accept .rx = { s with chan := .rx, rx := { s.rx with queue := q } } := by simp [State.accept, hq]
      rcases hw with ⟨i, hd, he⟩ | ⟨-, he⟩
      · rw [show runWord w (s.accept .rx) = .next t from h, ha] at he
        cases he
        exact ⟨w, q, _, hm, hs, hq, .inr ⟨i, hd, rfl⟩, rfl⟩
      · rw [show runWord w (s.accept .rx) = .next t from h, ha] at he
        cases he
        exact ⟨w, q, _, hm, hs, hq, .inl rfl, rfl⟩

end Sys2Proof.Machine
end

