-- ==== Sys2Proof/Laws/Host.lean ====
section
/-! SUPPORT. What each move of the Connection can do (46_host_connection.md R241 to R245). -/

namespace Sys2Proof.Machine

variable {α : Type}

/-! ### The MFU's step under a thread that has issued its command -/

/-- Where the TX half is free, its queue holds one word and the RX queue none, and no reset comes, a step runs that word. -/
theorem step_tx_only {s : State} {i : Instr} (hm : s.moves.head? ≠ some .reset) (hs : s.tx.sending = false)
    (hq : s.tx.queue = [encode i]) (hr : s.rx.queue = []) (hd : decode (encode i) = .instr i) :
    step s = .next { s with chan := .tx, tx := txEffect i s.epoch { s.tx with queue := [] } } := by
  have hn : s.nextCommand = some (.tx, encode i) := nextCommand_tx hs hq (.inr (.inr hr))
  have ha : s.accept .tx = { s with chan := .tx, tx := { s.tx with queue := [] } } := by simp [State.accept, hq]
  unfold step
  rw [if_neg (by simpa [State.resetNext] using hm), hn]
  simp only [runWord, hd, ha]
  exact exec_tx i rfl

/-! ### What a reset loses -/

@[simp] theorem Conn.loseCalls_mfu (c : Conn α) : c.loseCalls.mfu = c.mfu := by
  unfold Conn.loseCalls; dsimp only; split <;> split <;> rfl

@[simp] theorem Conn.loseCalls_seqctr (c : Conn α) : c.loseCalls.seqctr = c.seqctr := by
  unfold Conn.loseCalls; dsimp only; split <;> split <;> rfl

@[simp] theorem Conn.loseCalls_reports (c : Conn α) : c.loseCalls.reports = c.reports := by
  unfold Conn.loseCalls; dsimp only; split <;> split <;> rfl

@[simp] theorem Conn.atReset_seqctr (c : Conn α) : c.atReset.seqctr = 0 := rfl

@[simp] theorem Conn.atReset_mfu (c : Conn α) : c.atReset.mfu = c.mfu := c.loseCalls_mfu

/-! ### The MFU's move -/

/-- The MFU's move is its step; no step stops, and only one that is a reset touches the procedures. -/
theorem Conn.mfuMove_cases (c : Conn α) :
    ∃ s, step c.mfu = .next s ∧
      ((c.mfu.resetNext = true ∧ c.mfuMove = { c.atReset with mfu := s }) ∨
        (c.mfu.resetNext = false ∧ c.mfuMove = { c with mfu := s })) := by
  unfold Conn.mfuMove
  have hs : ∃ s, step c.mfu = .next s := by
    unfold step
    split
    · exact ⟨_, rfl⟩
    · split
      · rename_i w _
        rcases runWord_cases w (c.mfu.accept _) with ⟨i, -, h⟩ | ⟨-, h⟩ <;> exact ⟨_, h⟩
      · exact ⟨_, rfl⟩
  obtain ⟨s, hs⟩ := hs
  refine ⟨s, hs, ?_⟩
  rw [hs]
  cases hr : c.mfu.resetNext
  · exact .inr ⟨rfl, rfl⟩
  · exact .inl ⟨rfl, rfl⟩

/-- The MFU's move leaves the counter as it is, but for a reset, after which it is 0 (10_state.md R45). -/
theorem Conn.mfuMove_seqctr (c : Conn α) :
    c.mfuMove.seqctr = if c.mfu.moves.head? = some .reset then 0 else c.seqctr := by
  obtain ⟨s, -, ⟨hr, h⟩ | ⟨hr, h⟩⟩ := c.mfuMove_cases <;> rw [h]
  · rw [if_pos (by simpa [State.resetNext] using hr)]; rfl
  · rw [if_neg (by simpa [State.resetNext] using hr)]

/-! ### The threads' moves -/

/-- What the thread that holds the write lock does: nothing without it, or while it waits; else it gives its command, or takes
the response. -/
theorem Conn.writerMove_cases (c : Conn α) :
    c.writerMove = c ∨
    (∃ p i, c.writer = some ⟨p, none⟩ ∧ p.command c.seqctr = some i ∧
      c.writerMove =
        { c with mfu := c.mfu.issue .tx (encode i), writer := some ⟨p, some (c.mfu.nextAnswer .tx)⟩ }) ∨
    ∃ p n r, c.writer = some ⟨p, some n⟩ ∧ c.mfu.tx.responses[n]? = some r ∧ c.writerMove = c.writerTakes p r := by
  unfold Conn.writerMove
  split
  · exact .inl rfl
  · rename_i p h
    split
    · exact .inl rfl
    · rename_i i hi; exact .inr (.inl ⟨p, i, h, hi, rfl⟩)
  · rename_i p n h
    split
    · exact .inl rfl
    · rename_i r hr; exact .inr (.inr ⟨p, n, r, h, hr, rfl⟩)

/-- The same for the thread that holds the read lock. -/
theorem Conn.readerMove_cases (dialect : Dialect α) (c : Conn α) :
    c.readerMove dialect = c ∨
    (∃ p, c.reader = some ⟨p, none⟩ ∧
      c.readerMove dialect =
        { c with mfu := c.mfu.issue .rx (encode p.command), reader := some ⟨p, some (c.mfu.nextAnswer .rx)⟩ }) ∨
    ∃ p n r, c.reader = some ⟨p, some n⟩ ∧ c.mfu.rx.responses[n]? = some r ∧
      c.readerMove dialect = c.readerTakes dialect p r := by
  unfold Conn.readerMove
  split
  · exact .inl rfl
  · rename_i p h; exact .inr (.inl ⟨p, h, rfl⟩)
  · rename_i p n h
    split
    · exact .inl rfl
    · rename_i r hr; exact .inr (.inr ⟨p, n, r, h, hr, rfl⟩)

/-- A procedure of the read path ends as a `connect` exactly at the response to its `SYNC.CONNECT` (R244). -/
theorem ReadPos.after_connected (dialect : Dialect α) (p : ReadPos) (r : Response) :
    p.after dialect r = .connected ↔ p = .connect := by
  have hp : ∀ id size fields got, payloadNext dialect id size fields got ≠ .connected := by
    intro id size fields got
    unfold payloadNext
    split
    · simp
    · split <;> simp
  cases p with
  | scan => simp only [ReadPos.after]; split <;> simp
  | msgid => simp only [ReadPos.after]; split <;> simp
  | check id seed size => simp only [ReadPos.after]; split <;> simp
  | regs id size got => simp only [ReadPos.after]; split <;> simp [hp]
  | pay id size fields got => simp [ReadPos.after, hp]
  | drop => simp [ReadPos.after]
  | connect => simp [ReadPos.after]

/-- On the read path only a `connect` changes the counter, to 0 (R244). -/
theorem Conn.readerTakes_seqctr (dialect : Dialect α) (p : ReadPos) (r : Response) (c : Conn α) :
    (c.readerTakes dialect p r).seqctr = if p = .connect then 0 else c.seqctr := by
  have h := ReadPos.after_connected dialect p r
  unfold Conn.readerTakes
  split <;> rename_i hx <;> rw [hx] at h <;> simp_all

/-- One command of the write path: the thread gives it to an MFU whose TX half is free and has nothing else to do, the MFU
runs it, and the thread takes the response if there is one. -/
theorem Conn.writer_turn (dialect : Dialect α) {c : Conn α} {p : WritePos} {i : Instr} (hw : c.writer = some ⟨p, none⟩)
    (hp : p.command c.seqctr = some i) (hd : decode (encode i) = .instr i) (hs : c.mfu.tx.sending = false)
    (hq : c.mfu.tx.queue = []) (hr : c.mfu.rx.queue = []) (hm : c.mfu.moves.head? ≠ some .reset) :
    let d := { c with
      mfu := { c.mfu with chan := .tx, tx := txEffect i c.mfu.epoch c.mfu.tx }
      writer := some ⟨p, some c.mfu.tx.responses.length⟩ }
    c.run dialect [.writer, .mfu, .writer] = d.writerMove := by
  have h1 : c.writerMove =
      { c with mfu := c.mfu.issue .tx (encode i), writer := some ⟨p, some c.mfu.tx.responses.length⟩ } := by
    simp [Conn.writerMove, hw, hp, State.nextAnswer, State.responses, State.isHeld, State.queue, hs, hq]
  have hst := step_tx_only (s := c.mfu.issue .tx (encode i)) (i := i) hm hs (by simp [State.issue, hq]) hr hd
  have ht : ({ (c.mfu.issue .tx (encode i)).tx with queue := [] } : TxHalf) = c.mfu.tx := by
    rw [← hq]; rfl
  rw [ht] at hst
  have hrn : (c.mfu.issue .tx (encode i)).resetNext = false := by
    simpa [State.resetNext, State.issue] using hm
  simp only [Conn.run, List.foldl_cons, List.foldl_nil, Conn.move, h1, Conn.mfuMove, hst, hrn]
  rfl

end Sys2Proof.Machine
end

