-- ==== Sys2Proof/Laws/Sync.lean ====
section
/-! SUPPORT. The scanner: where an attempt is held it can be started again, and where a scan stops (44_sync.md). -/

namespace Sys2Proof.Machine

/-! ### Attempts -/

theorem stxV2_ne_stxV1 : Config.stxV2 ≠ Config.stxV1 := by decide

theorem attempt_nil (closed : Bool) :
    attemptMarker [] closed 0 = if closed then .ended else .hold .marker 0 := by
  cases closed <;> rfl

theorem attempt_other (m : Byte) (s : Bytes) (closed : Bool) (h1 : m ≠ Config.stxV1) (h2 : m ≠ Config.stxV2) :
    attemptMarker (m :: s) closed 0 = .failed := by
  simp [attemptMarker, bufRead, h1, h2]

theorem attempt_v1 (s : Bytes) (closed : Bool) :
    attemptMarker (Config.stxV1 :: s) closed 0 = attemptLen (Config.stxV1 :: s) closed 1 .v1 := rfl

theorem attempt_v2 (s : Bytes) (closed : Bool) :
    attemptMarker (Config.stxV2 :: s) closed 0 = attemptLen (Config.stxV2 :: s) closed 1 .v2 := rfl

theorem attemptLen_short (m : Byte) (closed : Bool) (v : Ver) :
    attemptLen [m] closed 1 v = if closed then .failed else .hold (.len v) 1 := by
  cases closed <;> rfl

theorem attemptLen_v1 (m n : Byte) (s : Bytes) (closed : Bool) :
    attemptLen (m :: n :: s) closed 1 .v1 = attemptBody (m :: n :: s) closed 2 .v1 (4 + n.toNat + 2) := rfl

theorem attemptLen_v2 (m n : Byte) (s : Bytes) (closed : Bool) :
    attemptLen (m :: n :: s) closed 1 .v2 = attemptFlags (m :: n :: s) closed 2 n := rfl

theorem attemptFlags_short (m n : Byte) (closed : Bool) :
    attemptFlags [m, n] closed 2 n = if closed then .failed else .hold (.flags n) 2 := by
  cases closed <;> rfl

theorem attemptFlags_long (m n r : Byte) (s : Bytes) (closed : Bool) :
    attemptFlags (m :: n :: r :: s) closed 2 n =
      attemptBody (m :: n :: r :: s) closed 3 .v2 (7 + n.toNat + 2 + sigLen r) := rfl

theorem attemptBody_eq (s : Bytes) (closed : Bool) (t : Nat) (v : Ver) (need : Nat) :
    attemptBody s closed t v need =
      if t + need ≤ s.length then .found v (t + need) else if closed then .failed else .hold (.body v need) t := by
  unfold attemptBody bufAdvance
  by_cases h : t + need ≤ s.length
  · simp [h]
  · cases closed <;> simp [h]

/-- An attempt held in a phase has read the bytes of its phase: the cursor is inside the stream, at most 3. -/
theorem attempt_hold_tent {s : Bytes} {p : Phase} {t : Nat} {closed : Bool} (h : attemptMarker s closed 0 = .hold p t) :
    closed = false ∧ t ≤ s.length ∧ t ≤ 3 := by
  cases closed
  case true =>
    rcases s with _ | ⟨m, s⟩
    · simp [attempt_nil] at h
    · by_cases h1 : m = Config.stxV1
      · subst h1
        rcases s with _ | ⟨n, s⟩
        · simp [attempt_v1, attemptLen_short] at h
        · rw [attempt_v1, attemptLen_v1, attemptBody_eq] at h
          split at h <;> simp at h
      · by_cases h2 : m = Config.stxV2
        · subst h2
          rcases s with _ | ⟨n, _ | ⟨r, s⟩⟩
          · simp [attempt_v2, attemptLen_short] at h
          · simp [attempt_v2, attemptLen_v2, attemptFlags_short] at h
          · rw [attempt_v2, attemptLen_v2, attemptFlags_long, attemptBody_eq] at h
            split at h <;> simp at h
        · simp [attempt_other m s _ h1 h2] at h
  case false =>
    refine ⟨rfl, ?_⟩
    rcases s with _ | ⟨m, s⟩
    · simp [attempt_nil] at h; simp [← h.2]
    · by_cases h1 : m = Config.stxV1
      · subst h1
        rcases s with _ | ⟨n, s⟩
        · simp [attempt_v1, attemptLen_short] at h; simp [← h.2]
        · rw [attempt_v1, attemptLen_v1, attemptBody_eq] at h
          split at h <;> simp at h; simp [← h.2]
      · by_cases h2 : m = Config.stxV2
        · subst h2
          rcases s with _ | ⟨n, _ | ⟨r, s⟩⟩
          · simp [attempt_v2, attemptLen_short] at h; simp [← h.2]
          · simp [attempt_v2, attemptLen_v2, attemptFlags_short] at h; simp [← h.2]
          · rw [attempt_v2, attemptLen_v2, attemptFlags_long, attemptBody_eq] at h
            split at h <;> simp at h; simp [← h.2]
        · simp [attempt_other m s _ h1 h2] at h

/-- An attempt held in a phase goes on exactly as an attempt started again on the longer stream would. -/
theorem attempt_restart {s : Bytes} {p : Phase} {t : Nat} (h : attemptMarker s false 0 = .hold p t)
    (u : Bytes) (closed : Bool) : attemptMarker (s ++ u) closed 0 = attemptFrom (s ++ u) closed t p := by
  rcases s with _ | ⟨m, s⟩
  · simp [attempt_nil] at h; obtain ⟨rfl, rfl⟩ := h; rfl
  · by_cases h1 : m = Config.stxV1
    · subst h1
      rcases s with _ | ⟨n, s⟩
      · simp [attempt_v1, attemptLen_short] at h; obtain ⟨rfl, rfl⟩ := h; rfl
      · rw [attempt_v1, attemptLen_v1, attemptBody_eq] at h
        split at h <;> simp at h
        obtain ⟨rfl, rfl⟩ := h; rfl
    · by_cases h2 : m = Config.stxV2
      · subst h2
        rcases s with _ | ⟨n, _ | ⟨r, s⟩⟩
        · simp [attempt_v2, attemptLen_short] at h; obtain ⟨rfl, rfl⟩ := h; rfl
        · simp [attempt_v2, attemptLen_v2, attemptFlags_short] at h; obtain ⟨rfl, rfl⟩ := h; rfl
        · rw [attempt_v2, attemptLen_v2, attemptFlags_long, attemptBody_eq] at h
          split at h <;> simp at h
          obtain ⟨rfl, rfl⟩ := h; rfl
      · simp [attempt_other m s _ h1 h2] at h

/-- What an attempt on a non-empty stream gives, in terms of `FrameLen` (44_sync.md R200). -/
theorem attempt_found_iff (b : Byte) (s : Bytes) (closed : Bool) (n : Nat) :
    (∃ v, attemptMarker (b :: s) closed 0 = .found v n) ↔ frameLenOf (b :: s) = some n ∧ n ≤ s.length + 1 := by
  have h21 := stxV2_ne_stxV1
  by_cases h1 : b = Config.stxV1
  · subst h1
    rcases s with _ | ⟨m, s⟩
    · simp [attempt_v1, attemptLen_short, frameLenOf, byteAt]
      cases closed <;> simp
    · rw [attempt_v1, attemptLen_v1]
      simp only [attemptBody_eq, frameLenOf, byteAt, List.length_cons]
      split_ifs <;> simp <;> omega
  · by_cases h2 : b = Config.stxV2
    · subst h2
      rcases s with _ | ⟨m, _ | ⟨r, s⟩⟩
      · simp [attempt_v2, attemptLen_short, frameLenOf, byteAt]
        cases closed <;> simp
      · simp [attempt_v2, attemptLen_v2, attemptFlags_short, frameLenOf, byteAt, h21]
        cases closed <;> simp
      · rw [attempt_v2, attemptLen_v2, attemptFlags_long]
        simp only [attemptBody_eq, frameLenOf, byteAt, List.length_cons, sigLen_eq]
        split_ifs <;> simp_all <;> omega
    · simp [attempt_other b s _ h1 h2, frameLenOf, byteAt, h1, h2]

/-- On a closed stream an attempt that finds nothing fails, unless nothing is left. -/
theorem attempt_closed (b : Byte) (s : Bytes) :
    attemptMarker (b :: s) true 0 = .failed ∨ ∃ v n, attemptMarker (b :: s) true 0 = .found v n := by
  cases h : attemptMarker (b :: s) true 0 with
  | failed => exact .inl rfl
  | found v n => exact .inr ⟨v, n, rfl⟩
  | hold p t => exact absurd (attempt_hold_tent h).1 (by simp)
  | ended =>
    by_cases h1 : b = Config.stxV1
    · subst h1
      rcases s with _ | ⟨m, s⟩
      · simp [attempt_v1, attemptLen_short] at h
      · rw [attempt_v1, attemptLen_v1, attemptBody_eq] at h; split at h <;> simp at h
    · by_cases h2 : b = Config.stxV2
      · subst h2
        rcases s with _ | ⟨m, _ | ⟨r, s⟩⟩
        · simp [attempt_v2, attemptLen_short] at h
        · simp [attempt_v2, attemptLen_v2, attemptFlags_short] at h
        · rw [attempt_v2, attemptLen_v2, attemptFlags_long, attemptBody_eq] at h; split at h <;> simp at h
      · simp [attempt_other b s _ h1 h2] at h

/-- A window found is a whole frame of its format: it decodes, and lies inside the stream. -/
theorem attempt_found {s : Bytes} {closed : Bool} {v : Ver} {n : Nat} (h : attemptMarker s closed 0 = .found v n) :
    n ≤ s.length ∧ n ≤ 280 ∧ 8 ≤ n ∧ s ≠ [] ∧ ∃ f, decodeFrame v (s.take n) = some f ∧ f.size = n := by
  rcases s with _ | ⟨m, s⟩
  · rw [attempt_nil] at h; split at h <;> simp at h
  · have hb := byte_toNat_le
    by_cases h1 : m = Config.stxV1
    · subst h1
      rcases s with _ | ⟨n', s⟩
      · rw [attempt_v1, attemptLen_short] at h; split at h <;> simp at h
      · rw [attempt_v1, attemptLen_v1, attemptBody_eq] at h
        split at h
        · rename_i hl
          simp only [Attempt.found.injEq] at h
          obtain ⟨rfl, rfl⟩ := h
          have := hb n'
          refine ⟨hl, by omega, by omega, by simp, ?_⟩
          have e : (Config.stxV1 :: n' :: s).take (2 + (4 + n'.toNat + 2)) =
              Config.stxV1 :: n' :: s.take (4 + n'.toNat + 2) := by
            rw [show 2 + (4 + n'.toNat + 2) = (4 + n'.toNat + 2) + 1 + 1 by omega]; rfl
          rw [e]
          simp only [List.length_cons] at hl
          obtain ⟨f, hf, hs⟩ := decodeV1_some (f := Config.stxV1 :: n' :: s.take (4 + n'.toNat + 2)) (by simp)
            (by simp [frameLenV1, byteAt]; omega)
          refine ⟨f, hf, ?_⟩
          rw [hs]; simp [frameLenV1, byteAt]; omega
        · split at h <;> simp at h
    · by_cases h2 : m = Config.stxV2
      · subst h2
        rcases s with _ | ⟨n', _ | ⟨r, s⟩⟩
        · rw [attempt_v2, attemptLen_short] at h; split at h <;> simp at h
        · rw [attempt_v2, attemptLen_v2, attemptFlags_short] at h; split at h <;> simp at h
        · rw [attempt_v2, attemptLen_v2, attemptFlags_long, attemptBody_eq] at h
          split at h
          · rename_i hl
            simp only [Attempt.found.injEq] at h
            obtain ⟨rfl, rfl⟩ := h
            have := hb n'
            have := sigLen_le r
            refine ⟨hl, by omega, by omega, by simp, ?_⟩
            have e : (Config.stxV2 :: n' :: r :: s).take (3 + (7 + n'.toNat + 2 + sigLen r)) =
                Config.stxV2 :: n' :: r :: s.take (7 + n'.toNat + 2 + sigLen r) := by
              rw [show 3 + (7 + n'.toNat + 2 + sigLen r) = (7 + n'.toNat + 2 + sigLen r) + 1 + 1 + 1 by omega]; rfl
            rw [e]
            simp only [List.length_cons] at hl
            obtain ⟨f, hf, hs⟩ := decodeV2_some
              (f := Config.stxV2 :: n' :: r :: s.take (7 + n'.toNat + 2 + sigLen r)) (by simp)
              (by simp [frameLenV2, byteAt]; omega)
            refine ⟨f, hf, ?_⟩
            rw [hs]; simp [frameLenV2, byteAt]; omega
          · split at h <;> simp at h
      · rw [attempt_other m s _ h1 h2] at h; simp at h

theorem attempt_ended_iff (s : Bytes) (closed : Bool) :
    attemptMarker s closed 0 = .ended ↔ s = [] ∧ closed = true := by
  rcases s with _ | ⟨b, s⟩
  · cases closed <;> simp [attempt_nil]
  · simp only [List.cons_ne_nil, false_and, iff_false]
    by_cases h1 : b = Config.stxV1
    · subst h1
      rcases s with _ | ⟨m, s⟩
      · rw [attempt_v1, attemptLen_short]; split <;> simp
      · rw [attempt_v1, attemptLen_v1, attemptBody_eq]; split_ifs <;> simp
    · by_cases h2 : b = Config.stxV2
      · subst h2
        rcases s with _ | ⟨m, _ | ⟨r, s⟩⟩
        · rw [attempt_v2, attemptLen_short]; split <;> simp
        · rw [attempt_v2, attemptLen_v2, attemptFlags_short]; split <;> simp
        · rw [attempt_v2, attemptLen_v2, attemptFlags_long, attemptBody_eq]; split_ifs <;> simp
      · simp [attempt_other b s _ h1 h2]

/-- More bytes, or the close of the stream, change nothing of a window found. -/
theorem attempt_found_append {s : Bytes} {v : Ver} {n : Nat} {closed : Bool} (h : attemptMarker s closed 0 = .found v n)
    (u : Bytes) (closed' : Bool) : attemptMarker (s ++ u) closed' 0 = .found v n := by
  rcases s with _ | ⟨m, s⟩
  · rw [attempt_nil] at h; split at h <;> simp at h
  · by_cases h1 : m = Config.stxV1
    · subst h1
      rcases s with _ | ⟨n', s⟩
      · rw [attempt_v1, attemptLen_short] at h; split at h <;> simp at h
      · rw [attempt_v1, attemptLen_v1, attemptBody_eq] at h
        rw [List.cons_append, List.cons_append, attempt_v1, attemptLen_v1, attemptBody_eq]
        split at h
        · rename_i hl
          rw [if_pos (by simp only [List.length_cons, List.length_append] at hl ⊢; omega)]; exact h
        · split at h <;> simp at h
    · by_cases h2 : m = Config.stxV2
      · subst h2
        rcases s with _ | ⟨n', _ | ⟨r, s⟩⟩
        · rw [attempt_v2, attemptLen_short] at h; split at h <;> simp at h
        · rw [attempt_v2, attemptLen_v2, attemptFlags_short] at h; split at h <;> simp at h
        · rw [attempt_v2, attemptLen_v2, attemptFlags_long, attemptBody_eq] at h
          rw [List.cons_append, List.cons_append, List.cons_append, attempt_v2, attemptLen_v2, attemptFlags_long,
            attemptBody_eq]
          split at h
          · rename_i hl
            rw [if_pos (by simp only [List.length_cons, List.length_append] at hl ⊢; omega)]; exact h
          · split at h <;> simp at h
      · rw [attempt_other m s _ h1 h2] at h; simp at h

/-- On an open stream only a byte that is no marker makes an attempt fail. -/
theorem attempt_open_failed {s : Bytes} (h : attemptMarker s false 0 = .failed) :
    ∃ b rest, s = b :: rest ∧ b ≠ Config.stxV1 ∧ b ≠ Config.stxV2 := by
  rcases s with _ | ⟨m, s⟩
  · simp [attempt_nil] at h
  · refine ⟨m, s, rfl, fun h1 => ?_, fun h2 => ?_⟩
    · subst h1
      rcases s with _ | ⟨n, s⟩
      · simp [attempt_v1, attemptLen_short] at h
      · rw [attempt_v1, attemptLen_v1, attemptBody_eq] at h; split at h <;> simp at h
    · subst h2
      rcases s with _ | ⟨n, _ | ⟨r, s⟩⟩
      · simp [attempt_v2, attemptLen_short] at h
      · simp [attempt_v2, attemptLen_v2, attemptFlags_short] at h
      · rw [attempt_v2, attemptLen_v2, attemptFlags_long, attemptBody_eq] at h; split at h <;> simp at h

/-! ### Scans -/

theorem scan_nil (closed : Bool) : scan closed [] = ⟨[], attemptMarker [] closed 0⟩ := rfl

theorem scan_failed {b : Byte} {s : Bytes} {closed : Bool} (h : attemptMarker (b :: s) closed 0 = .failed) :
    scan closed (b :: s) = scan closed s := by simp [scan, h]

theorem scan_stops {s : Bytes} {closed : Bool} (h : attemptMarker s closed 0 ≠ .failed) :
    scan closed s = ⟨s, attemptMarker s closed 0⟩ := by
  rcases s with _ | ⟨b, s⟩
  · rfl
  · rw [scan]; split
    · contradiction
    · rfl

theorem scanFrom_marker (s : Bytes) (closed : Bool) : scanFrom s closed 0 .marker = scan closed s := by
  unfold scanFrom attemptFrom
  rcases s with _ | ⟨b, s⟩
  · cases closed <;> rfl
  · cases h : attemptMarker (b :: s) closed 0 <;> simp [scan, h]

/-- Where a scan stops: it has dropped a prefix of the stream, and what it stopped at is the attempt on what is left. -/
theorem scan_spec (closed : Bool) (s : Bytes) :
    (∃ g, s = g ++ (scan closed s).stream) ∧ (scan closed s).stop ≠ .failed ∧
      (scan closed s).stop = attemptMarker (scan closed s).stream closed 0 := by
  induction s with
  | nil => refine ⟨⟨[], rfl⟩, ?_, rfl⟩; cases closed <;> simp [scan_nil, attempt_nil]
  | cons b s ih =>
    by_cases h : attemptMarker (b :: s) closed 0 = .failed
    · rw [scan_failed h]
      obtain ⟨⟨g, hg⟩, h2⟩ := ih
      exact ⟨⟨b :: g, by rw [List.cons_append, ← hg]⟩, h2⟩
    · rw [scan_stops h]
      exact ⟨⟨[], rfl⟩, h, rfl⟩

/-- Scanning twice is scanning once. -/
theorem scan_again (closed : Bool) (s : Bytes) : scan closed (scan closed s).stream = scan closed s := by
  obtain ⟨-, h1, h2⟩ := scan_spec closed s
  rw [scan_stops (by rw [← h2]; exact h1), ← h2]

/-- A scan held on an open stream goes on exactly as a scan of the longer stream would. -/
theorem scan_restart (s u : Bytes) (closed : Bool) {p : Phase} {t : Nat} (h : (scan false s).stop = .hold p t) :
    scan closed (s ++ u) = scanFrom ((scan false s).stream ++ u) closed t p := by
  induction s with
  | nil =>
    rw [scan_nil, attempt_nil] at h
    simp only [Bool.false_eq_true, if_false, Attempt.hold.injEq] at h
    obtain ⟨rfl, rfl⟩ := h
    rw [scan_nil, scanFrom_marker]
  | cons b s ih =>
    by_cases hf : attemptMarker (b :: s) false 0 = .failed
    · obtain ⟨b', r', e, h1, h2⟩ := attempt_open_failed hf
      cases e
      rw [scan_failed hf] at h ⊢
      rw [List.cons_append, scan_failed (attempt_other b _ _ h1 h2)]
      exact ih h
    · rw [scan_stops hf] at h ⊢
      have h' : attemptMarker (b :: s) false 0 = .hold p t := h
      have e : attemptFrom (b :: s ++ u) closed 0 .marker = attemptFrom (b :: s ++ u) closed t p :=
        attempt_restart h' u closed
      rw [← scanFrom_marker]
      unfold scanFrom
      rw [e]

/-- A window found while the stream is open is the one found in every continuation, open or closed. -/
theorem scan_found_append (s u : Bytes) (closed : Bool) {v : Ver} {n : Nat} (h : (scan false s).stop = .found v n) :
    scan closed (s ++ u) = ⟨(scan false s).stream ++ u, .found v n⟩ := by
  induction s with
  | nil => simp [scan_nil, attempt_nil] at h
  | cons b s ih =>
    by_cases hf : attemptMarker (b :: s) false 0 = .failed
    · obtain ⟨b', r', e, h1, h2⟩ := attempt_open_failed hf
      cases e
      rw [scan_failed hf] at h ⊢
      rw [List.cons_append, scan_failed (attempt_other b _ _ h1 h2)]
      exact ih h
    · rw [scan_stops hf] at h ⊢
      have h' : attemptMarker (b :: s) false 0 = .found v n := h
      have := attempt_found_append h' u closed
      rw [scan_stops (by rw [this]; simp), this]

/-- On a closed stream the scan is `Scan` of R200. -/
theorem scan_closed (s : Bytes) :
    match scanOf s with
    | none => scan true s = ⟨[], .ended⟩
    | some (w, n) => ∃ v, scan true s = ⟨w, .found v n⟩ := by
  induction s with
  | nil => rfl
  | cons b s ih =>
    rcases attempt_closed b s with hf | ⟨v, n, hn⟩
    · have hs : scanOf (b :: s) = scanOf s := by
        rw [scanOf]
        cases hl : frameLenOf (b :: s) with
        | none => rfl
        | some n =>
          have hn : ¬ n ≤ (b :: s).length := fun hle => by
            obtain ⟨v, hv⟩ := (attempt_found_iff b s true n).2 ⟨hl, by simpa using hle⟩
            rw [hf] at hv; cases hv
          simp only [if_neg hn]
      rw [hs, scan_failed hf]; exact ih
    · obtain ⟨hl, hle⟩ := (attempt_found_iff b s true n).1 ⟨v, hn⟩
      have hs : scanOf (b :: s) = some (b :: s, n) := by
        rw [scanOf, hl]; simp only [List.length_cons, if_pos hle]
      rw [hs, scan_stops (by rw [hn]; simp), hn]
      exact ⟨v, rfl⟩

end Sys2Proof.Machine
end

