-- ==== Sys2Proof/Laws/Inv.lean ====
section
/-! SUPPORT. What each operation on a half keeps of the invariant of Sys2Proof/Safety.lean. -/

namespace Sys2Proof.Machine

/-! ### The TX half -/

theorem TxHalf.reset_inv : TxHalf.reset.Inv :=
  ⟨Spaces.reset_inv, by decide, fun h => (by cases h), fun h => (by cases h)⟩

theorem TxHalf.Inv.answer {t : TxHalf} (h : t.Inv) (x : Response) : (t.answer x).Inv := ⟨h.1, h.2, h.3, h.4⟩

theorem TxHalf.Inv.queue {t : TxHalf} (h : t.Inv) (q : List CmdWord) : { t with queue := q }.Inv := ⟨h.1, h.2, h.3, h.4⟩

theorem TxHalf.Inv.replyCrc {t : TxHalf} (h : t.Inv) (c : BitVec 16) : (t.replyCrc c).Inv := ⟨h.1, h.2, h.3, h.4⟩

theorem TxHalf.Inv.writeReg {t : TxHalf} (h : t.Inv) (x : TxReg) (v : BitVec 48) : (t.writeReg x v).Inv := by
  cases x <;> exact ⟨h.1, h.2, h.3, h.4⟩

theorem Space.ofNumber_some {a : BitVec 8} {sp : Space} (h : Space.ofNumber a = some sp) :
    (sp = .pay ∧ a = 0) ∨ (sp = .buf ∧ a = 1) ∨ (sp = .key ∧ a = 2) := by
  unfold Space.ofNumber at h
  split at h
  · cases h; simp_all
  · split at h
    · cases h; simp_all
    · split at h
      · cases h; simp_all
      · cases h

/-- What `STB` may write to: a writable space, inside it. -/
theorem Space.target_some {c : Channel} {a : BitVec 8} {i : Nat} {sp : Space} (h : Space.target c a i = some sp) :
    Space.ofNumber a = some sp ∧ Space.writable c sp = true ∧ i < sp.size := by
  unfold Space.target at h
  cases ho : Space.ofNumber a with
  | none => rw [ho] at h; cases h
  | some x =>
    rw [ho] at h
    simp only [Bool.and_eq_true, decide_eq_true_eq] at h
    split at h
    · rename_i hw; cases h; exact ⟨rfl, hw⟩
    · cases h

/-- What `LDB` and `CRC.BUF` may read: a readable space, inside it. -/
theorem Space.source_some {a : BitVec 8} {i n : Nat} {sp : Space} (h : Space.source a i n = some sp) :
    Space.ofNumber a = some sp ∧ sp.readable = true ∧ i + n ≤ sp.size := by
  unfold Space.source at h
  cases ho : Space.ofNumber a with
  | none => rw [ho] at h; cases h
  | some x =>
    rw [ho] at h
    simp only [Bool.and_eq_true, decide_eq_true_eq] at h
    split at h
    · rename_i hw; cases h; exact ⟨rfl, hw⟩
    · cases h

/-- Storing a byte outside the frame buffer. -/
theorem TxHalf.Inv.store {t : TxHalf} (h : t.Inv) {sp : Space} (hs : sp ≠ .buf) (i : Nat) (bs : Bytes)
    (hi : i + bs.length ≤ sp.size) : { t with mem := t.mem.memWrite sp i bs }.Inv := by
  refine ⟨Spaces.memWrite_inv _ _ _ _ h.mem hi, h.2, ?_, h.4⟩
  have : (t.mem.memWrite sp i bs).buf = t.mem.buf := by cases sp <;> first | rfl | exact absurd rfl hs
  intro hv
  simp only [this]
  exact h.frame_written hv

/-- A frame of at most 280 bytes, encoded while no `TX.SEND` is held. -/
theorem TxHalf.Inv.finishEncode {t : TxHalf} (h : t.Inv) (b : Built) (hb : b.bytes.length ≤ 280) : (t.finishEncode b).Inv := by
  have hl : (BitVec.ofNat 9 b.bytes.length).toNat = b.bytes.length := by simp; omega
  refine ⟨Spaces.memWrite_inv t.mem .buf 0 b.bytes h.mem ?_, ?_, ?_, fun hs => ⟨rfl, (h.sending_waits hs).2⟩⟩
  · simpa [Space.size, Config.maxFrame] using hb
  · rw [finishEncode_txlen, hl]; exact hb
  · intro _
    simp only [finishEncode_txlen, hl]
    exact Memory.writtenTo_write _ _ _ (Nat.le_refl _)

theorem TxHalf.Inv.offer {t : TxHalf} (h : t.Inv) (e : Nat) (a : SinkAnswer) : (t.offer e a).Inv := by
  cases a <;> exact ⟨h.1, h.2, h.3, h.4⟩

/-- A `TX.SEND` with a valid frame, completed or held. -/
theorem TxHalf.Inv.send {t : TxHalf} (h : t.Inv) (hv : t.txvalid = true) (e : Nat) (k : List SinkAnswer) :
    ({ t with sending := true, sink := k }.resume e).Inv := by
  unfold TxHalf.resume
  cases k with
  | nil => exact ⟨h.1, h.2, h.3, fun _ => ⟨hv, rfl⟩⟩
  | cons a rest =>
    refine TxHalf.Inv.offer ?_ e a
    exact ⟨h.1, h.2, h.3, fun hs => by cases hs⟩

theorem TxHalf.Inv.sinkMove {t : TxHalf} (h : t.Inv) (e : Nat) (a : SinkAnswer) : (t.sinkMove e a).Inv := by
  unfold TxHalf.sinkMove
  by_cases hs : t.sending = true
  · have : ({ t with sink := t.sink ++ [a] } : TxHalf) = { t with sending := true, sink := t.sink ++ [a] } := by
      rw [← hs]
    rw [this]
    exact h.send (h.sending_waits hs).1 e _
  · have : ({ t with sink := t.sink ++ [a] } : TxHalf).resume e = { t with sink := t.sink ++ [a] } := by
      simp [TxHalf.resume, hs]
    rw [this]
    exact ⟨h.1, h.2, h.3, fun h' => absurd h' hs⟩

/-- Every command keeps the TX half's invariant. -/
theorem TxHalf.Inv.effect {t : TxHalf} (h : t.Inv) (i : Instr) (e : Nat) : (txEffect i e t).Inv := by
  have hw := t.wirePayload_length_le e
  have hb := byte_toNat_le t.plen
  cases i with
  | rdr reg => show (TxHalf.rdr reg e t).Inv; unfold TxHalf.rdr; split <;> exact h.answer _
  | wrr reg v => show (TxHalf.wrr reg v e t).Inv; unfold TxHalf.wrr; split <;> [exact h.answer _; exact (h.writeReg _ _).answer _]
  | ldb sp ix => show (TxHalf.ldb sp ix e t).Inv; unfold TxHalf.ldb; split <;> exact h.answer _
  | stb sp ix b =>
    show (TxHalf.stb sp ix b e t).Inv; unfold TxHalf.stb
    split
    · exact h.answer _
    · rename_i x hx
      obtain ⟨-, h1, h2⟩ := Space.target_some hx
      refine TxHalf.Inv.answer (h.store ?_ _ _ ?_) _
      · rintro rfl; cases h1
      · simpa using h2
  | crcInit => exact ⟨h.1, h.2, h.3, h.4⟩
  | crcAcc b => exact h.replyCrc _
  | crcBuf sp off n => show (TxHalf.crcBuf sp off n e t).Inv; unfold TxHalf.crcBuf; split <;> [exact h.answer _; exact h.replyCrc _]
  | encV1 =>
    show (TxHalf.encV1 e t).Inv; unfold TxHalf.encV1
    split
    · exact h.answer _
    · refine h.finishEncode _ ?_
      rw [buildV1_length, TxHalf.payload_length]; omega
  | encV2U => exact h.finishEncode _ (by rw [buildV2U_length]; omega)
  | encV2S => exact h.finishEncode _ (by rw [buildV2S_length]; omega)
  | txSend =>
    show (TxHalf.txSend e t).Inv; unfold TxHalf.txSend
    split
    · exact h.answer _
    · rename_i hv
      exact h.send (by simpa using hv) e t.sink
  | decV1 | decV2 | rxChk _ | sigVfy | syncNext | syncDrop | syncConnect => exact h.answer _

/-! ### The RX half -/

theorem RxHalf.reset_inv : RxHalf.reset.Inv := by
  constructor <;> first | exact Spaces.reset_inv | trivial | (intro h; cases h)

theorem RxHalf.Inv.answer {r : RxHalf} (h : r.Inv) (x : Response) : (r.answer x).Inv :=
  ⟨h.1, h.2, h.3, h.4, h.5, h.6, h.7, h.8, h.9, h.10, h.11, h.12, h.13, h.14, h.15⟩

theorem RxHalf.Inv.queue {r : RxHalf} (h : r.Inv) (q : List CmdWord) : { r with queue := q }.Inv :=
  ⟨h.1, h.2, h.3, h.4, h.5, h.6, h.7, h.8, h.9, h.10, h.11, h.12, h.13, h.14, h.15⟩

theorem RxHalf.Inv.crcacc {r : RxHalf} (h : r.Inv) (c : BitVec 16) : { r with crcacc := c }.Inv :=
  ⟨h.1, h.2, h.3, h.4, h.5, h.6, h.7, h.8, h.9, h.10, h.11, h.12, h.13, h.14, h.15⟩

theorem RxHalf.Inv.rxlen {r : RxHalf} (h : r.Inv) (n : BitVec 9) (hn : n.toNat ≤ 280) : { r with rxlen := n }.Inv :=
  ⟨h.1, hn, h.3, h.4, h.5, h.6, h.7, h.8, h.9, h.10, h.11, h.12, h.13, h.14, h.15⟩

/-- The register a `WRR` of the RX channel may write. -/
theorem RxReg.target_some {n : BitVec 8} {v : BitVec 48} {x : RxReg} (h : RxReg.target n v = some x) :
    (x = .crcacc ∧ v.toNat < 2 ^ 16) ∨ (x = .rxlen ∧ v.toNat ≤ 280) := by
  unfold RxReg.target at h
  cases ho : RxReg.ofNumber n with
  | none => rw [ho] at h; cases h
  | some y =>
    rw [ho] at h
    dsimp only at h
    split at h
    · rename_i hc
      cases h
      cases x <;> simp [RxReg.writable, RxReg.width, Config.maxFrame] at hc ⊢
      · exact of_decide_eq_true hc
      · exact Nat.le_of_not_lt (of_decide_eq_false hc.2)
    · cases h

/-- Storing to the frame buffer or the key. -/
theorem RxHalf.Inv.store {r : RxHalf} (h : r.Inv) {sp : Space} (hs : sp ≠ .pay) (i : Nat) (bs : Bytes)
    (hi : i + bs.length ≤ sp.size) : { r with mem := r.mem.memWrite sp i bs }.Inv := by
  have hp : (r.mem.memWrite sp i bs).pay = r.mem.pay := by cases sp <;> first | rfl | exact absurd rfl hs
  refine ⟨Spaces.memWrite_inv _ _ _ _ h.mem hi, h.2, h.3, h.4, h.5, h.6, ?_, ?_, h.9, h.10, h.11, h.12, h.13, h.14, h.15⟩
  · simp only [hp]; exact h.frame_pay
  · simp only [hp]; exact h.frame_zeros

theorem RxHalf.Inv.clearFrame {r : RxHalf} (h : r.Inv) : r.clearFrame.Inv := by
  refine ⟨h.1, h.2, h.3, h.4, h.5, fun h' => (by cases h'), fun h' => (by cases h'), fun h' => (by cases h'),
    fun h' => (by cases h'), fun h' => (by cases h'), fun h' => (by cases h'), h.12, fun h' => (by cases h'), h.14, ?_⟩
  have := h.held_ok
  unfold RxHalf.heldOk at this ⊢
  simp only [clearFrame_held, clearFrame_closed, clearFrame_frame, clearFrame_stream, clearFrame_tent]
  split <;> simp_all

/-- A decoded frame stored while no command is held. -/
theorem RxHalf.Inv.storeFrame {r : RxHalf} (h : r.Inv) (hh : r.held = none) {f : Frame} (hf : f.Ok) : (r.storeFrame f).Inv := by
  have hl := byte_toNat_le f.len
  have hp : f.payload.length ≤ 255 := by rw [hf.payload_length]; exact hl
  have hz := zeroExtend_length f.payload hp
  have hg : ∀ k, k < 255 → (r.storeFrame f).mem.pay.get? k = some (if k < f.payload.length then byteAt f.payload k else 0) := by
    intro k hk
    rw [storeFrame_mem, Spaces.memWrite_pay]
    simp only [Memory.get?_write, hz, Nat.zero_le, true_and, Nat.zero_add, if_pos hk, Nat.sub_zero]
    exact zeroExtend_getElem? _ _ hk
  refine ⟨Spaces.memWrite_inv r.mem .pay 0 _ h.mem (by rw [hz]; decide), h.2, h.3, h.4, ?_, ?_, ?_, ?_, ?_, ?_, ?_, ?_, ?_, h.14, ?_⟩
  · cases hv : f.ver <;> simp [hv, Ver.number]
  · intro _; cases hv : f.ver <;> simp [hv, Ver.number]
  · intro _ k hk; rw [hg k hk]; rfl
  · intro _ k hk hk'
    rw [hg k hk', if_neg]
    rw [hf.payload_length]; simpa using hk
  · intro h'; cases h'
  · intro h'; cases h'
  · intro hs
    refine ⟨rfl, ?_⟩
    cases hv : f.ver with
    | v1 => rw [storeFrame_signed, (hf.v1_fields hv).2.2.2] at hs; cases hs
    | v2 => simp [hv, Ver.number]
  · intro hv
    have : f.ver = .v1 := by
      cases hv' : f.ver with
      | v1 => rfl
      | v2 => rw [storeFrame_ver, hv'] at hv; cases hv
    exact ⟨(hf.v1_fields this).1, (hf.v1_fields this).2.1, (hf.v1_fields this).2.2.1⟩
  · intro _ hs
    obtain ⟨h1, h2, h3⟩ := hf.unsigned_fields hs
    refine ⟨h1, h2, ?_⟩
    rw [storeFrame_hash, h3]; rfl
  · unfold RxHalf.heldOk
    rw [storeFrame_held, hh]; trivial

theorem RxHalf.Inv.capture {r : RxHalf} (h : r.Inv) (hh : r.held = none) (v : Ver) (w : Bytes) (hw : w.length ≤ 280) :
    (r.capture v w).Inv := by
  have h1 : ({ r with mem := r.mem.memWrite .buf 0 w, rxlen := BitVec.ofNat 9 w.length } : RxHalf).Inv := by
    refine RxHalf.Inv.rxlen (h.store (sp := .buf) (by simp) 0 w (by simpa [Space.size, Config.maxFrame] using hw)) _ ?_
    simp; omega
  unfold RxHalf.capture
  dsimp only
  split
  · exact h1
  · rename_i f hf
    exact h1.storeFrame hh (decodeFrame_ok hf).1

theorem RxHalf.Inv.decodeWindow {r : RxHalf} (h : r.Inv) (hh : r.held = none) (v : Ver) (e : Nat) :
    (r.decodeWindow v e).Inv := by
  unfold RxHalf.decodeWindow
  split
  · exact h.clearFrame.answer _
  · rename_i f hf
    exact (h.clearFrame.storeFrame hh (decodeFrame_ok hf).1).answer _

/-- Where a scan stops, with the flags cleared. -/
theorem RxHalf.Inv.finishScan {r : RxHalf} (h : { r with stream := [], tent := 0, held := none, eos := false }.Inv)
    (hf : r.frame = false) {x : ScanResult} (hne : x.stop ≠ .failed) (hx : x.stop = attemptMarker x.stream r.closed 0)
    (he : r.eos = true → r.closed = true ∧ x.stream = []) : (r.finishScan x).Inv := by
  obtain ⟨stream, stop⟩ := x
  dsimp only at hne hx he
  cases stop with
  | failed => exact absurd rfl hne
  | ended =>
    obtain ⟨h1, h2⟩ := (attempt_ended_iff _ _).1 hx.symm
    refine RxHalf.Inv.answer ?_ _
    exact ⟨h.1, h.2, Nat.zero_le _, Nat.zero_le _, h.5, h.6, h.7, h.8, h.9, h.10, h.11, h.12, h.13, fun _ => ⟨h2, h1⟩, trivial⟩
  | found v n =>
    obtain ⟨h1, h2, -, h3, -⟩ := attempt_found hx.symm
    have he' : r.eos ≠ true := fun hr => h3 (he hr).2
    refine RxHalf.Inv.answer (RxHalf.Inv.capture ?_ rfl v _ ?_) _
    · exact ⟨h.1, h.2, h1, h2, h.5, h.6, h.7, h.8, h.9, h.10, h.11, h.12, h.13, fun h' => absurd h' he', trivial⟩
    · simp; omega
  | hold p t =>
    obtain ⟨h1, h2, h3⟩ := attempt_hold_tent hx.symm
    have he' : r.eos ≠ true := fun hr => by rw [(he hr).1] at h1; cases h1
    rw [h1] at hx
    exact ⟨h.1, h.2, h2, Nat.le_trans h3 (by decide), h.5, h.6, h.7, h.8, h.9, h.10, h.11, h.12, h.13,
      fun h' => absurd h' he', h1, hf, hx.symm⟩

theorem RxHalf.Inv.finishDrop {r : RxHalf} (h : { r with tent := 0, held := none }.Inv) (hf : r.frame = false) :
    r.finishDrop.Inv := by
  have hd : r.finishDrop = match bufRead r.stream 0 r.closed with
      | .byte _ => ({ r with tent := 1, held := none }.bufCommit).reply 0
      | .endOfStream => { r with tent := 0, held := none }.bufCommit.reply 0
      | .hold => { r with tent := 0, held := some .drop } := rfl
  rw [hd]
  by_cases hs : r.stream = []
  · by_cases hc : r.closed = true
    · rw [show bufRead r.stream 0 r.closed = .endOfStream by simp [bufRead, hs, hc]]
      refine RxHalf.Inv.answer ?_ _
      exact ⟨h.1, h.2, Nat.zero_le _, Nat.zero_le _, h.5, h.6, h.7, h.8, h.9, h.10, h.11, h.12, h.13,
        fun _ => ⟨hc, by rw [bufCommit_stream]; simp [hs]⟩, trivial⟩
    · rw [show bufRead r.stream 0 r.closed = .hold by simp [bufRead, hs, hc]]
      exact ⟨h.1, h.2, Nat.zero_le _, Nat.zero_le _, h.5, h.6, h.7, h.8, h.9, h.10, h.11, h.12, h.13, h.14,
        by simpa using hc, hf, hs, rfl⟩
  · obtain ⟨b, s, hb⟩ := List.exists_cons_of_ne_nil hs
    rw [show bufRead r.stream 0 r.closed = .byte b by simp [bufRead, hb]]
    refine RxHalf.Inv.answer ?_ _
    exact ⟨h.1, h.2, Nat.zero_le _, Nat.zero_le _, h.5, h.6, h.7, h.8, h.9, h.10, h.11, h.12, h.13,
      fun h' => absurd (h.14 h').2 hs, trivial⟩

/-- A held command goes on: from the invariant, after the source has moved. -/
theorem RxHalf.Inv.resume {r : RxHalf} (h : { r with stream := [], tent := 0, held := none, eos := false }.Inv)
    (hf : r.held ≠ none → r.frame = false) (he : r.eos = true → r.closed = true ∧ r.stream = [])
    (hn : r.held = none → r.tent ≤ r.stream.length ∧ r.tent ≤ 280)
    (hp : ∀ p, r.held = some (.scan p) → scanFrom r.stream r.closed r.tent p = scan r.closed r.stream) : r.resume.Inv := by
  unfold RxHalf.resume
  split
  · rename_i hh
    refine ⟨h.1, h.2, (hn hh).1, (hn hh).2, h.5, h.6, h.7, h.8, h.9, h.10, h.11, h.12, h.13, he, ?_⟩
    unfold RxHalf.heldOk; rw [hh]; trivial
  · rename_i p hh
    rw [hp p hh]
    obtain ⟨⟨g, hg⟩, h1, h2⟩ := scan_spec r.closed r.stream
    refine RxHalf.Inv.finishScan h (hf (by simp [hh])) h1 h2 fun h' => ⟨(he h').1, ?_⟩
    have := (he h').2
    rw [this, scan_nil]
  · rename_i hh
    refine RxHalf.Inv.finishDrop ?_ (hf (by simp [hh]))
    exact ⟨h.1, h.2, Nat.zero_le _, Nat.zero_le _, h.5, h.6, h.7, h.8, h.9, h.10, h.11, h.12, h.13, he, trivial⟩

/-- The RX half apart from its stream. -/
theorem RxHalf.Inv.core {r : RxHalf} (h : r.Inv) : { r with stream := [], tent := 0, held := none, eos := false }.Inv :=
  ⟨h.1, h.2, Nat.zero_le _, Nat.zero_le _, h.5, h.6, h.7, h.8, h.9, h.10, h.11, h.12, h.13, fun h' => (by cases h'), trivial⟩

theorem RxHalf.Inv.held_frame {r : RxHalf} (h : r.Inv) (hh : r.held ≠ none) : r.frame = false ∧ r.closed = false := by
  have := h.held_ok
  unfold RxHalf.heldOk at this
  split at this
  · rename_i h'; exact absurd h' hh
  · exact ⟨this.2.1, this.1⟩
  · exact ⟨this.2.1, this.1⟩

/-- A held scan, after the source has moved, goes on as a scan of the whole stream. -/
theorem RxHalf.Inv.held_scan {r : RxHalf} (h : r.Inv) {p : Phase} (hh : r.held = some (.scan p)) (u : Bytes) (closed : Bool) :
    scanFrom (r.stream ++ u) closed r.tent p = scan closed (r.stream ++ u) := by
  have := h.held_ok
  unfold RxHalf.heldOk at this
  rw [hh] at this
  obtain ⟨-, -, ha⟩ := this
  have hs : scan false r.stream = ⟨r.stream, .hold p r.tent⟩ := by
    rw [scan_stops (by rw [ha]; simp), ha]
  rw [scan_restart (p := p) (t := r.tent) r.stream u closed (by rw [hs]), hs]

theorem RxHalf.Inv.deliver {r : RxHalf} (h : r.Inv) (b : Byte) : (r.deliver b).Inv := by
  unfold RxHalf.deliver
  split
  · exact h
  · rename_i hc
    refine RxHalf.Inv.resume ?_ (fun hh => (h.held_frame hh).1) ?_ ?_ ?_
    · exact h.core
    · intro h'; exact absurd (h.eos_closed h').1 hc
    · intro _; exact ⟨Nat.le_trans h.tent_le (by simp), h.tent_bound⟩
    · intro p hh; exact h.held_scan hh [b] r.closed

theorem RxHalf.Inv.close {r : RxHalf} (h : r.Inv) : r.close.Inv := by
  unfold RxHalf.close
  refine RxHalf.Inv.resume ?_ (fun hh => (h.held_frame hh).1) ?_ ?_ ?_
  · exact ⟨h.1, h.2, Nat.zero_le _, Nat.zero_le _, h.5, h.6, h.7, h.8, h.9, h.10, h.11, h.12, h.13, fun h' => (by cases h'), trivial⟩
  · intro h'; exact ⟨rfl, (h.eos_closed h').2⟩
  · intro _; exact ⟨h.tent_le, h.tent_bound⟩
  · intro p hh; simpa using h.held_scan hh [] true

/-- Every command that the half accepts keeps the RX half's invariant. -/
theorem RxHalf.Inv.effect {r : RxHalf} (h : r.Inv) (hh : r.held = none) (i : Instr) (e : Nat) : (rxEffect i e r).Inv := by
  cases i with
  | rdr reg => show (RxHalf.rdr reg e r).Inv; unfold RxHalf.rdr; split <;> exact h.answer _
  | wrr reg v =>
    show (RxHalf.wrr reg v e r).Inv; unfold RxHalf.wrr
    split
    · exact h.answer _
    · rename_i x hx
      rcases RxReg.target_some hx with ⟨rfl, -⟩ | ⟨rfl, hv⟩
      · exact (h.crcacc _).answer _
      · refine (h.rxlen _ ?_).answer _
        simp; omega
  | ldb sp ix => show (RxHalf.ldb sp ix e r).Inv; unfold RxHalf.ldb; split <;> exact h.answer _
  | stb sp ix b =>
    show (RxHalf.stb sp ix b e r).Inv; unfold RxHalf.stb
    split
    · exact h.answer _
    · rename_i x hx
      obtain ⟨-, h1, h2⟩ := Space.target_some hx
      refine RxHalf.Inv.answer (h.store ?_ _ _ ?_) _
      · rintro rfl; cases h1
      · simpa using h2
  | crcInit => exact (h.crcacc _).answer _
  | crcAcc b => exact (h.crcacc _).answer _
  | crcBuf sp off n => show (RxHalf.crcBuf sp off n e r).Inv; unfold RxHalf.crcBuf; split <;> [exact h.answer _; exact (h.crcacc _).answer _]
  | encV1 | encV2U | encV2S | txSend => exact h.answer _
  | decV1 => exact h.decodeWindow hh .v1 e
  | decV2 => exact h.decodeWindow hh .v2 e
  | rxChk seed =>
    show (RxHalf.rxChk seed e r).Inv; unfold RxHalf.rxChk
    split
    · exact h.answer _
    · rename_i hf
      refine RxHalf.Inv.answer ?_ _
      exact ⟨h.1, h.2, h.3, h.4, h.5, h.6, h.7, h.8, fun _ => by simpa using hf, h.10, h.11, h.12, h.13, h.14, h.15⟩
  | sigVfy =>
    show (RxHalf.sigVfy e r).Inv; unfold RxHalf.sigVfy
    split
    · exact h.answer _
    · split
      · exact h.answer _
      · rename_i hs
        refine RxHalf.Inv.answer ?_ _
        refine ⟨h.1, h.2, h.3, h.4, h.5, h.6, h.7, h.8, h.9, fun _ => ?_, h.11, h.12, h.13, h.14, h.15⟩
        simp at hs; exact hs.2
  | syncNext =>
    refine RxHalf.Inv.resume (r := { r.clearFrame.bufCommit with held := some (.scan .marker) }) ?_ (fun _ => rfl) ?_ ?_ ?_
    · exact h.clearFrame.core
    · intro h'
      obtain ⟨h1, h2⟩ := h.eos_closed h'
      exact ⟨h1, by simp [RxHalf.bufCommit, h2]⟩
    · intro h'; cases h'
    · intro p hp; cases hp; exact scanFrom_marker _ _
  | syncDrop =>
    refine RxHalf.Inv.resume (r := { r.clearFrame.bufRollback with held := some .drop }) ?_ (fun _ => rfl) ?_ ?_ ?_
    · exact h.clearFrame.core
    · exact h.eos_closed
    · intro h'; cases h'
    · intro p hp; cases hp
  | syncConnect =>
    refine RxHalf.Inv.answer ?_ _
    have h := h.clearFrame
    refine ⟨h.1, h.2, Nat.zero_le _, Nat.zero_le _, h.5, h.6, h.7, h.8, h.9, h.10, h.11, h.12, h.13, fun h' => (by cases h'), ?_⟩
    unfold RxHalf.heldOk
    simp only [clearFrame_held, hh]

end Sys2Proof.Machine
end

