-- ==== Sys2Proof/Laws/PerInstr.lean ====
section
/-! SUPPORT. For every command: its word carries the opcode of its row of 30_encoding.md R96, and its format's must-be-zero bits
(R98) are zero. -/

namespace Sys2Proof

/-! ### The fields of a word made of its fields -/

theorem opField_mkWord (op a : BitVec 8) (imm : BitVec 48) : opField (mkWord op a imm) = op := by
  unfold opField mkWord
  apply BitVec.eq_of_getLsbD_eq
  intro k hk
  have h1 : ¬ (56 + k < 48) := by omega
  have h2 : 56 + k - 48 = 8 + k := by omega
  rw [BitVec.getLsbD_extractLsb']
  simp only [BitVec.getLsbD_append]
  simp [hk, h1, h2]

theorem aField_mkWord (op a : BitVec 8) (imm : BitVec 48) : aField (mkWord op a imm) = a := by
  unfold aField mkWord
  apply BitVec.eq_of_getLsbD_eq
  intro k hk
  rw [BitVec.getLsbD_extractLsb']
  simp only [BitVec.getLsbD_append]
  simp [hk]

theorem immField_mkWord (op a : BitVec 8) (imm : BitVec 48) : immField (mkWord op a imm) = imm := by
  unfold immField mkWord
  apply BitVec.eq_of_getLsbD_eq
  intro k hk
  rw [BitVec.getLsbD_extractLsb']
  simp only [BitVec.getLsbD_append]
  simp [hk]

/-- The high part of two fields. -/
theorem extract_high {n m : Nat} (x : BitVec n) (y : BitVec m) : (x ++ y).extractLsb' m n = x := by
  apply BitVec.eq_of_getLsbD_eq
  intro k hk
  simp [BitVec.getLsbD_append, hk]

/-- The high part of three fields. -/
theorem extract_high3 {n m p : Nat} (x : BitVec n) (y : BitVec m) (z : BitVec p) :
    (x ++ y ++ z).extractLsb' (p + m) n = x := by
  apply BitVec.eq_of_getLsbD_eq
  intro k hk
  have h1 : ¬ (p + m + k < p) := by omega
  have h2 : p + m + k - p = m + k := by omega
  simp [BitVec.getLsbD_append, hk, h1, h2]

end Sys2Proof

namespace Sys2Proof.Laws.EncodeMatchesRow

/-- The command's word has its row's opcode, and its must-be-zero bits are zero. -/
def Statement (i : Instr) : Prop :=
  opField (encode i) = i.opcode.code ∧ i.opcode.format.zerosOk (aField (encode i)) (immField (encode i)) = true

/-- It is enough to look at the operand fields. -/
theorem of_zeros {i : Instr} (h : i.opcode.format.zerosOk i.aBits i.immBits = true) : Statement i :=
  ⟨opField_mkWord _ _ _, by rw [encode, aField_mkWord, immField_mkWord]; exact h⟩

theorem rdr (reg : BitVec 8) : Statement (.rdr reg) := of_zeros rfl

theorem wrr (reg : BitVec 8) (value : BitVec 48) : Statement (.wrr reg value) := of_zeros rfl

theorem ldb (space : BitVec 8) (index : BitVec 16) : Statement (.ldb space index) :=
  of_zeros (decide_eq_true (extract_high 0#32 index))

theorem stb (space : BitVec 8) (index : BitVec 16) (byte : Byte) : Statement (.stb space index byte) :=
  of_zeros (decide_eq_true (extract_high3 0#24 index byte))

theorem crcInit : Statement .crcInit := of_zeros rfl

theorem crcAcc (byte : Byte) : Statement (.crcAcc byte) :=
  of_zeros (decide_eq_true (extract_high 0#40 byte))

theorem crcBuf (space : BitVec 8) (off n : BitVec 16) : Statement (.crcBuf space off n) :=
  of_zeros (decide_eq_true (extract_high3 0#16 off n))

theorem encV1 : Statement .encV1 := of_zeros rfl

theorem encV2U : Statement .encV2U := of_zeros rfl

theorem encV2S : Statement .encV2S := of_zeros rfl

theorem txSend : Statement .txSend := of_zeros rfl

theorem decV1 : Statement .decV1 := of_zeros rfl

theorem decV2 : Statement .decV2 := of_zeros rfl

theorem rxChk (seed : Byte) : Statement (.rxChk seed) :=
  of_zeros (decide_eq_true (extract_high 0#40 seed))

theorem sigVfy : Statement .sigVfy := of_zeros rfl

theorem syncNext : Statement .syncNext := of_zeros rfl

theorem syncDrop : Statement .syncDrop := of_zeros rfl

theorem syncConnect : Statement .syncConnect := of_zeros rfl

end Sys2Proof.Laws.EncodeMatchesRow
end

