-- ==== Sys2Proof/Tests/Slice0.lean ====
section
/-! SUPPORT. The model's own tests: the well-formedness smoke tests, words decoded as 30_encoding.md and 95_test_vectors.md
write them, one or two single steps per command with the responses of 95_test_vectors.md, and for every statement with
hypotheses a state and operands that meet them. -/

namespace Sys2Proof.Tests

open Sys2Proof Sys2Proof.Machine

set_option Elab.async false

/-! ### Well-formedness: a command on the channel that R96 does not give it -/

theorem test_wf_encoders_not_on_rx :
    (Instr.encV1).wellFormed .rx = false ∧ (Instr.encV2U).wellFormed .rx = false ∧
      (Instr.encV2S).wellFormed .rx = false ∧ (Instr.txSend).wellFormed .rx = false := by decide

theorem test_wf_decoders_not_on_tx :
    (Instr.decV1).wellFormed .tx = false ∧ (Instr.decV2).wellFormed .tx = false ∧
      (Instr.rxChk 50).wellFormed .tx = false ∧ (Instr.sigVfy).wellFormed .tx = false := by decide

theorem test_wf_scanner_not_on_tx :
    (Instr.syncNext).wellFormed .tx = false ∧ (Instr.syncDrop).wellFormed .tx = false ∧
      (Instr.syncConnect).wellFormed .tx = false := by decide

theorem test_wf_access_and_crc_on_both :
    (∀ c, (Instr.rdr 0xFF).wellFormed c = true ∧ (Instr.wrr 0 0).wellFormed c = true) ∧
      ∀ c, (Instr.crcBuf 3 0 0).wellFormed c = true ∧ (Instr.crcInit).wellFormed c = true :=
  ⟨fun _ => ⟨rfl, rfl⟩, fun _ => ⟨rfl, rfl⟩⟩

/-! ### Decoding: one word per command, from 95_test_vectors.md and R98 -/

theorem test_decode_rdr : decode 0x0110000000000000 = .instr (.rdr 0x10) := by decide
theorem test_decode_wrr : decode 0x020A123456789ABC = .instr (.wrr 0x0A 0x123456789ABC) := by decide
theorem test_decode_ldb : decode 0x0301000000000118 = .instr (.ldb 1 280) := by decide
theorem test_decode_stb : decode 0x0402000000001F01 = .instr (.stb 2 31 1) := by decide
theorem test_decode_crcInit : decode 0x1000000000000000 = .instr .crcInit := by decide
theorem test_decode_crcAcc : decode 0x1100000000000056 = .instr (.crcAcc 0x56) := by decide
theorem test_decode_crcBuf : decode 0x1200000000FE0001 = .instr (.crcBuf 0 254 1) := by decide
theorem test_decode_encV1 : decode 0x2000000000000000 = .instr .encV1 := by decide
theorem test_decode_encV2U : decode 0x2100000000000000 = .instr .encV2U := by decide
theorem test_decode_encV2S : decode 0x2200000000000000 = .instr .encV2S := by decide
theorem test_decode_txSend : decode 0x2300000000000000 = .instr .txSend := by decide
theorem test_decode_decV1 : decode 0x3000000000000000 = .instr .decV1 := by decide
theorem test_decode_decV2 : decode 0x3100000000000000 = .instr .decV2 := by decide
theorem test_decode_rxChk : decode 0x320000000000007B = .instr (.rxChk 0x7B) := by decide
theorem test_decode_sigVfy : decode 0x3300000000000000 = .instr .sigVfy := by decide
theorem test_decode_syncNext : decode 0x4000000000000000 = .instr .syncNext := by decide
theorem test_decode_syncDrop : decode 0x4100000000000000 = .instr .syncDrop := by decide
theorem test_decode_syncConnect : decode 0x4200000000000000 = .instr .syncConnect := by decide

/-- V-ILL: opcodes that are not assigned. -/
theorem test_decode_unknown :
    decode 0x0000000000000000 = .illegal (.unknownOpcode 0x00) ∧ decode 0xFF00000000000000 = .illegal (.unknownOpcode 0xFF) ∧
      decode 0x0500000000000000 = .illegal (.unknownOpcode 0x05) ∧ decode 0x4300000000000000 = .illegal (.unknownOpcode 0x43) := by
  decide

/-- V-ILL: a must-be-zero bit of each format. -/
theorem test_decode_must_be_zero :
    decode 0x1000000000000001 = .illegal (.mustBeZero .crcInit) ∧ decode 0x1001000000000000 = .illegal (.mustBeZero .crcInit) ∧
      decode 0x0102000000000001 = .illegal (.mustBeZero .rdr) ∧ decode 0x1100000000000100 = .illegal (.mustBeZero .crcAcc) ∧
      decode 0x1101000000000031 = .illegal (.mustBeZero .crcAcc) ∧ decode 0x0300000000010000 = .illegal (.mustBeZero .ldb) ∧
      decode 0x0400000001000000 = .illegal (.mustBeZero .stb) ∧ decode 0x1200000100000000 = .illegal (.mustBeZero .crcBuf) := by
  decide

/-- The words of P1 to P5 that an encoder must give. -/
theorem test_encode :
    encode (.stb 0 8 3) = 0x0400000000000803 ∧ encode (.wrr 0x0A 0x123456789ABC) = 0x020A123456789ABC ∧
      encode (.crcBuf 1 1 14) = 0x120100000001000E ∧ encode (.rxChk 50) = 0x3200000000000032 ∧
      encode (.ldb 0 4) = 0x0300000000000004 := by decide

theorem test_table_word :
    decodeTableWord 64 0x120100000001000E = some (.crcBuf 1 1 14) ∧ decodeTableWord 64 0x0500000000000000 = none := by decide

/-! ### Small states -/

/-- The state of an outcome; a stop leaves the state as it was. -/
def after (s : State) (i : Instr) : State := (nextState (exec i s)).getD s

/-- The last response on the TX channel. -/
def txSays (s : State) : Option Response := s.tx.responses.getLast?

/-- The last response on the RX channel. -/
def rxSays (s : State) : Option Response := s.rx.responses.getLast?

/-- Frame A of 95_test_vectors.md. -/
def frameA : Bytes := [0xFE, 0x09, 0x00, 0x01, 0x01, 0x00, 0x00, 0x00, 0x00, 0x00, 0x02, 0x03, 0x51, 0x04, 0x03, 0x7D, 0xDD]

/-- Frame C. -/
def frameC : Bytes := [0xFD, 0x03, 0x00, 0x00, 0x2A, 0x01, 0xC8, 0x45, 0x23, 0x01, 0x01, 0x02, 0x03, 0xA0, 0x96]

/-- Frame G. -/
def frameG : Bytes :=
  [0xFD, 0x03, 0x01, 0x00, 0x2A, 0x01, 0xC8, 0x45, 0x23, 0x01, 0x01, 0x02, 0x03, 0xF5, 0x13, 0x07, 0xBC, 0x9A] ++
    [0x78, 0x56, 0x34, 0x12, 0x56, 0xAF, 0x24, 0x3E, 0x35, 0x85]

/-- Key K1. -/
def keyK1 : Bytes := (List.range 32).map fun i => BitVec.ofNat 8 i

/-- Key K2. -/
def keyK2 : Bytes := (List.range 32).map fun i => BitVec.ofNat 8 (255 - i)

/-- A machine whose turn it is to run a command of the TX channel. -/
def onTxChan (t : TxHalf) : State := { State.reset with tx := t, chan := .tx }

/-- A machine whose turn it is to run a command of the RX channel. -/
def onRxChan (r : RxHalf) : State := { State.reset with rx := r, chan := .rx }

/-- The operands of V-ENC-1. -/
def txA : TxHalf :=
  { TxHalf.reset with
    sys := 1, comp := 1, seed := 50, plen := 9
    mem := { Spaces.reset with pay := Memory.cells 0 [0, 0, 0, 0, 2, 3, 0x51, 4, 3] } }

/-- The operands of V-ENC-3 and V-ENC-6. -/
def txC : TxHalf :=
  { TxHalf.reset with
    seq := 0x2A, sys := 1, comp := 0xC8, msgid := 0x012345, seed := 0x7B, plen := 5, linkid := 7, ts := 0x123456789ABC
    mem := { Spaces.reset with pay := Memory.cells 0 [1, 2, 3, 0, 0], key := Memory.cells 0 keyK1 } }

/-- Bytes in `R.RXBUF` with `RXLEN`, and a key in `R.RXKEY`. -/
def rxBuf (f key : Bytes) : RxHalf :=
  { RxHalf.reset with
    rxlen := BitVec.ofNat 9 f.length
    mem := { Spaces.reset with buf := Memory.cells 0 f, key := Memory.cells 0 key } }

/-- A stream. -/
def rxStream (s : Bytes) (closed : Bool) : RxHalf := { RxHalf.reset with stream := s, closed := closed }

/-- The first bytes of `T.TXBUF`. -/
def txBufOf (s : State) (n : Nat) : Bytes := s.tx.mem.memRead s.epoch .tx .buf 0 n

/-! ### Single steps, with the responses of 95_test_vectors.md -/

/-- V-ACC-1. -/
theorem test_rdr_crcacc : txSays (after (onTxChan TxHalf.reset) (.rdr 0x02)) = some ⟨.ok, 0xFFFF⟩ := by decide
theorem test_rdr_no_such_rx : rxSays (after (onRxChan RxHalf.reset) (.rdr 0x01)) = some ⟨.badarg, 0⟩ := by decide

/-- V-ACC-2. -/
theorem test_wrr_seq_too_wide :
    after (onTxChan txA) (.wrr 0x03 0x100) = onTxChan { txA with responses := [⟨.badarg, 0⟩] } := by decide
theorem test_wrr_rxlen :
    (after (onRxChan RxHalf.reset) (.wrr 0x1C 280)).rx.rxlen = 280 ∧
      rxSays (after (onRxChan RxHalf.reset) (.wrr 0x1C 281)) = some ⟨.badarg, 0⟩ := by decide

/-- V-ACC-3. -/
theorem test_stb_then_ldb :
    txSays (after (after (onTxChan TxHalf.reset) (.stb 0 254 0xAB)) (.ldb 0 254)) = some ⟨.ok, 0xAB⟩ := by decide +kernel
theorem test_ldb_key : txSays (after (onTxChan txC) (.ldb 2 0)) = some ⟨.badarg, 0⟩ := by decide
theorem test_stb_txbuf : txSays (after (onTxChan TxHalf.reset) (.stb 1 0 0)) = some ⟨.badarg, 0⟩ := by decide

/-- V-CRC-6, steps 2, 3, 5 and 9. -/
theorem test_crcAcc : txSays (after (onTxChan TxHalf.reset) (.crcAcc 0xAB)) = some ⟨.ok, 0x145E⟩ := by decide +kernel
theorem test_crcInit :
    (after (onRxChan { RxHalf.reset with crcacc := 0x145E }) .crcInit).rx.crcacc = 0xFFFF := by decide
theorem test_crcBuf_last :
    txSays (after (after (onTxChan TxHalf.reset) (.stb 0 254 0xAB)) (.crcBuf 0 254 1)) = some ⟨.ok, 0x145E⟩ := by decide +kernel
theorem test_crcBuf_wrap : txSays (after (onTxChan TxHalf.reset) (.crcBuf 0 65535 65535)) = some ⟨.badarg, 0⟩ := by decide

/-- V-CRC-3: the check value. -/
theorem test_crc_check_value : crc16 [0x31, 0x32, 0x33, 0x34, 0x35, 0x36, 0x37, 0x38, 0x39] = 0x6F91 := by decide +kernel

/-- V-ENC-1. -/
theorem test_encV1 :
    txBufOf (after (onTxChan txA) .encV1) 17 = frameA ∧ (after (onTxChan txA) .encV1).tx.crcacc = 0xDD7D ∧
      txSays (after (onTxChan txA) .encV1) = some ⟨.ok, 17⟩ := by decide +kernel

/-- V-ENC-10. -/
theorem test_encV1_range :
    after (onTxChan { txA with msgid := 0x100 }) .encV1 = onTxChan { txA with msgid := 0x100, responses := [⟨.range, 0⟩] } := by
  decide

/-- V-ENC-3 and V-ENC-4. -/
theorem test_encV2U : txBufOf (after (onTxChan txC) .encV2U) 15 = frameC := by decide +kernel
theorem test_encV2U_no_truncation :
    (txBufOf (after (onTxChan { txC with truncEn := false }) .encV2U) 17).drop 10 = [1, 2, 3, 0, 0, 0x87, 0x82] := by
  decide +kernel

/-- V-ENC-6. -/
theorem test_encV2S : txBufOf (after (onTxChan txC) .encV2S) 28 = frameG := by decide +kernel

/-- P6. -/
theorem test_txSend_fails :
    (after (onTxChan { (after (onTxChan txA) .encV1).tx with sink := [.failsAfter 5] }) .txSend).tx.out = frameA.take 5 ∧
      txSays (after (onTxChan { (after (onTxChan txA) .encV1).tx with sink := [.failsAfter 5] }) .txSend) =
        some ⟨.ioerr, 5⟩ := by decide +kernel

/-- P1. -/
theorem test_txSend :
    (after (onTxChan { (after (onTxChan txA) .encV1).tx with sink := [.takesAll] }) .txSend).tx.out = frameA := by
  decide +kernel

/-- V-DEC-1 and V-DEC-2. -/
theorem test_decV1 :
    (after (onRxChan (rxBuf frameA [])) .decV1).rx.cksum = 0xDD7D ∧
      (after (onRxChan (rxBuf frameA [])) .decV1).rx.mem.memRead 0 .rx .pay 0 11 = [0, 0, 0, 0, 2, 3, 0x51, 4, 3, 0, 0] := by
  decide +kernel
theorem test_decV1_short : rxSays (after (onRxChan (rxBuf (frameA.take 16) [])) .decV1) = some ⟨.format, 0⟩ := by
  decide +kernel

/-- V-DEC-7 and V-DEC-6. -/
theorem test_decV2 :
    (after (onRxChan (rxBuf frameG [])) .decV2).rx.hash = 0x85353E24AF56 ∧
      (after (onRxChan (rxBuf frameG [])) .decV2).rx.ts = 0x123456789ABC ∧
      (after (onRxChan (rxBuf frameG [])) .decV2).rx.statusWord = 0x11 := by decide +kernel
theorem test_decV2_short : rxSays (after (onRxChan (rxBuf (frameC.set 2 1) [])) .decV2) = some ⟨.format, 0⟩ := by
  decide +kernel

/-- V-CHK-1 and V-CHK-4. -/
theorem test_rxChk :
    rxSays (after (after (onRxChan (rxBuf frameA [])) .decV1) (.rxChk 50)) = some ⟨.ok, 1⟩ := by decide +kernel
theorem test_rxChk_corrupted :
    rxSays (after (after (onRxChan (rxBuf (frameA.set 8 0x10) [])) .decV1) (.rxChk 50)) = some ⟨.ok, 0⟩ ∧
      (after (after (onRxChan (rxBuf (frameA.set 8 0x10) [])) .decV1) (.rxChk 50)).rx.crcacc = 0x8605 := by decide +kernel

/-- V-SHA-2. -/
theorem test_sha256_abc :
    (sha256 [0x61, 0x62, 0x63]).take 8 = [0xba, 0x78, 0x16, 0xbf, 0x8f, 0x01, 0xcf, 0xea] ∧
      (sha256 [0x61, 0x62, 0x63]).drop 28 = [0xf2, 0x00, 0x15, 0xad] := by decide +kernel

/-- V-SHA-5, two blocks. -/
theorem test_sha256_two_blocks :
    (sha256 (List.replicate 56 0x61)).take 4 = [0xb3, 0x54, 0x39, 0xa4] := by decide +kernel

/-- V-SIG-2 and V-SIG-3. -/
theorem test_sigVfy :
    rxSays (after (after (onRxChan (rxBuf frameG keyK1)) .decV2) .sigVfy) = some ⟨.ok, 1⟩ := by decide +kernel
theorem test_sigVfy_wrong_key :
    rxSays (after (after (onRxChan (rxBuf frameG keyK2)) .decV2) .sigVfy) = some ⟨.ok, 0⟩ := by decide +kernel

/-- V-SYNC-1. -/
theorem test_syncNext :
    rxSays (after (onRxChan (rxStream (0x55 :: frameA) true)) .syncNext) = some ⟨.ok, 17⟩ ∧
      (after (onRxChan (rxStream (0x55 :: frameA) true)) .syncNext).rx.stream = frameA ∧
      (after (onRxChan (rxStream (0x55 :: frameA) true)) .syncNext).rx.tent = 17 := by decide +kernel

/-- V-SYNC-9 (a). -/
theorem test_syncNext_holds :
    (after (onRxChan (rxStream (frameA.take 10) false)) .syncNext).rx.held = some (.scan (.body .v1 15)) ∧
      (after (onRxChan (rxStream (frameA.take 10) false)) .syncNext).rx.tent = 2 := by decide +kernel

/-- V-SYNC-10. -/
theorem test_syncDrop : (after (onRxChan (rxStream [1, 2, 0xFE] true)) .syncDrop).rx.stream = [2, 0xFE] := by decide
theorem test_syncConnect :
    after (onRxChan { rxStream [1, 2] true with eos := true, frame := true, tent := 1 }) .syncConnect =
      onRxChan { rxStream [] false with responses := [⟨.ok, 0⟩] } := by decide

/-- V-ILL: words that decode, on the wrong channel. -/
theorem test_wrong_channel :
    after (onTxChan txA) .decV1 = onTxChan { txA with responses := [⟨.illegal, 0⟩] } ∧
      after (onRxChan RxHalf.reset) .txSend = onRxChan { RxHalf.reset with responses := [⟨.illegal, 0⟩] } := by decide

/-! ### Whole steps -/

/-- A word placed where the next step runs it, on each channel. -/
theorem test_step_fetch :
    (nextState (step (State.reset.withFetchWord 64 0x11000000000000AB))).map (fun s => s.tx.responses) =
        some [⟨.ok, 0x145E⟩] ∧
      (nextState (step (State.reset.withFetchWord 64 0x4200000000000000))).map (fun s => s.rx.responses) =
        some [⟨.ok, 0⟩] := by decide +kernel

/-- A reset abandons a word that could have begun and a held command, with no response (R290, R291); behind a `wait` it comes
after the word has completed. -/
theorem test_step_reset :
    nextState (step { State.reset with tx := { txA with queue := [encode .crcInit] }, moves := [.reset, .close] }) =
        some { State.reset with epoch := 1, moves := [.close] } ∧
      (nextState (step { State.reset with tx := { txA with queue := [encode .crcInit] }, moves := [.wait, .reset] })).map
        (fun s => s.tx.responses) = some [⟨.ok, 0⟩] := by decide

/-- The halves take turns. -/
theorem test_step_turns :
    let s := { State.reset with tx := { TxHalf.reset with queue := [encode .crcInit] }, rx := { RxHalf.reset with queue := [encode .crcInit] } }
    (nextState (step s)).map (fun t => (t.tx.queue.length, t.rx.queue.length)) = some (0, 1) ∧
      (nextState (step { s with chan := .tx })).map (fun t => (t.tx.queue.length, t.rx.queue.length)) = some (1, 0) := by
  decide

/-! ### Witnesses: for every statement with hypotheses, states and operands that meet them

Where a statement has a clause per range, its boundary values are here. `Runs i s` says that `exec i s` is a next state. -/

/-- The command answers a next state. -/
def Runs (i : Instr) (s : State) : Prop := ∃ t, exec i s = .next t

theorem runs (i : Instr) (s : State) : Runs i s := ⟨_, exec_eq i s⟩

theorem test_witness_EncodeOfDecodeIsTheWord :
    decode 0x0000000000000000 ≠ .instr .crcInit ∧ decode 0x02FFFFFFFFFFFFFF = .instr (.wrr 0xFF 0xFFFFFFFFFFFF) := by decide

theorem test_witness_OperandsAreTheSlicesOfTheWord :
    decode 0x01FF000000000000 = .instr (.rdr 0xFF) ∧ decode 0x03FF00000000FFFF = .instr (.ldb 0xFF 0xFFFF) ∧
      decode 0x04FF000000FFFFFF = .instr (.stb 0xFF 0xFFFF 0xFF) ∧ decode 0x11000000000000FF = .instr (.crcAcc 0xFF) ∧
      decode 0x12FF0000FFFFFFFF = .instr (.crcBuf 0xFF 0xFFFF 0xFFFF) ∧ decode 0x32000000000000FF = .instr (.rxChk 0xFF) := by
  decide

/-- A word with no assigned opcode, on either channel. -/
theorem test_witness_IllegalWordChangesNothing :
    ∀ (c : Channel) (i : Instr), i.wellFormed c = true →
      (0x0500000000000000 : CmdWord) &&& i.opcode.format.mask ≠ (i.opcode.code.setWidth 64) <<< 56 := by
  have h : ∀ o : Opcode, (0x0500000000000000 : CmdWord) &&& o.format.mask ≠ (o.code.setWidth 64) <<< 56 := by
    intro o; cases o <;> decide
  exact fun _ i _ => h i.opcode

/-- A command's own word, on the channel where it is not legal. -/
theorem test_witness_IllegalWordChangesNothing_channel :
    ∀ i : Instr, i.wellFormed .rx = true →
      (0x2000000000000000 : CmdWord) &&& i.opcode.format.mask ≠ (i.opcode.code.setWidth 64) <<< 56 := by
  have h : ∀ o : Opcode, o ≠ .encV1 → (0x2000000000000000 : CmdWord) &&& o.format.mask ≠ (o.code.setWidth 64) <<< 56 := by
    intro o; cases o <;> decide
  intro i hi
  refine h i.opcode ?_
  cases i <;> first | (intro h; cases h; done) | cases hi

/-- Both channels, and each reason why the other one is not served, also for a word that is no command; neither half ready, with
a move to come and with none. -/
theorem test_witness_StepExecutesTheOldestIssuedCommand :
    decode (encode .crcInit) = .instr .crcInit ∧ State.reset.moves.head? ≠ some .reset ∧
      (let s := onRxChan RxHalf.reset
       let s := { s with tx := { TxHalf.reset with queue := [0xFF00000000000000] } }
       s.tx.sending = false ∧ s.tx.queue = 0xFF00000000000000 :: [] ∧ s.chan = .rx ∧
         (nextState (step s)).map (fun t => t.tx.responses) = some [⟨.illegal, 0⟩]) ∧
      (let s := onTxChan { TxHalf.reset with queue := [encode .crcInit] }
       let s := { s with rx := { RxHalf.reset with held := some .drop, queue := [0] } }
       s.tx.sending = false ∧ s.rx.held ≠ none) ∧
      (let s := onTxChan { TxHalf.reset with sending := true, queue := [0] }
       let s := { s with rx := { RxHalf.reset with queue := [encode .crcInit, 0] } }
       s.rx.held = none ∧ s.rx.queue = encode .crcInit :: [0] ∧ s.tx.sending = true) ∧
      (let s := onTxChan { TxHalf.reset with sending := true, queue := [0] }
       let s := { s with rx := { RxHalf.reset with held := some .drop, queue := [0] }, moves := [.deliver 1] }
       s.tx.sending = true ∧ s.rx.held ≠ none ∧ s.moves.head? ≠ some .reset ∧
         (nextState (step s)).map (fun t => t.rx.responses) = some [⟨.ok, 0⟩]) ∧
      State.reset.tx.queue = [] ∧ State.reset.rx.queue = [] ∧ State.reset.moves = [] := by decide

theorem test_witness_HeldChannelAcceptsNoCommand :
    let s := { onRxChan { RxHalf.reset with held := some (.scan .marker), queue := [0, 1] } with moves := [.deliver 0xFE] }
    s.isHeld .rx = true ∧ s.moves.head? ≠ some .reset ∧ (nextState (step s)).map (fun t => t.rx.queue) = some [0, 1] := by decide

/-- A command that is held, one that answers, and a move that completes the held one. -/
theorem test_witness_CommandGetsOneResponseWhenItCompletes :
    (onRxChan RxHalf.reset).isHeld .rx = false ∧
      (nextState (exec .syncNext (onRxChan RxHalf.reset))).map (fun t => (t.isHeld .rx, t.rx.responses)) = some (true, []) ∧
      (nextState (exec .crcInit (onRxChan RxHalf.reset))).map (fun t => (t.isHeld .rx, t.rx.responses)) =
        some (false, [⟨.ok, 0⟩]) ∧
      (let s := onRxChan { RxHalf.reset with held := some .drop }
       Move.close ≠ .reset ∧ s.isHeld .rx = true ∧ (s.applyMove .close).isHeld .rx = false) := by decide

theorem test_witness_CommandsAnswerOnlyTheirStatuses :
    (Instr.sigVfy).wellFormed (onRxChan RxHalf.reset).chan = true ∧
      (nextState (exec .sigVfy (onRxChan RxHalf.reset))).map (fun t => t.rx.responses) = some ([] ++ [⟨.noframe, 0⟩]) := by
  decide

/-- A held command and one that could begin. -/
theorem test_witness_ResetInputResetsBothHalves :
    let s := { onRxChan { RxHalf.reset with held := some .drop, queue := [7] } with
      tx := { txA with queue := [encode .encV1] }, moves := [.reset, .close] }
    s.moves = .reset :: [.close] ∧ s.nextCommand = some (.tx, encode .encV1) := by decide

/-- A machine that holds a signed frame, waits for the sink, and holds a `SYNC.NEXT` in the middle of frame A. -/
def busy : State :=
  { State.reset with
    tx := txEffect .txSend 0 (txEffect .encV2S 0 txC)
    rx := rxEffect .syncNext 0 (rxStream (0x55 :: frameA.take 10) false) }

theorem txC_inv : txC.Inv := by
  refine ⟨⟨?_, ?_, ?_, ?_, ?_, ?_⟩, ?_, fun h => (by cases h), fun h => (by cases h)⟩
  · exact Memory.cells_wf _ _
  · exact Memory.wf_nil
  · exact Memory.cells_wf _ _
  · intro c hc; have := (Memory.cells_addr _ _ c hc).2; simp [Config.maxPayload] at this ⊢; omega
  · intro c hc; cases hc
  · intro c hc; have := (Memory.cells_addr _ _ c hc).2; simp [Config.keyBytes, keyK1] at this ⊢; omega
  · decide

theorem rxStream_inv (s : Bytes) : (rxStream s false).Inv := by
  have h := RxHalf.reset_inv
  exact ⟨h.1, h.2, Nat.zero_le _, Nat.zero_le _, h.5, h.6, h.7, h.8, h.9, h.10, h.11, h.12, h.13, fun h' => (by cases h'), trivial⟩

theorem test_witness_EveryStepKeepsTheInvariant :
    busy.Inv ∧ (busy.rx.held = some (.scan (.body .v1 15)) ∧ busy.rx.tent = 2 ∧ busy.tx.sending = true ∧
      busy.tx.txlen = 28) ∧ (nextState (step busy)).isSome = true :=
  ⟨⟨(txC_inv.effect .encV2S 0).effect .txSend 0, (rxStream_inv (0x55 :: frameA.take 10)).effect rfl .syncNext 0⟩, by decide +kernel, by decide +kernel⟩

/-- The first and last register number without a register, on each channel. -/
theorem test_witness_RdrReadsEveryRegister :
    (onTxChan txA).chan = .tx ∧ (onRxChan RxHalf.reset).chan = .rx ∧ 0x0B < (0x0C : BitVec 8).toNat ∧
      0x0B < (0xFF : BitVec 8).toNat ∧ (0x03 ≤ (0x03 : BitVec 8).toNat ∧ (0x0F : BitVec 8).toNat ≤ 0x0F) ∧
      0x1D < (0x1E : BitVec 8).toNat ∧
      txSays (after (onTxChan txA) (.rdr 0x0B)) = some ⟨.ok, 0⟩ ∧ txSays (after (onTxChan txA) (.rdr 0x0C)) = some ⟨.badarg, 0⟩ ∧
      rxSays (after (onRxChan RxHalf.reset) (.rdr 0x1D)) = some ⟨.ok, 0⟩ ∧
      rxSays (after (onRxChan RxHalf.reset) (.rdr 0x1E)) = some ⟨.badarg, 0⟩ ∧
      rxSays (after (onRxChan RxHalf.reset) (.rdr 0x0F)) = some ⟨.badarg, 0⟩ := by decide

theorem test_witness_StatusWordsReadBitByBit :
    let r := { rxStream (List.replicate 280 0) true with tent := 280, frame := true, signed := true }
    (onRxChan r).chan = .rx ∧ r.tent ≤ 280 ∧ rxSays (after (onRxChan r) (.rdr 0x1D)) = some ⟨.ok, 280⟩ ∧
      rxSays (after (onRxChan r) (.rdr 0)) = some ⟨.ok, 0x11⟩ ∧
      (nextState (exec .decV2 (onRxChan (rxBuf frameG [])))).map (fun t => (t.rx.frame, t.rx.signed)) = some (true, true) ∧
      (nextState (exec .syncNext (onRxChan (rxStream frameG true)))).map (fun t => (t.rx.frame, t.rx.signed)) = some (true, true) ∧
      (let s := after (onRxChan (rxStream (frameG.take 20) false)) .syncNext
       let t := { s with rx := s.rx.deliverAll ((frameG.drop 20).dropLast) }
       t.rx.frame = false ∧ frameG.getLast?.map (fun b => (t.applyMove (.deliver b)).rx.signed) = some true) := by
  decide +kernel

/-- The largest value that fits each width, and the smallest that does not. -/
theorem test_witness_WrrWritesARegisterOrIsRefused :
    (∀ n v, (n, v) ∈ [((0x01 : BitVec 8), (1 : BitVec 48)), (0x02, 0xFFFF), (0x03, 0xFF), (0x09, 0xFF), (0x06, 0xFFFFFF),
        (0x0A, 0xFFFFFFFFFFFF)] → txSays (after (onTxChan txA) (.wrr n v)) = some ⟨.ok, 0⟩) ∧
      (∀ n v, (n, v) ∈ [((0x00 : BitVec 8), (0 : BitVec 48)), (0x0B, 0), (0xFF, 0), (0x01, 2), (0x02, 0x10000), (0x03, 0x100),
        (0x09, 0x100), (0x06, 0x1000000)] → txSays (after (onTxChan txA) (.wrr n v)) = some ⟨.badarg, 0⟩) ∧
      (∀ n v, (n, v) ∈ [((0x02 : BitVec 8), (0xFFFF : BitVec 48)), (0x1C, 280)] →
        rxSays (after (onRxChan RxHalf.reset) (.wrr n v)) = some ⟨.ok, 0⟩) ∧
      ∀ n v, (n, v) ∈ [((0x14 : BitVec 8), (1 : BitVec 48)), (0x02, 0x10000), (0x1C, 281)] →
        rxSays (after (onRxChan RxHalf.reset) (.wrr n v)) = some ⟨.badarg, 0⟩ := by
  refine ⟨?_, ?_, ?_, ?_⟩ <;> (intro n v h; revert h; simp only [List.mem_cons, Prod.mk.injEq, List.not_mem_nil, or_false])
  · rintro (⟨rfl, rfl⟩ | ⟨rfl, rfl⟩ | ⟨rfl, rfl⟩ | ⟨rfl, rfl⟩ | ⟨rfl, rfl⟩ | ⟨rfl, rfl⟩) <;> decide
  · rintro (⟨rfl, rfl⟩ | ⟨rfl, rfl⟩ | ⟨rfl, rfl⟩ | ⟨rfl, rfl⟩ | ⟨rfl, rfl⟩ | ⟨rfl, rfl⟩ | ⟨rfl, rfl⟩ | ⟨rfl, rfl⟩) <;> decide
  · rintro (⟨rfl, rfl⟩ | ⟨rfl, rfl⟩) <;> decide
  · rintro (⟨rfl, rfl⟩ | ⟨rfl, rfl⟩ | ⟨rfl, rfl⟩) <;> decide

/-- The last index of each readable space, the first one past it, and the spaces that cannot be read. -/
theorem test_witness_LdbAnswersTheByteOrIsRefused :
    let t := { TxHalf.reset with mem := { Spaces.reset with pay := [(254, 7)], buf := [(279, 8)] } }
    let r := { RxHalf.reset with mem := { Spaces.reset with pay := [(254, 7)], buf := [(279, 8)] } }
    txSays (after (onTxChan t) (.ldb 0 254)) = some ⟨.ok, 7⟩ ∧ txSays (after (onTxChan t) (.ldb 1 279)) = some ⟨.ok, 8⟩ ∧
      txSays (after (onTxChan t) (.ldb 0 255)) = some ⟨.badarg, 0⟩ ∧ txSays (after (onTxChan t) (.ldb 1 280)) = some ⟨.badarg, 0⟩ ∧
      txSays (after (onTxChan t) (.ldb 2 0)) = some ⟨.badarg, 0⟩ ∧
      rxSays (after (onRxChan r) (.ldb 0 254)) = some ⟨.ok, 7⟩ ∧ rxSays (after (onRxChan r) (.ldb 1 279)) = some ⟨.ok, 8⟩ ∧
      rxSays (after (onRxChan r) (.ldb 0 255)) = some ⟨.badarg, 0⟩ ∧ rxSays (after (onRxChan r) (.ldb 1 280)) = some ⟨.badarg, 0⟩ ∧
      rxSays (after (onRxChan r) (.ldb 3 0)) = some ⟨.badarg, 0⟩ := by decide +kernel

/-- The last index of each writable space, the first one past it, and the spaces that cannot be written. -/
theorem test_witness_StbStoresTheByteOrIsRefused :
    (∀ a i, (a, i) ∈ [((0 : BitVec 8), (254 : BitVec 16)), (2, 31)] →
        txSays (after (onTxChan txA) (.stb a i 1)) = some ⟨.ok, 0⟩) ∧
      (∀ a i, (a, i) ∈ [((1 : BitVec 8), (0 : BitVec 16)), (3, 0), (0, 255), (2, 32)] →
        txSays (after (onTxChan txA) (.stb a i 1)) = some ⟨.badarg, 0⟩) ∧
      (∀ a i, (a, i) ∈ [((1 : BitVec 8), (279 : BitVec 16)), (2, 31)] →
        rxSays (after (onRxChan RxHalf.reset) (.stb a i 1)) = some ⟨.ok, 0⟩) ∧
      ∀ a i, (a, i) ∈ [((0 : BitVec 8), (0 : BitVec 16)), (3, 0), (1, 280), (2, 32)] →
        rxSays (after (onRxChan RxHalf.reset) (.stb a i 1)) = some ⟨.badarg, 0⟩ := by
  refine ⟨?_, ?_, ?_, ?_⟩ <;> (intro a i h; revert h; simp only [List.mem_cons, Prod.mk.injEq, List.not_mem_nil, or_false])
  · rintro (⟨rfl, rfl⟩ | ⟨rfl, rfl⟩) <;> decide
  · rintro (⟨rfl, rfl⟩ | ⟨rfl, rfl⟩ | ⟨rfl, rfl⟩ | ⟨rfl, rfl⟩) <;> decide
  · rintro (⟨rfl, rfl⟩ | ⟨rfl, rfl⟩) <;> decide
  · rintro (⟨rfl, rfl⟩ | ⟨rfl, rfl⟩ | ⟨rfl, rfl⟩ | ⟨rfl, rfl⟩) <;> decide

theorem test_witness_RegisterCommandsLeaveTheRest :
    (onTxChan txA).chan = .tx ∧ Runs (.rdr 0) (onTxChan txA) ∧ Runs (.ldb 0 0) (onTxChan txA) ∧ Runs .crcInit (onTxChan txA) ∧
      Runs (.crcAcc 1) (onTxChan txA) ∧ Runs (.crcBuf 0 0 9) (onTxChan txA) ∧ Runs (.wrr 3 1) (onTxChan txA) ∧
      (onRxChan RxHalf.reset).chan = .rx ∧ Runs (.wrr 2 1) (onRxChan RxHalf.reset) :=
  ⟨rfl, runs _ _, runs _ _, runs _ _, runs _ _, runs _ _, runs _ _, rfl, runs _ _⟩

theorem test_witness_KeysReachTheHostOnlyThroughSignatures :
    Instr.encV2U ≠ .encV2S ∧ Instr.encV2S ≠ .sigVfy ∧ (onRxChan RxHalf.reset).chan = .rx ∧ (onTxChan txC).chan = .tx := by decide

theorem test_witness_CrcInitSetsTheAccumulator : (onTxChan txA).chan = .tx ∧ (onRxChan RxHalf.reset).chan = .rx := by decide

theorem test_witness_CrcAccAccumulatesItsByte :
    (onTxChan txA).chan = .tx ∧ rxSays (after (onRxChan RxHalf.reset) (.crcAcc 0)) = some ⟨.ok, 0x0F87⟩ := by decide +kernel

/-- Ranges that end at the end of a space, and ranges one longer (V-CRC-6). -/
theorem test_witness_CrcBufAccumulatesTheRange :
    (255 + 0 ≤ 255 ∧ 254 + 1 ≤ 255 ∧ 279 + 1 ≤ 280) ∧
      txSays (after (onTxChan txA) (.crcBuf 0 255 0)) = some ⟨.ok, 0xFFFF⟩ ∧
      rxSays (after (onRxChan RxHalf.reset) (.crcBuf 1 280 0)) = some ⟨.ok, 0xFFFF⟩ ∧
      txSays (after (onTxChan txA) (.crcBuf 0 255 1)) = some ⟨.badarg, 0⟩ ∧
      txSays (after (onTxChan txA) (.crcBuf 1 280 1)) = some ⟨.badarg, 0⟩ ∧
      rxSays (after (onRxChan RxHalf.reset) (.crcBuf 2 0 1)) = some ⟨.badarg, 0⟩ := by decide +kernel

theorem test_witness_CrcLaws : (0 : Byte) ≠ 1 := by decide

/-- The two clauses meet at id 255. -/
theorem test_witness_EncV1BuildsTheFrameOrIsRefused :
    (onTxChan txA).chan = .tx ∧
      txSays (after (onTxChan { txA with msgid := 255 }) .encV1) = some ⟨.ok, 17⟩ ∧
      txSays (after (onTxChan { txA with msgid := 256 }) .encV1) = some ⟨.range, 0⟩ := by decide +kernel

/-- An empty payload and one of 255 zeros (V-ENC-5). -/
theorem test_witness_EncV2UBuildsTheFrame :
    (onTxChan txC).chan = .tx ∧ txSays (after (onTxChan { txC with plen := 0 }) .encV2U) = some ⟨.ok, 12⟩ ∧
      txSays (after (onTxChan { txC with plen := 255, mem := { Spaces.reset with pay := Memory.cells 0 (List.replicate 255 0) } })
        .encV2U) = some ⟨.ok, 13⟩ := by decide +kernel

theorem test_witness_EncV2SBuildsTheSignedFrame :
    (onTxChan txC).chan = .tx ∧ txSays (after (onTxChan { txC with truncEn := false }) .encV2S) = some ⟨.ok, 30⟩ := by
  decide +kernel

/-- V-ENC-5: all zeros, nothing, and an inner zero. -/
theorem test_witness_TruncationRemovesOnlyTrailingZeros :
    trunc [0, 0, 0, 0] = [0] ∧ trunc [] = [] ∧ trunc [0, 9, 0] = [0, 9] ∧ 2 ≤ (trunc [0, 9, 0]).length := by decide

theorem test_witness_EncodersLeaveTheRest :
    (onTxChan txA).chan = .tx ∧ 255 < { txA with msgid := 256 }.msgid.toNat ∧ Runs .encV1 (onTxChan txA) ∧ Runs .encV2U (onTxChan txA) ∧ Runs .encV2S (onTxChan txA) :=
  ⟨rfl, by decide, runs _ _, runs _ _, runs _ _⟩

/-- Each of the sink's answers, a failure before the first byte and after the last, and none. -/
theorem test_witness_TxSendAppendsTheFrame :
    let t := (after (onTxChan txA) .encV1).tx
    t.txvalid = true ∧ TxHalf.reset.txvalid = false ∧ t.txlen = 17 ∧
      txSays (after (onTxChan { t with sink := [.takesAll] }) .txSend) = some ⟨.ok, 17⟩ ∧
      txSays (after (onTxChan { t with sink := [.failsAfter 0] }) .txSend) = some ⟨.ioerr, 0⟩ ∧
      txSays (after (onTxChan { t with sink := [.failsAfter 17] }) .txSend) = some ⟨.ioerr, 17⟩ ∧
      (after (onTxChan t) .txSend).tx.sending = true := by decide +kernel

theorem test_witness_SinkAnswerCompletesAHeldSend :
    let t := (after (onTxChan txA) .encV1).tx
    (onTxChan t).chan = .tx ∧ t.txvalid = true ∧ t.sink = [] := by decide +kernel

theorem test_witness_OnlyTxSendAppendsToOut :
    (nextState (step busy)).isSome = true ∧ busy.moves.head? ≠ some .reset ∧ Runs .crcInit (onTxChan txA) ∧
      Move.close ≠ .reset ∧ txA.sending = false :=
  ⟨by decide +kernel, by decide +kernel, runs _ _, by decide, rfl⟩

/-- A buffer that holds exactly the frame. -/
theorem test_witness_DecV1StoresTheFields :
    let f := (rxBuf frameA []).mem.memRead 0 .rx .buf 0 17
    (onRxChan (rxBuf frameA [])).chan = .rx ∧ 2 ≤ f.length ∧ 8 + (byteAt f 1).toNat = f.length := by decide +kernel

/-- An unsigned and a signed frame that fill the buffer. -/
theorem test_witness_DecV2StoresTheFields :
    let f := (rxBuf frameC []).mem.memRead 0 .rx .buf 0 15
    let g := (rxBuf frameG []).mem.memRead 0 .rx .buf 0 28
    (3 ≤ f.length ∧ 12 + (byteAt f 1).toNat + 13 * ((byteAt f 2).getLsbD 0).toNat = f.length) ∧
      3 ≤ g.length ∧ 12 + (byteAt g 1).toNat + 13 * ((byteAt g 2).getLsbD 0).toNat = g.length := by decide +kernel

/-- The other clause, V-DEC-2, V-DEC-5, V-DEC-8: nothing, one byte short, and too short to have a length or a flags byte. -/
theorem test_witness_DecV1StoresTheFields_short :
    (∀ k, k ∈ [0, 1, 16] → rxSays (after (onRxChan (rxBuf (frameA.take k) [])) .decV1) = some ⟨.format, 0⟩) ∧
      (∀ k, k ∈ [0, 2, 14] → rxSays (after (onRxChan (rxBuf (frameC.take k) [])) .decV2) = some ⟨.format, 0⟩) ∧
      rxSays (after (onRxChan (rxBuf (frameG.take 27) [])) .decV2) = some ⟨.format, 0⟩ := by decide +kernel

/-- A flag each command of the table sets; one that a command leaves, one that it clears. -/
theorem test_witness_FlagsChangeOnlyAsTheTableSays :
    (nextState (exec .decV2 (onRxChan (rxBuf frameG [])))).map (fun t => (t.rx.frame, t.rx.signed, t.rx.incompat.getLsbD 0)) =
        some (true, true, true) ∧
      (nextState (exec .crcInit (onRxChan { RxHalf.reset with frame := true }))).map (fun t => t.rx.frame) = some true ∧
      (nextState (exec .syncDrop (onRxChan { RxHalf.reset with frame := true, eos := true }))).map
        (fun t => (t.rx.frame, t.rx.eos)) = some (false, true) := by decide +kernel

theorem test_witness_DecodersLeaveTheRest :
    (onRxChan (rxBuf frameA [])).chan = .rx ∧ Runs .decV1 (onRxChan (rxBuf frameA [])) ∧ Runs .decV2 (onRxChan (rxBuf frameA [])) :=
  ⟨rfl, runs _ _, runs _ _⟩

/-- Frame A with its own seed and another; no frame. -/
theorem test_witness_RxChkRecomputesTheChecksum :
    let r := (after (onRxChan (rxBuf frameA [])) .decV1).rx
    r.frame = true ∧ r.ver = 1 ∧ RxHalf.reset.frame = false ∧ rxSays (after (onRxChan r) (.rxChk 50)) = some ⟨.ok, 1⟩ ∧
      rxSays (after (onRxChan r) (.rxChk 51)) = some ⟨.ok, 0⟩ := by decide +kernel

theorem test_witness_RxChkCoversTheWireBytes :
    (nextState (exec .decV1 (onRxChan (rxBuf frameA [])))).map (fun t => t.rx.frame) = some true ∧
      (nextState (exec .decV2 (onRxChan (rxBuf frameC [])))).map (fun t => t.rx.frame) = some true := by decide +kernel

/-- The frame of V-ENC-1, looped back. -/
theorem test_witness_V1FrameRoundTrips :
    let t := after (onTxChan { txA with msgid := 255 }) .encV1
    let r := rxBuf (txBufOf t 17) []
    txA.msgid.toNat ≤ 255 ∧ r.rxlen = t.tx.txlen ∧ r.mem.memRead 0 .rx .buf 0 17 = txBufOf t 17 := by decide +kernel

/-- The frames of V-ENC-3 and V-ENC-6, looped back. -/
theorem test_witness_V2FrameRoundTrips :
    let t := after (onTxChan txC) .encV2U
    let u := after (onTxChan txC) .encV2S
    (rxBuf frameC []).rxlen = t.tx.txlen ∧ (rxBuf frameC []).mem.memRead 0 .rx .buf 0 15 = txBufOf t 15 ∧
      (rxBuf frameG []).rxlen = u.tx.txlen ∧ (rxBuf frameG []).mem.memRead 0 .rx .buf 0 28 = txBufOf u 28 := by decide +kernel

/-- Frames A and C checked right, and the first and the last byte that may change; of frame C also the flags byte, its signed bit
kept. -/
theorem test_witness_ChangedCoveredByteFailsTheCheck :
    (let t := after (onRxChan (rxBuf frameA [])) .decV1
     t.rx.frame = true ∧ (after t (.rxChk 50)).rx.responses = t.rx.responses ++ [⟨.ok, 1⟩] ∧ 14 < 6 + t.rx.len.toNat) ∧
      (let t := after (onRxChan (rxBuf frameC [])) .decV2
       t.rx.frame = true ∧ (after t (.rxChk 0x7B)).rx.responses = t.rx.responses ++ [⟨.ok, 1⟩] ∧ 12 < 10 + t.rx.len.toNat) ∧
      (rxBuf (frameC.set 2 0x02) []).mem.memRead 0 .rx .buf 0 15 =
        ((rxBuf frameC []).mem.memRead 0 .rx .buf 0 15).set 2 0x02 ∧
      (0x02 : Byte) ≠ byteAt frameC 2 ∧ (0x02 : Byte).getLsbD 0 = (byteAt frameC 2).getLsbD 0 ∧
      (0xFF : Byte) ≠ byteAt frameC 12 ∧ (0xFF : Byte) ≠ byteAt frameA 2 ∧ (0xFF : Byte) ≠ byteAt frameA 14 := by decide +kernel

/-- Frame G with K1 and with K2, frame C, and no frame. -/
theorem test_witness_SigVfyRecomputesTheHash :
    let r := (after (onRxChan (rxBuf frameG keyK1)) .decV2).rx
    r.frame = true ∧ r.ver = 2 ∧ r.signed = true ∧ RxHalf.reset.frame = false ∧
      (after (onRxChan (rxBuf frameC keyK1)) .decV2).rx.signed = false ∧
      rxSays (after (after (onRxChan (rxBuf frameC keyK1)) .decV2) .sigVfy) = some ⟨.nosig, 0⟩ := by decide +kernel

theorem test_witness_SignedFrameVerifiesWithItsKey :
    let t := after (onTxChan txC) .encV2S
    let r := rxBuf frameG keyK1
    r.rxlen = t.tx.txlen ∧ r.mem.memRead 0 .rx .buf 0 28 = txBufOf t 28 ∧
      r.mem.memRead 0 .rx .key 0 32 = txC.mem.memRead 0 .tx .key 0 32 := by decide +kernel

theorem test_witness_ValidatorsLeaveTheRest :
    (onRxChan (rxBuf frameG keyK1)).chan = .rx ∧ Runs (.rxChk 50) (onRxChan (rxBuf frameG keyK1)) ∧
      Runs .sigVfy (onRxChan (rxBuf frameG keyK1)) := ⟨rfl, runs _ _, runs _ _⟩

/-- A closed stream without a frame, with one, and with one behind a marker whose attempt fails (V-SYNC-2, V-SYNC-1, V-SYNC-3). -/
theorem test_witness_SyncNextIsScanOnAClosedStream :
    (onRxChan (rxStream [0xFD, 0] true)).chan = .rx ∧ (rxStream [0xFD, 0] true).closed = true ∧ scanOf [0xFD, 0] = none ∧
      scanOf (0x55 :: frameA) = some (frameA, 17) ∧ scanOf (0xFE :: frameA) = some (frameA, 17) := by decide +kernel

theorem test_witness_SyncNextReturnsTheFirstWindow :
    (rxStream ([0x55] ++ frameG ++ [0xFE]) false).stream.drop 0 = [0x55] ++ frameG ++ [0xFE] ∧
      (∀ b ∈ [(0x55 : Byte)], b ≠ 0xFE ∧ b ≠ 0xFD) ∧ frameLenOf frameG = some 28 ∧ frameG.length = 28 ∧
      frameLenOf frameA = some 17 ∧ frameA.length = 17 := by decide +kernel

theorem test_witness_OpenWindowStandsForEveryContinuation :
    let s := onRxChan (rxStream (0x55 :: frameA) false)
    s.chan = .rx ∧ s.rx.closed = false ∧ s.rx.held = none ∧
      (nextState (exec .syncNext s)).map (fun t => t.rx.held) = some none := by decide +kernel

/-- Frame A cut in two. -/
theorem test_witness_ScanDoesNotDependOnWhenBytesArrive :
    let s := onRxChan (rxStream (frameA.take 10) false)
    s.chan = .rx ∧ s.rx.held = none ∧ s.rx.tent ≤ s.rx.stream.length ∧
      (nextState (exec .syncNext { s with rx := s.rx.deliverAll (frameA.drop 10) })).map (fun t => t.rx.responses) =
        some [⟨.ok, 17⟩] := by decide +kernel

theorem test_witness_OnlyTheSourceLiftsAHeldCommand :
    ((rxStream [1] false).closed = false ∧ (rxStream [1] false).held = none ∧ (rxStream [1] true).closed = true) ∧
      (let r := { RxHalf.reset with held := some .drop }
       r.held = some .drop ∧ r.stream = [] ∧ r.closed = false) ∧
      busy.rx.held ≠ none ∧ (∀ b, Move.sink .takesAll ≠ .deliver b) ∧ Move.sink .takesAll ≠ .close ∧
      Move.sink .takesAll ≠ .reset ∧ Runs .crcInit { busy with chan := .tx } :=
  ⟨by decide, by decide, by decide +kernel, fun _ => by simp, by simp, by simp, runs _ _⟩

/-- V-SYNC-9 (a) and (b): garbage and then nothing, each part of a header, and all of frame A but its last byte. -/
theorem test_witness_CloseCompletesAHeldScan :
    (rxStream [1, 2, 3] false).closed = false ∧ (rxStream [1, 2, 3] false).held = none ∧
      (∀ b ∈ [(1 : Byte), 2, 3], b ≠ 0xFE ∧ b ≠ 0xFD) ∧
      (∀ w ∈ [[], [0xFE], [0xFD], [0xFD, 0], frameA.take 16, frameC.take 14],
        (∀ b ∈ w.head?, b = 0xFE ∨ b = 0xFD) ∧ (∀ n ∈ frameLenOf w, w.length < n) ∧
        (nextState (exec .syncNext (onRxChan (rxStream ([1, 2, 3] ++ w) false)))).map (fun t => (t.rx.held.isSome, t.rx.tent)) =
          some (true, min w.length (if byteAt w 0 = 0xFE then 2 else 3))) := by decide +kernel

/-- A byte there, none on a closed stream, none on an open one. -/
theorem test_witness_SyncDropConsumesOneByte :
    (onRxChan (rxStream [1] false)).chan = .rx ∧ (rxStream [1] false).stream = 1 :: [] ∧
      ((rxStream [] true).stream = [] ∧ (rxStream [] true).closed = true) ∧ (rxStream [] false).closed = false := by decide

theorem test_witness_SyncConnectReopensTheStream : (onRxChan (rxStream frameA true)).chan = .rx := by decide

/-- The state after `EOS` on a closed stream. -/
def ended : State := onRxChan (rxEffect .syncNext 0 ((rxStream [1, 2] false).close))

theorem test_witness_EosStaysUntilConnect :
    ended.Inv ∧ ended.chan = .rx ∧ ended.rx.eos = true ∧ Runs .syncDrop ended ∧ Move.deliver 1 ≠ .reset :=
  ⟨⟨TxHalf.reset_inv, (rxStream_inv [1, 2]).close.effect rfl .syncNext 0⟩, rfl, by decide +kernel, runs _ _, by simp⟩

/-- V-SYNC-5: a window that hides frame A. -/
theorem test_witness_RejectedWindowIsRescannedFromItsSecondByte :
    let r := rxStream (0xFE :: ([0x03, 0x00] ++ frameA)) true
    r.stream = 0xFE :: ([0x03, 0x00] ++ frameA) ∧ r.closed = true ∧ scanOf ([0x03, 0x00] ++ frameA) = some (frameA, 17) := by
  decide +kernel

theorem test_witness_ScannerCommandsLeaveTheRest :
    (onRxChan (rxStream frameA true)).chan = .rx ∧ Runs .syncNext (onRxChan (rxStream frameA true)) ∧
      Runs .syncDrop (onRxChan (rxStream frameA true)) ∧ Runs .syncConnect (onRxChan (rxStream frameA true)) :=
  ⟨rfl, runs _ _, runs _ _, runs _ _⟩

/-- A dialect of one message, id 0 with seed 50, whose payload is one byte. -/
def oneMessage : Dialect Bytes := fun id => if id = 0 then some ⟨50, 1, some⟩ else none

/-- A Connection whose writer is about to take the answer of an encoder, at the counter's wrap. -/
def encoded : Conn Bytes :=
  { (Conn.start : Conn Bytes) with
    mfu := after (onTxChan txA) .encV1, seqctr := 255, writer := some ⟨.load .v1 [], some 0⟩ }

/-- R243: the counter goes up with the encoder's `OK`, from 255 to 0, and the send goes on to `TX.SEND`. -/
theorem test_host_counter :
    (encoded.move oneMessage .writer).seqctr = 0 ∧ (encoded.move oneMessage .writer).writer = some ⟨.send, none⟩ := by
  decide +kernel

/-- R241, R242: a `next` that waits for bytes is suspended and keeps its place, and goes on when the source has closed. -/
theorem test_host_next_waits :
    let c := { (Conn.start : Conn Bytes) with mfu := after (onRxChan RxHalf.reset) .syncNext, reader := some ⟨.scan, some 0⟩ }
    c.move oneMessage .reader = c ∧
      ({ c with mfu := c.mfu.applyMove .close }.move oneMessage .reader).received = [.endOfStream] := by decide +kernel

/-- R242: an unknown id is dropped without a report; a known id is checked with the dialect's seed. -/
theorem test_host_dialect :
    ReadPos.after oneMessage .msgid ⟨.ok, 7⟩ matches .goOn .drop ∧
      ReadPos.after oneMessage .msgid ⟨.ok, 0⟩ matches .goOn (.check 0 50 1) := by decide

/-- R245: a Connection with the write lock free and an idle MFU; and the two moves that change the counter. -/
theorem test_witness_SendUsesEachSequenceNumberOnce :
    let c : Conn Bytes := Conn.start
    let d := { c with seqctr := 9, reader := some ⟨.connect, some 0⟩, mfu := after (onRxChan RxHalf.reset) .syncConnect }
    (c.writer = none ∧ c.mfu.tx.sending = false ∧ c.mfu.tx.queue = [] ∧ c.mfu.rx.queue = [] ∧
        c.mfu.moves.head? ≠ some .reset) ∧
      (encoded.move oneMessage .writer).seqctr ≠ encoded.seqctr ∧ (d.move oneMessage .reader).seqctr ≠ d.seqctr ∧
      ({ d with mfu := { State.reset with moves := [.reset] } }.move oneMessage .mfu).seqctr ≠ d.seqctr := by
  decide +kernel

/-- R45, R292: a reset sets the counter to 0, also for a send that is between two commands; and it ends the procedures that wait
for a response, given or not (log 24). -/
theorem test_host_reset :
    let c := { encoded with mfu := { encoded.mfu with moves := [.reset] }, reader := some ⟨.scan, some 0⟩ }
    let d := c.move oneMessage .mfu
    d.seqctr = 0 ∧ d.sent = [.lost] ∧ d.received = [.lost] ∧ d.writer = none ∧ d.reader = none ∧
      ((({ c with writer := some ⟨.load .v1 [.seq], none⟩ }.move oneMessage .mfu).move oneMessage .writer).mfu.tx.queue) =
        [encode (.wrr 0x03 0)] := by decide +kernel

/-- The second clause of R45's statement. -/
theorem test_witness_ResetLeavesTheValuesOfTheTable :
    ({ (Conn.start : Conn Unit) with mfu := { State.reset with moves := [.reset] } }).mfu.moves.head? = some .reset := by decide

end Sys2Proof.Tests
end

/-! PROOFS. The statements of 10_state.md: the values after reset, the invariant of every step, `OUT`, the flags of `R.STATUS`,
and the independence of the two halves. -/

namespace Sys2Proof.Machine

/-! ### The invariant (10_state.md R25 to R41, 44_sync.md R199, R202, R205) -/

/-- The sink's answers matter to the invariant only while a `TX.SEND` is held. -/
theorem TxHalf.Inv.sink {t : TxHalf} (h : t.Inv) (hs : t.sending = false) (k : List SinkAnswer) : { t with sink := k }.Inv :=
  ⟨h.mem, h.txlen_le, h.frame_written, fun h' => by rw [hs] at h'; cases h'⟩

theorem State.reset_inv : State.reset.Inv := ⟨TxHalf.reset_inv, RxHalf.reset_inv⟩

theorem State.pinReset_inv (s : State) : s.pinReset.Inv := ⟨TxHalf.reset_inv.sink rfl s.tx.sink, RxHalf.reset_inv⟩

theorem State.Inv.issue {s : State} (h : s.Inv) (c : Channel) (w : CmdWord) : (s.issue c w).Inv := by
  cases c
  · exact ⟨h.tx.queue _, h.rx⟩
  · exact ⟨h.tx, h.rx.queue _⟩

/-- Every move of an agent outside keeps the invariant. -/
theorem State.Inv.applyMove {s : State} (h : s.Inv) (m : Move) : (s.applyMove m).Inv := by
  cases m with
  | issue c w => exact h.issue c w
  | deliver b => exact ⟨h.tx, h.rx.deliver b⟩
  | close => exact ⟨h.tx, h.rx.close⟩
  | sink a => exact ⟨h.tx.sinkMove s.epoch a, h.rx⟩
  | reset => exact s.pinReset_inv
  | wait => exact h

theorem State.Inv.outsideMove {s : State} (h : s.Inv) : s.outsideMove.Inv := by
  unfold State.outsideMove
  cases s.moves with
  | nil => exact h
  | cons m rest => exact State.Inv.applyMove (s := { s with moves := rest }) ⟨h.tx, h.rx⟩ m

/-- Settles O14: each half's reset values meet its invariant. -/
theorem resetMeetsTheInvariant : Obligations.ResetMeetsTheInvariant := State.reset_inv

/-- Settles O15: a step is a command or an illegal word on one half, or a move of the outside world, and each keeps the
invariant of the half it acts on. -/
theorem everyStepKeepsTheInvariant : Obligations.EveryStepKeepsTheInvariant := by
  intro s t h hst
  rcases step_cases hst with ⟨w, q, f, -, -, -, hf, rfl⟩ | ⟨w, q, f, -, hheld, -, hf, rfl⟩ | ⟨-, rfl⟩
  · refine ⟨?_, h.rx⟩
    rcases hf with rfl | ⟨i, -, rfl⟩
    · exact (h.tx.queue q).answer _
    · exact (h.tx.queue q).effect i s.epoch
  · refine ⟨h.tx, ?_⟩
    rcases hf with rfl | ⟨i, -, rfl⟩
    · exact (h.rx.queue q).answer _
    · exact (h.rx.queue q).effect hheld i s.epoch
  · exact h.outsideMove

/-! ### Reset (10_state.md R45) -/

theorem Memory.get?_reset (sp : Space) (i : Nat) : (Spaces.reset.get sp).get? i = none := by
  cases sp <;> rfl

/-- Settles O12: the reset values are read off the two reset halves, and the counter's value off the MFU's move. -/
theorem resetLeavesTheValuesOfTheTable : Obligations.ResetLeavesTheValuesOfTheTable := by
  refine ⟨by decide, rfl, rfl, rfl, rfl, rfl, rfl, rfl, by decide, by decide, rfl, rfl, rfl, ?spaces, rfl, rfl, rfl, ?counter⟩
  case spaces => exact fun sp i => ⟨Memory.get?_reset sp i, Memory.get?_reset sp i⟩
  case counter => exact fun α c h => by rw [Conn.mfuMove_seqctr, if_pos h]

/-! ### The wire history `OUT` (10_state.md R28) -/

@[simp] theorem TxHalf.writeReg_out (t : TxHalf) (x : TxReg) (v : BitVec 48) : (t.writeReg x v).out = t.out := by
  cases x <;> rfl

/-- A command other than `TX.SEND` leaves `OUT` as it was. -/
theorem txEffect_out {i : Instr} (h : i ≠ .txSend) (e : Nat) (t : TxHalf) : (txEffect i e t).out = t.out := by
  cases i with
  | rdr reg => simp only [txEffect, TxHalf.rdr]; split <;> simp
  | wrr reg v => simp only [txEffect, TxHalf.wrr]; split <;> simp
  | ldb sp ix => simp only [txEffect, TxHalf.ldb]; split <;> simp
  | stb sp ix b => simp only [txEffect, TxHalf.stb]; split <;> simp
  | crcBuf sp off n => simp only [txEffect, TxHalf.crcBuf]; split <;> simp
  | encV1 => simp only [txEffect, TxHalf.encV1]; split <;> simp
  | txSend => exact absurd rfl h
  | crcInit | crcAcc _ | encV2U | encV2S | decV1 | decV2 | rxChk _ | sigVfy | syncNext | syncDrop | syncConnect => rfl

/-- The sink's answer appends to `OUT` what it took. -/
theorem TxHalf.out_prefix_offer (e : Nat) (t : TxHalf) (a : SinkAnswer) : t.out <+: (t.offer e a).out := by
  cases a <;> exact List.prefix_append _ _

theorem TxHalf.out_prefix_resume (e : Nat) (t : TxHalf) : t.out <+: (t.resume e).out := by
  unfold TxHalf.resume
  split
  · split
    · exact List.prefix_rfl
    · rename_i a rest _
      exact TxHalf.out_prefix_offer e { t with sending := false, sink := rest } a
  · exact List.prefix_rfl

/-- A sink's answer that no held `TX.SEND` waits for is kept for the next one. -/
theorem TxHalf.sinkMove_of_not_sending (e : Nat) {t : TxHalf} (h : t.sending = false) (a : SinkAnswer) :
    t.sinkMove e a = { t with sink := t.sink ++ [a] } := by
  simp [TxHalf.sinkMove, TxHalf.resume, h]

theorem TxHalf.out_prefix_txSend (e : Nat) (t : TxHalf) : t.out <+: (t.txSend e).out := by
  unfold TxHalf.txSend
  split
  · exact List.prefix_rfl
  · exact TxHalf.out_prefix_resume e { t with sending := true }

/-- Every command only appends to `OUT`. -/
theorem out_prefix_txEffect (i : Instr) (e : Nat) (t : TxHalf) : t.out <+: (txEffect i e t).out := by
  by_cases h : i = .txSend
  · subst h; exact t.out_prefix_txSend e
  · rw [txEffect_out h]

theorem State.issue_out (s : State) (c : Channel) (w : CmdWord) : (s.issue c w).tx.out = s.tx.out := by
  cases c <;> rfl

/-- Every move of an agent outside but a reset only appends to `OUT`. -/
theorem State.out_prefix_applyMove (s : State) {m : Move} (h : m ≠ .reset) : s.tx.out <+: (s.applyMove m).tx.out := by
  cases m with
  | issue c w => exact s.issue_out c w ▸ List.prefix_rfl
  | sink a => exact TxHalf.out_prefix_resume s.epoch { s.tx with sink := s.tx.sink ++ [a] }
  | reset => exact absurd rfl h
  | deliver _ | close | wait => exact List.prefix_rfl

/-- While no `TX.SEND` is held, no move but a reset changes `OUT`. -/
theorem State.applyMove_out (s : State) {m : Move} (h : m ≠ .reset) (hs : s.tx.sending = false) :
    (s.applyMove m).tx.out = s.tx.out := by
  cases m with
  | issue c w => exact s.issue_out c w
  | sink a =>
    show (s.tx.sinkMove s.epoch a).out = s.tx.out
    rw [TxHalf.sinkMove_of_not_sending s.epoch hs]
  | reset => exact absurd rfl h
  | deliver _ | close | wait => rfl

theorem State.out_prefix_outsideMove {s : State} (h : s.moves.head? ≠ some .reset) : s.tx.out <+: s.outsideMove.tx.out := by
  unfold State.outsideMove
  split
  · exact List.prefix_rfl
  · rename_i m rest hm
    refine State.out_prefix_applyMove { s with moves := rest } fun hr => h ?_
    rw [hm, hr, List.head?_cons]

/-- Settles O35: the sink's answer to a `TX.SEND`, given at once or to a held one, is all that touches `OUT`, and it appends. -/
theorem onlyTxSendAppendsToOut : Obligations.OnlyTxSendAppendsToOut := by
  refine ⟨fun s t hst hm => ?_, fun i s t he hi => ?_, fun s m hm hs => s.applyMove_out hm hs⟩
  · rcases step_cases hst with ⟨w, q, f, -, -, -, hf, rfl⟩ | ⟨w, q, f, -, -, -, -, rfl⟩ | ⟨-, rfl⟩
    · rcases hf with rfl | ⟨i, -, rfl⟩
      · exact List.prefix_rfl
      · exact out_prefix_txEffect i s.epoch { s.tx with queue := q }
    · exact List.prefix_rfl
    · exact State.out_prefix_outsideMove hm
  · rcases exec_cases he with ⟨-, rfl⟩ | ⟨-, rfl⟩
    · exact txEffect_out hi s.epoch s.tx
    · rfl

/-! ### The flags of `R.STATUS` (10_state.md R31) -/

/-- The commands that R31's table names. -/
def inFlagTable : Instr → Bool
  | .decV1 | .decV2 | .rxChk _ | .sigVfy | .syncNext | .syncDrop | .syncConnect => true
  | _ => false

theorem RxHalf.answer_sameFlags (r : RxHalf) (x : Response) : r.sameFlags (r.answer x) := ⟨rfl, rfl, rfl, rfl, rfl⟩

theorem RxHalf.replyCrc_sameFlags (r : RxHalf) (c : BitVec 16) : r.sameFlags (r.replyCrc c) := ⟨rfl, rfl, rfl, rfl, rfl⟩

theorem RxHalf.writeReg_sameFlags (r : RxHalf) (x : RxReg) (v : BitVec 48) : r.sameFlags (r.writeReg x v) := by
  cases x <;> exact ⟨rfl, rfl, rfl, rfl, rfl⟩

/-- A command outside the table leaves every flag as it was. -/
theorem rxEffect_sameFlags {i : Instr} (h : inFlagTable i = false) (e : Nat) (r : RxHalf) :
    r.sameFlags (rxEffect i e r) := by
  cases i with
  | rdr reg => simp only [rxEffect, RxHalf.rdr]; split <;> exact r.answer_sameFlags _
  | wrr reg v =>
    simp only [rxEffect, RxHalf.wrr]
    split
    · exact r.answer_sameFlags _
    · exact r.writeReg_sameFlags _ v
  | ldb sp ix => simp only [rxEffect, RxHalf.ldb]; split <;> exact r.answer_sameFlags _
  | stb sp ix b =>
    simp only [rxEffect, RxHalf.stb]
    split
    · exact r.answer_sameFlags _
    · exact ⟨rfl, rfl, rfl, rfl, rfl⟩
  | crcInit => exact r.replyCrc_sameFlags _
  | crcAcc b => exact r.replyCrc_sameFlags _
  | crcBuf sp off n =>
    simp only [rxEffect, RxHalf.crcBuf]
    split
    · exact r.answer_sameFlags _
    · exact r.replyCrc_sameFlags _
  | encV1 | encV2U | encV2S | txSend => exact r.answer_sameFlags _
  | decV1 | decV2 | rxChk _ | sigVfy | syncNext | syncDrop | syncConnect => cases h

/-- `RX.CHK` changes no flag but its verdict. -/
theorem RxHalf.rxChk_flags (seed : Byte) (e : Nat) (r : RxHalf) :
    (r.rxChk seed e).frame = r.frame ∧ (r.rxChk seed e).sigOk = r.sigOk ∧ (r.rxChk seed e).eos = r.eos ∧
      (r.rxChk seed e).signed = r.signed := by
  unfold RxHalf.rxChk
  split <;> simp

/-- `SIG.VFY` changes no flag but its verdict. -/
theorem RxHalf.sigVfy_flags (e : Nat) (r : RxHalf) :
    (r.sigVfy e).frame = r.frame ∧ (r.sigVfy e).crcOk = r.crcOk ∧ (r.sigVfy e).eos = r.eos ∧
      (r.sigVfy e).signed = r.signed := by
  unfold RxHalf.sigVfy
  split
  · simp
  · split <;> simp

/-- The flags as a command that moves to another frame, or to none, leaves them: both verdicts down, and `SIGNED` up only
beside a current v2 frame whose `incompat[0]` is 1. -/
structure RxHalf.FreshFlags (r : RxHalf) : Prop where
  crcOk : r.crcOk = false
  sigOk : r.sigOk = false
  signed : r.signed = true → r.frame = true ∧ r.ver = 2 ∧ r.incompat.getLsbD 0 = true

theorem RxHalf.clearFrame_fresh (r : RxHalf) : r.clearFrame.FreshFlags := ⟨rfl, rfl, fun h => by cases h⟩

theorem RxHalf.FreshFlags.answer {r : RxHalf} (h : r.FreshFlags) (x : Response) : (r.answer x).FreshFlags :=
  ⟨h.crcOk, h.sigOk, h.signed⟩

theorem Frame.Ok.v1_unsigned {f : Frame} (h : f.Ok) (hv : f.ver = .v1) : f.signed = false := by
  obtain ⟨-, -, -, hu⟩ := h.v1_fields hv
  exact hu

/-- `DecodeV2` reports the signed bit of the incompat byte. -/
theorem decodeV2_signed {f : Bytes} {r : Frame} (h : decodeV2 f = some r) : r.signed = r.incompat.getLsbD 0 := by
  unfold decodeV2 at h
  split at h
  · cases h
  · dsimp only at h
    split at h
    · cases h
    · split at h <;> (cases h; rfl)

/-- A frame decoded as signed is a v2 frame with the signed bit. -/
theorem decodeFrame_signed {v : Ver} {f : Bytes} {r : Frame} (h : decodeFrame v f = some r) (hs : r.signed = true) :
    r.ver = .v2 ∧ r.incompat.getLsbD 0 = true := by
  obtain ⟨hok, hv⟩ := decodeFrame_ok h
  cases v with
  | v1 => rw [hok.v1_unsigned hv] at hs; cases hs
  | v2 => exact ⟨hv, decodeV2_signed h ▸ hs⟩

theorem RxHalf.storeFrame_fresh (r : RxHalf) {v : Ver} {w : Bytes} {f : Frame} (h : decodeFrame v w = some f) :
    (r.storeFrame f).FreshFlags := by
  refine ⟨rfl, rfl, fun hs => ?_⟩
  obtain ⟨hv, hb⟩ := decodeFrame_signed h hs
  exact ⟨rfl, by rw [storeFrame_ver, hv]; rfl, hb⟩

theorem RxHalf.decodeWindow_fresh (v : Ver) (e : Nat) (r : RxHalf) : (r.decodeWindow v e).FreshFlags := by
  unfold RxHalf.decodeWindow
  split
  · exact r.clearFrame_fresh.answer _
  · rename_i f hf
    exact (r.clearFrame.storeFrame_fresh hf).answer _

theorem RxHalf.decodeWindow_eos (v : Ver) (e : Nat) (r : RxHalf) : (r.decodeWindow v e).eos = r.eos := by
  unfold RxHalf.decodeWindow
  split <;> rfl

/-- After `DEC.V1` no frame is a signed one. -/
theorem RxHalf.decodeWindow_v1_signed (e : Nat) (r : RxHalf) : (r.decodeWindow .v1 e).signed = false := by
  unfold RxHalf.decodeWindow
  split
  · rfl
  · rename_i f hf
    obtain ⟨hok, hv⟩ := decodeFrame_ok hf
    exact hok.v1_unsigned hv

theorem RxHalf.FreshFlags.capture {r : RxHalf} (h : r.FreshFlags) (v : Ver) (w : Bytes) : (r.capture v w).FreshFlags := by
  unfold RxHalf.capture
  dsimp only
  split
  · exact ⟨h.crcOk, h.sigOk, h.signed⟩
  · rename_i f hf
    exact RxHalf.storeFrame_fresh _ hf

theorem RxHalf.capture_eos (r : RxHalf) (v : Ver) (w : Bytes) : (r.capture v w).eos = r.eos := by
  unfold RxHalf.capture
  dsimp only
  split <;> rfl

theorem RxHalf.FreshFlags.finishScan {r : RxHalf} (h : r.FreshFlags) (x : ScanResult) : (r.finishScan x).FreshFlags := by
  obtain ⟨stream, stop⟩ := x
  cases stop with
  | failed => exact h
  | ended | hold p t => exact ⟨h.crcOk, h.sigOk, h.signed⟩
  | found v n =>
    have h' : { r with stream := stream, tent := n, held := none }.FreshFlags := ⟨h.crcOk, h.sigOk, h.signed⟩
    exact (h'.capture v _).answer _

/-- A scan that stops can set `EOS` and does not clear it. -/
theorem RxHalf.finishScan_eos {r : RxHalf} (h : r.eos = true) (x : ScanResult) : (r.finishScan x).eos = true := by
  obtain ⟨stream, stop⟩ := x
  cases stop with
  | ended => rfl
  | failed | hold p t => exact h
  | found v n => exact (RxHalf.capture_eos _ v _).trans h

theorem RxHalf.finishDrop_sameFlags (r : RxHalf) : r.sameFlags r.finishDrop := by
  unfold RxHalf.finishDrop
  split <;> exact ⟨rfl, rfl, rfl, rfl, rfl⟩

theorem RxHalf.syncNext_fresh (e : Nat) (r : RxHalf) : (r.syncNext e).FreshFlags :=
  RxHalf.FreshFlags.finishScan (r := { r.clearFrame.bufCommit with held := some (.scan .marker) })
    ⟨rfl, rfl, fun h => by cases h⟩ _

theorem RxHalf.syncNext_eos (e : Nat) {r : RxHalf} (h : r.eos = true) : (r.syncNext e).eos = true :=
  RxHalf.finishScan_eos (r := { r.clearFrame.bufCommit with held := some (.scan .marker) }) h _

/-- `SYNC.DROP` leaves the flags as its entry does: cleared, `EOS` apart. -/
theorem RxHalf.syncDrop_sameFlags (e : Nat) (r : RxHalf) : r.clearFrame.sameFlags (r.syncDrop e) :=
  RxHalf.finishDrop_sameFlags { r.clearFrame.bufRollback with held := some .drop }

/-- Settles O38: a command outside the table changes no flag, the two validators change their own verdict, and the five others
leave the verdicts down and `SIGNED` up only beside the frame they decoded. -/
theorem flagsChangeOnlyAsTheTableSays : Obligations.FlagsChangeOnlyAsTheTableSays := by
  intro i s t he hc
  rw [exec_rx i hc, Host.Outcome.next.injEq] at he
  subst he
  have hkept : inFlagTable i = false → s.rx.sameFlags (rxEffect i s.epoch s.rx) :=
    fun h => rxEffect_sameFlags h s.epoch s.rx
  cases i with
  | decV1 =>
    obtain ⟨hcrc, hsig, -⟩ := s.rx.decodeWindow_fresh .v1 s.epoch
    simp [rxEffect, hcrc, hsig, RxHalf.decodeWindow_v1_signed, RxHalf.decodeWindow_eos]
  | decV2 =>
    obtain ⟨hcrc, hsig, hsigned⟩ := s.rx.decodeWindow_fresh .v2 s.epoch
    simpa [rxEffect, hcrc, hsig, RxHalf.decodeWindow_eos] using hsigned
  | rxChk seed =>
    obtain ⟨hframe, hsig, heos, hsigned⟩ := s.rx.rxChk_flags seed s.epoch
    simp [rxEffect, hframe, hsig, heos, hsigned]
  | sigVfy =>
    obtain ⟨hframe, hcrc, heos, hsigned⟩ := s.rx.sigVfy_flags s.epoch
    simp [rxEffect, hframe, hcrc, heos, hsigned]
  | syncNext =>
    obtain ⟨hcrc, hsig, hsigned⟩ := s.rx.syncNext_fresh s.epoch
    simpa [rxEffect, hcrc, hsig] using ⟨hsigned, RxHalf.syncNext_eos s.epoch⟩
  | syncDrop =>
    obtain ⟨hframe, hcrc, hsig, heos, hsigned⟩ := s.rx.syncDrop_sameFlags s.epoch
    simp [rxEffect, hframe, hcrc, hsig, heos, hsigned]
  | syncConnect => simp [rxEffect, RxHalf.syncConnect]
  | rdr _ | wrr _ _ | ldb _ _ | stb _ _ _ | crcInit | crcAcc _ | crcBuf _ _ _ | encV1 | encV2U | encV2S | txSend =>
    obtain ⟨hframe, hcrc, hsig, heos, hsigned⟩ := hkept rfl
    simp [hframe, hcrc, hsig, heos, hsigned]

/-! ### The two halves (10_state.md R20) -/

/-- A TX command and then an RX command: each has its effect on its own half. -/
theorem txThenRx_eq (i j : Instr) (s : State) :
    txThenRx i j s =
      .next { s with chan := .rx, tx := txEffect i s.epoch s.tx, rx := rxEffect j s.epoch s.rx } := by
  rw [txThenRx, exec_tx i rfl]
  exact exec_rx j rfl

/-- An RX command and then a TX command: each has the same effect as in the other order. -/
theorem rxThenTx_eq (i j : Instr) (s : State) :
    rxThenTx i j s =
      .next { s with chan := .tx, tx := txEffect i s.epoch s.tx, rx := rxEffect j s.epoch s.rx } := by
  rw [rxThenTx, exec_rx j rfl]
  exact exec_tx i rfl

/-- Settles O59: in either order each half ends with its own command's effect. -/
theorem txAndRxCommandsCommute : Obligations.TxAndRxCommandsCommute := fun i j s =>
  ⟨_, _, txThenRx_eq i j s, rxThenTx_eq i j s, rfl, rfl, rfl, rfl⟩

end Sys2Proof.Machine

/-! PROOFS. The statements of 20_memory.md: which word a step runs, the queue of a held channel, what completes a held command,
the frame of the register commands, and the write-only key spaces. -/

namespace Sys2Proof.Machine

/-! ### The word a step runs (20_memory.md R70) -/

/-- Where no reset comes, a step takes the next word out of its queue and runs it. -/
theorem step_of_nextCommand {s : State} {c : Channel} {w : CmdWord} (hm : s.moves.head? ≠ some .reset)
    (hn : s.nextCommand = some (c, w)) : step s = runWord w (s.accept c) := by
  unfold step
  rw [if_neg (by simpa [State.resetNext] using hm), hn]

/-- Where no word can be accepted, a step is the outside world's next move. -/
theorem step_of_nextCommand_none {s : State} (hn : s.nextCommand = none) : step s = .next s.outsideMove := by
  unfold step
  rw [hn]
  exact ite_self _

theorem State.accept_tx {s : State} {w : CmdWord} {q : List CmdWord} (hq : s.tx.queue = w :: q) :
    s.accept .tx = { s with chan := .tx, tx := { s.tx with queue := q } } := by
  simp [State.accept, hq]

theorem State.accept_rx {s : State} {w : CmdWord} {q : List CmdWord} (hq : s.rx.queue = w :: q) :
    s.accept .rx = { s with chan := .rx, rx := { s.rx with queue := q } } := by
  simp [State.accept, hq]

theorem State.outsideMove_cons {s : State} {m : Move} {ms : List Move} (h : s.moves = m :: ms) :
    s.outsideMove = { s with moves := ms }.applyMove m := by
  simp [State.outsideMove, h]

theorem State.outsideMove_nil {s : State} (h : s.moves = []) : s.outsideMove = s := by
  simp [State.outsideMove, h]

/-- Settles O7: the turn rule names the next command, and a step runs it; with none, it is the outside world's turn. -/
theorem stepExecutesTheOldestIssuedCommand : Obligations.StepExecutesTheOldestIssuedCommand := by
  refine ⟨fun w i s hd => by rw [runWord, hd], fun s hm => ⟨fun w q => ⟨?tx, ?rx⟩, ?idle⟩⟩
  case tx =>
    intro hs hq ho
    rw [step_of_nextCommand hm (nextCommand_tx hs hq ho), State.accept_tx hq]
  case rx =>
    intro hs hq ho
    rw [step_of_nextCommand hm (nextCommand_rx hs hq ho), State.accept_rx hq]
  case idle =>
    intro ht hr
    have hstep := step_of_nextCommand_none (nextCommand_none ht hr)
    exact ⟨fun m ms h => by rw [hstep, State.outsideMove_cons h], fun h => by rw [hstep, State.outsideMove_nil h]⟩

/-! ### The queue of a held channel (R70) -/

@[simp] theorem TxHalf.offer_queue (e : Nat) (t : TxHalf) (a : SinkAnswer) : (t.offer e a).queue = t.queue := by
  cases a <;> rfl

@[simp] theorem TxHalf.resume_queue (e : Nat) (t : TxHalf) : (t.resume e).queue = t.queue := by
  unfold TxHalf.resume
  split
  · split <;> simp
  · rfl

@[simp] theorem RxHalf.capture_queue (r : RxHalf) (v : Ver) (w : Bytes) : (r.capture v w).queue = r.queue := by
  unfold RxHalf.capture
  dsimp only
  split <;> rfl

@[simp] theorem RxHalf.finishScan_queue (r : RxHalf) (x : ScanResult) : (r.finishScan x).queue = r.queue := by
  obtain ⟨stream, stop⟩ := x
  cases stop with
  | found v n => exact RxHalf.capture_queue _ v _
  | ended | failed | hold p t => rfl

@[simp] theorem RxHalf.finishDrop_queue (r : RxHalf) : r.finishDrop.queue = r.queue := by
  unfold RxHalf.finishDrop
  split <;> rfl

@[simp] theorem RxHalf.resume_queue (r : RxHalf) : r.resume.queue = r.queue := by
  unfold RxHalf.resume
  split <;> simp

theorem RxHalf.deliver_queue (r : RxHalf) (b : Byte) : (r.deliver b).queue = r.queue := by
  unfold RxHalf.deliver
  split <;> simp

theorem RxHalf.close_queue (r : RxHalf) : r.close.queue = r.queue := RxHalf.resume_queue { r with closed := true }

theorem TxHalf.sinkMove_queue (e : Nat) (t : TxHalf) (a : SinkAnswer) : (t.sinkMove e a).queue = t.queue :=
  TxHalf.resume_queue e { t with sink := t.sink ++ [a] }

/-- An issued word goes behind those that wait on its channel. -/
theorem State.queue_prefix_issue (s : State) (d : Channel) (w : CmdWord) (c : Channel) :
    s.queue c <+: (s.issue d w).queue c := by
  cases d with
  | tx =>
    cases c with
    | tx => exact List.prefix_append _ _
    | rx => exact List.prefix_rfl
  | rx =>
    cases c with
    | tx => exact List.prefix_rfl
    | rx => exact List.prefix_append _ _

/-- Every move of an agent outside but a reset leaves the waiting words where they are. -/
theorem State.queue_prefix_applyMove (s : State) {m : Move} (hm : m ≠ .reset) (c : Channel) :
    s.queue c <+: (s.applyMove m).queue c := by
  cases m with
  | issue d w => exact s.queue_prefix_issue d w c
  | deliver b =>
    cases c with
    | tx => exact List.prefix_rfl
    | rx =>
      show s.rx.queue <+: (s.rx.deliver b).queue
      rw [RxHalf.deliver_queue]
  | close =>
    cases c with
    | tx => exact List.prefix_rfl
    | rx =>
      show s.rx.queue <+: s.rx.close.queue
      rw [RxHalf.close_queue]
  | sink a =>
    cases c with
    | tx =>
      show s.tx.queue <+: (s.tx.sinkMove s.epoch a).queue
      rw [TxHalf.sinkMove_queue]
    | rx => exact List.prefix_rfl
  | reset => exact absurd rfl hm
  | wait => exact List.prefix_rfl

theorem State.queue_prefix_outsideMove {s : State} (h : s.moves.head? ≠ some .reset) (c : Channel) :
    s.queue c <+: s.outsideMove.queue c := by
  cases hs : s.moves with
  | nil => rw [State.outsideMove_nil hs]
  | cons m ms =>
    rw [State.outsideMove_cons hs]
    exact State.queue_prefix_applyMove { s with moves := ms } (fun hm => h (by rw [hs, hm, List.head?_cons])) c

/-- Settles O9: a step takes a word from a channel that is not held alone, and moves of the outside world only add words. -/
theorem heldChannelAcceptsNoCommand : Obligations.HeldChannelAcceptsNoCommand := by
  intro s t c hst hheld hm
  rcases step_cases hst with ⟨_, _, _, -, hfree, -, -, rfl⟩ | ⟨_, _, _, -, hfree, -, -, rfl⟩ | ⟨-, rfl⟩
  · cases c with
    | tx => exact absurd (hfree.symm.trans hheld) Bool.false_ne_true
    | rx => exact List.prefix_rfl
  · cases c with
    | tx => exact List.prefix_rfl
    | rx => exact absurd hfree (Option.isSome_iff_ne_none.1 hheld)
  · exact State.queue_prefix_outsideMove hm c

/-! ### What completes a held command (R72, R76, R77) -/

/-- With a valid frame, `TX.SEND` is the held send going on with the sink's next answer. -/
theorem TxHalf.txSend_of_txvalid (e : Nat) {t : TxHalf} (h : t.txvalid = true) :
    t.txSend e = { t with sending := true }.resume e := by
  simp [TxHalf.txSend, h]

theorem TxHalf.resume_of_not_sending (e : Nat) {t : TxHalf} (h : t.sending = false) : t.resume e = t := by
  simp [TxHalf.resume, h]

/-- A send in progress with no answer of the sink stays held. -/
theorem TxHalf.resume_of_no_answer (e : Nat) {t : TxHalf} (h : t.sink = []) : t.resume e = t := by
  unfold TxHalf.resume
  rw [h]
  exact ite_self _

/-- A send in progress completes with the sink's oldest answer. -/
theorem TxHalf.resume_of_answer (e : Nat) {t : TxHalf} {a : SinkAnswer} {rest : List SinkAnswer} (hs : t.sending = true)
    (hk : t.sink = a :: rest) : t.resume e = { t with sending := false, sink := rest }.offer e a := by
  simp [TxHalf.resume, hs, hk]

/-- Settles O34: held, the send is what it was begun as, so the answer that comes finds the state it would have found at once. -/
theorem sinkAnswerCompletesAHeldSend : Obligations.SinkAnswerCompletesAHeldSend := by
  intro s a hc hv hk
  have hheld : s.tx.txSend s.epoch = { s.tx with sending := true } := by
    rw [TxHalf.txSend_of_txvalid s.epoch hv]
    exact TxHalf.resume_of_no_answer s.epoch hk
  have honce : TxHalf.txSend s.epoch { s.tx with sink := [a] } = (s.tx.txSend s.epoch).sinkMove s.epoch a := by
    rw [hheld, TxHalf.sinkMove, hk, List.nil_append]
    exact TxHalf.txSend_of_txvalid s.epoch (t := { s.tx with sink := [a] }) hv
  refine ⟨_, exec_tx .txSend hc, ?_⟩
  rw [exec_tx .txSend (s := { s with tx := { s.tx with sink := [a] } }) hc]
  exact congrArg (fun t => Host.Outcome.next { s with tx := t }) honce

theorem RxHalf.resume_of_not_held {r : RxHalf} (h : r.held = none) : r.resume = r := by
  simp [RxHalf.resume, h]

theorem RxHalf.deliver_of_closed {r : RxHalf} (h : r.closed = true) (b : Byte) : r.deliver b = r := by
  simp [RxHalf.deliver, h]

theorem RxHalf.deliver_of_open {r : RxHalf} (h : r.closed = false) (b : Byte) :
    r.deliver b = { r with stream := r.stream ++ [b] }.resume := by
  simp [RxHalf.deliver, h]

theorem RxHalf.deliver_of_not_held {r : RxHalf} (hc : r.closed = false) (hh : r.held = none) (b : Byte) :
    r.deliver b = { r with stream := r.stream ++ [b] } := by
  rw [RxHalf.deliver_of_open hc]
  exact RxHalf.resume_of_not_held hh

theorem RxHalf.close_of_not_held {r : RxHalf} (hh : r.held = none) : r.close = { r with closed := true } :=
  RxHalf.resume_of_not_held (r := { r with closed := true }) hh

/-- A held `SYNC.DROP` consumes the byte that comes (44_sync.md R196). -/
theorem RxHalf.deliver_of_held_drop {r : RxHalf} (hh : r.held = some .drop) (hs : r.stream = []) (hc : r.closed = false)
    (b : Byte) : r.deliver b = { r with stream := [], tent := 0, held := none }.says .ok 0 := by
  rw [RxHalf.deliver_of_open hc]
  simp [RxHalf.resume, hh, RxHalf.finishDrop, bufRead, hs, RxHalf.bufCommit, RxHalf.answer, RxHalf.says]

/-- A held `SYNC.DROP` completes at `Close` with nothing consumed (R196). -/
theorem RxHalf.close_of_held_drop {r : RxHalf} (hh : r.held = some .drop) (hs : r.stream = []) :
    r.close = { r with closed := true, tent := 0, held := none }.says .ok 0 := by
  simp [RxHalf.close, RxHalf.resume, hh, RxHalf.finishDrop, bufRead, hs, RxHalf.bufCommit, RxHalf.answer, RxHalf.says]

/-- A move that is neither the source's nor a reset can touch nothing of the RX half but its queue. -/
theorem State.applyMove_rx_of_not_source (s : State) {m : Move} (hd : ∀ b, m ≠ .deliver b) (hc : m ≠ .close)
    (hr : m ≠ .reset) : ∃ q, (s.applyMove m).rx = { s.rx with queue := q } := by
  cases m with
  | issue c w =>
    cases c with
    | tx => exact ⟨s.rx.queue, rfl⟩
    | rx => exact ⟨s.rx.queue ++ [w], rfl⟩
  | deliver b => exact absurd rfl (hd b)
  | close => exact absurd rfl hc
  | reset => exact absurd rfl hr
  | sink _ | wait => exact ⟨s.rx.queue, rfl⟩

/-- A command of the TX channel leaves the RX half as it was (10_state.md R20). -/
theorem exec_tx_rx {i : Instr} {s t : State} (hc : s.chan = .tx) (he : exec i s = .next t) : t.rx = s.rx := by
  rw [exec_tx i hc] at he
  cases he
  rfl

/-- Settles O52: the source's moves change `S` and `closed` and let a held command go on; no other move, and no command of the
TX channel, reaches the RX half's state. -/
theorem onlyTheSourceLiftsAHeldCommand : Obligations.OnlyTheSourceLiftsAHeldCommand := by
  refine ⟨fun s b hc hh => ?deliver, fun s b hc => ?delivered, fun s hh => ?close, fun s b hh hs hc => ⟨?dropByte, ?dropClose⟩,
    fun s _ => ⟨fun m => s.applyMove_rx_of_not_source, fun i t => exec_tx_rx⟩⟩
  case deliver => exact congrArg (fun r => { s with rx := r }) (RxHalf.deliver_of_not_held hc hh b)
  case delivered => exact congrArg (fun r => { s with rx := r }) (RxHalf.deliver_of_closed hc b)
  case close => exact congrArg (fun r => { s with rx := r }) (RxHalf.close_of_not_held hh)
  case dropByte => exact congrArg (fun r => { s with rx := r }) (RxHalf.deliver_of_held_drop hh hs hc b)
  case dropClose => exact congrArg (fun r => { s with rx := r }) (RxHalf.close_of_held_drop hh hs)

/-! ### The register commands (R64, 40_crc.md R122 to R124, 45_access_system.md R220 to R224) -/

/-- The commands that store no byte and move to no other frame, on either channel. -/
def isRegisterCommand : Instr → Bool
  | .rdr _ | .ldb _ _ | .crcInit | .crcAcc _ | .crcBuf _ _ _ | .wrr _ _ => true
  | _ => false

/-- The commands of the checksum unit. -/
def isCrcCommand : Instr → Bool
  | .crcInit | .crcAcc _ | .crcBuf _ _ _ => true
  | _ => false

/-- All that a register command can do to the TX half: answer, set the accumulator and answer, or write a register and
answer. -/
theorem txEffect_of_isRegisterCommand {i : Instr} (h : isRegisterCommand i = true) (e : Nat) (t : TxHalf) :
    (∃ x, txEffect i e t = t.answer x) ∨
      (isCrcCommand i = true ∧ ∃ c x, txEffect i e t = { t with crcacc := c }.answer x) ∨
      ∃ n v y x, i = .wrr n v ∧ txEffect i e t = (t.writeReg y v).answer x := by
  cases i with
  | rdr reg => left; simp only [txEffect, TxHalf.rdr]; split <;> exact ⟨_, rfl⟩
  | ldb sp ix => left; simp only [txEffect, TxHalf.ldb]; split <;> exact ⟨_, rfl⟩
  | crcInit => exact .inr (.inl ⟨rfl, _, _, rfl⟩)
  | crcAcc b => exact .inr (.inl ⟨rfl, _, _, rfl⟩)
  | crcBuf sp off n =>
    simp only [txEffect, TxHalf.crcBuf]
    split
    · exact .inl ⟨_, rfl⟩
    · exact .inr (.inl ⟨rfl, _, _, rfl⟩)
  | wrr reg v =>
    simp only [txEffect, TxHalf.wrr]
    split
    · exact .inl ⟨_, rfl⟩
    · exact .inr (.inr ⟨reg, v, _, _, rfl, rfl⟩)
  | stb _ _ _ | encV1 | encV2U | encV2S | txSend | decV1 | decV2 | rxChk _ | sigVfy | syncNext | syncDrop | syncConnect =>
    cases h

/-- The same for the RX half. -/
theorem rxEffect_of_isRegisterCommand {i : Instr} (h : isRegisterCommand i = true) (e : Nat) (r : RxHalf) :
    (∃ x, rxEffect i e r = r.answer x) ∨
      (isCrcCommand i = true ∧ ∃ c x, rxEffect i e r = { r with crcacc := c }.answer x) ∨
      ∃ n v y x, i = .wrr n v ∧ rxEffect i e r = (r.writeReg y v).answer x := by
  cases i with
  | rdr reg => left; simp only [rxEffect, RxHalf.rdr]; split <;> exact ⟨_, rfl⟩
  | ldb sp ix => left; simp only [rxEffect, RxHalf.ldb]; split <;> exact ⟨_, rfl⟩
  | crcInit => exact .inr (.inl ⟨rfl, _, _, rfl⟩)
  | crcAcc b => exact .inr (.inl ⟨rfl, _, _, rfl⟩)
  | crcBuf sp off n =>
    simp only [rxEffect, RxHalf.crcBuf]
    split
    · exact .inl ⟨_, rfl⟩
    · exact .inr (.inl ⟨rfl, _, _, rfl⟩)
  | wrr reg v =>
    simp only [rxEffect, RxHalf.wrr]
    split
    · exact .inl ⟨_, rfl⟩
    · exact .inr (.inr ⟨reg, v, _, _, rfl, rfl⟩)
  | stb _ _ _ | encV1 | encV2U | encV2S | txSend | decV1 | decV2 | rxChk _ | sigVfy | syncNext | syncDrop | syncConnect =>
    cases h

/-- What every register command leaves as it was in the TX half. -/
structure TxHalf.KeepsRest (t t' : TxHalf) : Prop where
  mem : t'.mem = t.mem
  around : t.sameAround t'
  txvalid : t'.txvalid = t.txvalid
  txlen : t'.txlen = t.txlen
  out : t'.out = t.out

/-- What every register command leaves as it was in the RX half. -/
structure RxHalf.KeepsRest (r r' : RxHalf) : Prop where
  mem : r'.mem = r.mem
  stream : r.sameStream r'
  descriptor : r.sameDescriptor r'
  flags : r.sameFlags r'

theorem TxHalf.writeReg_keepsRest (t : TxHalf) (y : TxReg) (v : BitVec 48) : t.KeepsRest (t.writeReg y v) := by
  cases y <;> exact ⟨rfl, ⟨rfl, rfl, rfl⟩, rfl, rfl, rfl⟩

theorem RxHalf.writeReg_keepsRest (r : RxHalf) (y : RxReg) (v : BitVec 48) : r.KeepsRest (r.writeReg y v) := by
  cases y <;> exact ⟨rfl, ⟨rfl, rfl, rfl, rfl, rfl⟩, ⟨rfl, rfl, rfl, rfl, rfl, rfl, rfl, rfl, rfl, rfl, rfl, rfl⟩,
    ⟨rfl, rfl, rfl, rfl, rfl⟩⟩

theorem txEffect_keepsRest {i : Instr} (h : isRegisterCommand i = true) (e : Nat) (t : TxHalf) :
    t.KeepsRest (txEffect i e t) := by
  rcases txEffect_of_isRegisterCommand h e t with ⟨x, hx⟩ | ⟨-, c, x, hx⟩ | ⟨-, v, y, x, -, hx⟩ <;> rw [hx]
  · exact ⟨rfl, ⟨rfl, rfl, rfl⟩, rfl, rfl, rfl⟩
  · exact ⟨rfl, ⟨rfl, rfl, rfl⟩, rfl, rfl, rfl⟩
  · obtain ⟨hmem, haround, hvalid, hlen, hout⟩ := t.writeReg_keepsRest y v
    exact ⟨hmem, haround, hvalid, hlen, hout⟩

theorem rxEffect_keepsRest {i : Instr} (h : isRegisterCommand i = true) (e : Nat) (r : RxHalf) :
    r.KeepsRest (rxEffect i e r) := by
  rcases rxEffect_of_isRegisterCommand h e r with ⟨x, hx⟩ | ⟨-, c, x, hx⟩ | ⟨-, v, y, x, -, hx⟩ <;> rw [hx]
  · exact ⟨rfl, ⟨rfl, rfl, rfl, rfl, rfl⟩, ⟨rfl, rfl, rfl, rfl, rfl, rfl, rfl, rfl, rfl, rfl, rfl, rfl⟩, r.answer_sameFlags x⟩
  · exact ⟨rfl, ⟨rfl, rfl, rfl, rfl, rfl⟩, ⟨rfl, rfl, rfl, rfl, rfl, rfl, rfl, rfl, rfl, rfl, rfl, rfl⟩, r.answer_sameFlags x⟩
  · obtain ⟨hmem, hstream, hdesc, hflags⟩ := r.writeReg_keepsRest y v
    exact ⟨hmem, hstream, hdesc, hflags⟩

/-- Of the register commands only `WRR` changes TX operands. -/
theorem txEffect_sameOperands {i : Instr} (h : isRegisterCommand i = true) (hw : ∀ n v, i ≠ .wrr n v) (e : Nat)
    (t : TxHalf) : t.sameOperands (txEffect i e t) := by
  rcases txEffect_of_isRegisterCommand h e t with ⟨x, hx⟩ | ⟨-, c, x, hx⟩ | ⟨n, v, -, -, hi, -⟩
  · rw [hx]; exact ⟨rfl, rfl, rfl, rfl, rfl, rfl, rfl, rfl, rfl⟩
  · rw [hx]; exact ⟨rfl, rfl, rfl, rfl, rfl, rfl, rfl, rfl, rfl⟩
  · exact absurd hi (hw n v)

/-- Of the register commands only `WRR` changes `RXLEN`. -/
theorem rxEffect_rxlen {i : Instr} (h : isRegisterCommand i = true) (hw : ∀ n v, i ≠ .wrr n v) (e : Nat) (r : RxHalf) :
    (rxEffect i e r).rxlen = r.rxlen := by
  rcases rxEffect_of_isRegisterCommand h e r with ⟨x, hx⟩ | ⟨-, c, x, hx⟩ | ⟨n, v, -, -, hi, -⟩
  · rw [hx]; rfl
  · rw [hx]; rfl
  · exact absurd hi (hw n v)

/-- `RDR` and `LDB` leave the TX half's accumulator. -/
theorem txEffect_crcacc_of_read {i : Instr} (h : (∃ n, i = .rdr n) ∨ ∃ a k, i = .ldb a k) (e : Nat) (t : TxHalf) :
    (txEffect i e t).crcacc = t.crcacc := by
  have hreg : isRegisterCommand i = true := by rcases h with ⟨n, rfl⟩ | ⟨a, k, rfl⟩ <;> rfl
  rcases txEffect_of_isRegisterCommand hreg e t with ⟨x, hx⟩ | ⟨hcrc, -⟩ | ⟨_, _, -, -, hi, -⟩
  · rw [hx]; rfl
  · rcases h with ⟨n, rfl⟩ | ⟨a, k, rfl⟩ <;> cases hcrc
  · rcases h with ⟨n, rfl⟩ | ⟨a, k, rfl⟩ <;> cases hi

/-- `RDR` and `LDB` leave the RX half's accumulator. -/
theorem rxEffect_crcacc_of_read {i : Instr} (h : (∃ n, i = .rdr n) ∨ ∃ a k, i = .ldb a k) (e : Nat) (r : RxHalf) :
    (rxEffect i e r).crcacc = r.crcacc := by
  have hreg : isRegisterCommand i = true := by rcases h with ⟨n, rfl⟩ | ⟨a, k, rfl⟩ <;> rfl
  rcases rxEffect_of_isRegisterCommand hreg e r with ⟨x, hx⟩ | ⟨hcrc, -⟩ | ⟨_, _, -, -, hi, -⟩
  · rw [hx]; rfl
  · rcases h with ⟨n, rfl⟩ | ⟨a, k, rfl⟩ <;> cases hcrc
  · rcases h with ⟨n, rfl⟩ | ⟨a, k, rfl⟩ <;> cases hi

/-- Settles O21: a register command answers, sets the accumulator, or writes one register, and nothing else. -/
theorem registerCommandsLeaveTheRest : Obligations.RegisterCommandsLeaveTheRest := by
  intro i s t he hi
  have hreg : isRegisterCommand i = true := by
    cases i with
    | rdr _ | ldb _ _ | crcInit | crcAcc _ | crcBuf _ _ _ | wrr _ _ => rfl
    | _ => exact hi.elim
  rcases exec_cases he with ⟨hc, rfl⟩ | ⟨hc, rfl⟩
  · obtain ⟨hmem, haround, hvalid, hlen, hout⟩ := txEffect_keepsRest hreg s.epoch s.tx
    refine ⟨fun _ => ⟨rfl, ?mem, haround, hvalid, hlen, hout, fun hw => txEffect_sameOperands hreg hw _ _,
      fun hr => txEffect_crcacc_of_read hr _ _⟩, fun h => ?other, rfl, rfl, rfl⟩
    case mem => rw [hmem]; exact s.tx.mem.same_refl
    case other => rw [hc] at h; cases h
  · obtain ⟨hmem, hstream, hdesc, hflags⟩ := rxEffect_keepsRest hreg s.epoch s.rx
    refine ⟨fun h => ?other, fun _ => ⟨rfl, ?mem, hstream, hdesc, hflags, fun hw => rxEffect_rxlen hreg hw _ _,
      fun hr => rxEffect_crcacc_of_read hr _ _⟩, rfl, rfl, rfl⟩
    case mem => rw [hmem]; exact s.rx.mem.same_refl
    case other => rw [hc] at h; cases h

/-! ### The write-only key spaces (R61) -/

/-- The half with other bytes in its key space. -/
def TxHalf.withKey (t : TxHalf) (k : Memory) : TxHalf := { t with mem := { t.mem with key := k } }

/-- The half with other bytes in its key space. -/
def RxHalf.withKey (r : RxHalf) (k : Memory) : RxHalf := { r with mem := { r.mem with key := k } }

@[simp] theorem RxHalf.withKey_stream (r : RxHalf) (k : Memory) : (r.withKey k).stream = r.stream := rfl
@[simp] theorem RxHalf.withKey_closed (r : RxHalf) (k : Memory) : (r.withKey k).closed = r.closed := rfl
@[simp] theorem RxHalf.withKey_tent (r : RxHalf) (k : Memory) : (r.withKey k).tent = r.tent := rfl
@[simp] theorem RxHalf.withKey_held (r : RxHalf) (k : Memory) : (r.withKey k).held = r.held := rfl
@[simp] theorem RxHalf.withKey_window (e : Nat) (r : RxHalf) (k : Memory) : (r.withKey k).window e = r.window e := rfl

/-- A byte that `LDB` or `CRC.BUF` may read is none of the key. -/
theorem Spaces.readByte_withKey {sp : Space} (h : sp.readable = true) (e : Nat) (c : Channel) (m : Spaces) (k : Memory)
    (i : Nat) : ({ m with key := k } : Spaces).readByte e c sp i = m.readByte e c sp i := by
  cases sp with
  | key => cases h
  | pay | buf => rfl

theorem Spaces.memRead_withKey {sp : Space} (h : sp.readable = true) (e : Nat) (c : Channel) (m : Spaces) (k : Memory)
    (i n : Nat) : ({ m with key := k } : Spaces).memRead e c sp i n = m.memRead e c sp i n := by
  simp only [Spaces.memRead, Spaces.readByte_withKey h]

/-- A write beside another key: outside the key space it is the same write, inside it the key alone differs. -/
theorem Spaces.memWrite_withKey (m : Spaces) (k : Memory) (sp : Space) (i : Nat) (bs : Bytes) :
    ∃ k', ({ m with key := k } : Spaces).memWrite sp i bs = { m.memWrite sp i bs with key := k' } := by
  cases sp <;> exact ⟨_, rfl⟩

/-! #### The TX half -/

theorem TxHalf.rdr_withKey (reg : BitVec 8) (e : Nat) (t : TxHalf) (k : Memory) :
    (t.withKey k).rdr reg e = (t.rdr reg e).withKey k := by
  unfold TxHalf.rdr
  split <;> rfl

theorem TxHalf.wrr_withKey (reg : BitVec 8) (v : BitVec 48) (e : Nat) (t : TxHalf) (k : Memory) :
    (t.withKey k).wrr reg v e = (t.wrr reg v e).withKey k := by
  unfold TxHalf.wrr
  split
  · rfl
  · rename_i y _
    cases y <;> rfl

theorem TxHalf.ldb_withKey (sp : BitVec 8) (ix : BitVec 16) (e : Nat) (t : TxHalf) (k : Memory) :
    (t.withKey k).ldb sp ix e = (t.ldb sp ix e).withKey k := by
  unfold TxHalf.ldb
  split
  · rfl
  · rename_i x hx
    obtain ⟨-, hread, -⟩ := Space.source_some hx
    simp only [TxHalf.withKey, Spaces.readByte_withKey hread]
    rfl

theorem TxHalf.stb_withKey (sp : BitVec 8) (ix : BitVec 16) (b : Byte) (e : Nat) (t : TxHalf) (k : Memory) :
    ∃ k', (t.withKey k).stb sp ix b e = (t.stb sp ix b e).withKey k' := by
  unfold TxHalf.stb
  split
  · exact ⟨k, rfl⟩
  · rename_i x _
    obtain ⟨k', hk⟩ := t.mem.memWrite_withKey k x ix.toNat [b]
    exact ⟨k', by simp only [TxHalf.withKey, hk]; rfl⟩

theorem TxHalf.crcBuf_withKey (sp : BitVec 8) (off n : BitVec 16) (e : Nat) (t : TxHalf) (k : Memory) :
    (t.withKey k).crcBuf sp off n e = (t.crcBuf sp off n e).withKey k := by
  unfold TxHalf.crcBuf
  split
  · rfl
  · rename_i x hx
    obtain ⟨-, hread, -⟩ := Space.source_some hx
    simp only [TxHalf.withKey, Spaces.memRead_withKey hread]
    rfl

theorem TxHalf.finishEncode_withKey (t : TxHalf) (k : Memory) (b : Built) :
    (t.withKey k).finishEncode b = (t.finishEncode b).withKey k := rfl

theorem TxHalf.encV1_withKey (e : Nat) (t : TxHalf) (k : Memory) : (t.withKey k).encV1 e = (t.encV1 e).withKey k := by
  rw [TxHalf.encV1, TxHalf.encV1, apply_ite (TxHalf.withKey · k), ← TxHalf.finishEncode_withKey]
  rfl

theorem TxHalf.encV2U_withKey (e : Nat) (t : TxHalf) (k : Memory) : (t.withKey k).encV2U e = (t.encV2U e).withKey k := by
  rw [TxHalf.encV2U, TxHalf.encV2U, ← TxHalf.finishEncode_withKey]
  rfl

theorem TxHalf.offer_withKey (e : Nat) (t : TxHalf) (k : Memory) (a : SinkAnswer) :
    (t.withKey k).offer e a = (t.offer e a).withKey k := by
  cases a <;> rfl

theorem TxHalf.resume_withKey (e : Nat) (t : TxHalf) (k : Memory) : (t.withKey k).resume e = (t.resume e).withKey k := by
  cases hs : t.sending with
  | false => rw [TxHalf.resume_of_not_sending e hs, TxHalf.resume_of_not_sending e (t := t.withKey k) hs]
  | true =>
    cases hk : t.sink with
    | nil => rw [TxHalf.resume_of_no_answer e hk, TxHalf.resume_of_no_answer e (t := t.withKey k) hk]
    | cons a rest =>
      rw [TxHalf.resume_of_answer e hs hk, TxHalf.resume_of_answer e (t := t.withKey k) hs hk]
      exact TxHalf.offer_withKey e { t with sending := false, sink := rest } k a

theorem TxHalf.txSend_withKey (e : Nat) (t : TxHalf) (k : Memory) : (t.withKey k).txSend e = (t.txSend e).withKey k := by
  rw [TxHalf.txSend, TxHalf.txSend, apply_ite (TxHalf.withKey · k), ← TxHalf.resume_withKey]
  rfl

/-- Beside another `T.TXKEY`, every command but `ENC.V2S` has the same effect, the key apart. -/
theorem txEffect_withKey {i : Instr} (h : i ≠ .encV2S) (e : Nat) (t : TxHalf) (k : Memory) :
    ∃ k', txEffect i e (t.withKey k) = (txEffect i e t).withKey k' := by
  cases i with
  | stb sp ix b => exact t.stb_withKey sp ix b e k
  | encV2S => exact absurd rfl h
  | rdr reg => exact ⟨k, t.rdr_withKey reg e k⟩
  | wrr reg v => exact ⟨k, t.wrr_withKey reg v e k⟩
  | ldb sp ix => exact ⟨k, t.ldb_withKey sp ix e k⟩
  | crcBuf sp off n => exact ⟨k, t.crcBuf_withKey sp off n e k⟩
  | encV1 => exact ⟨k, t.encV1_withKey e k⟩
  | encV2U => exact ⟨k, t.encV2U_withKey e k⟩
  | txSend => exact ⟨k, t.txSend_withKey e k⟩
  | crcInit | crcAcc _ | decV1 | decV2 | rxChk _ | sigVfy | syncNext | syncDrop | syncConnect => exact ⟨k, rfl⟩

/-! #### The RX half -/

theorem RxHalf.rdr_withKey (reg : BitVec 8) (e : Nat) (r : RxHalf) (k : Memory) :
    (r.withKey k).rdr reg e = (r.rdr reg e).withKey k := by
  unfold RxHalf.rdr
  split <;> rfl

theorem RxHalf.wrr_withKey (reg : BitVec 8) (v : BitVec 48) (e : Nat) (r : RxHalf) (k : Memory) :
    (r.withKey k).wrr reg v e = (r.wrr reg v e).withKey k := by
  unfold RxHalf.wrr
  split
  · rfl
  · rename_i y _
    cases y <;> rfl

theorem RxHalf.ldb_withKey (sp : BitVec 8) (ix : BitVec 16) (e : Nat) (r : RxHalf) (k : Memory) :
    (r.withKey k).ldb sp ix e = (r.ldb sp ix e).withKey k := by
  unfold RxHalf.ldb
  split
  · rfl
  · rename_i x hx
    obtain ⟨-, hread, -⟩ := Space.source_some hx
    simp only [RxHalf.withKey, Spaces.readByte_withKey hread]
    rfl

theorem RxHalf.stb_withKey (sp : BitVec 8) (ix : BitVec 16) (b : Byte) (e : Nat) (r : RxHalf) (k : Memory) :
    ∃ k', (r.withKey k).stb sp ix b e = (r.stb sp ix b e).withKey k' := by
  unfold RxHalf.stb
  split
  · exact ⟨k, rfl⟩
  · rename_i x _
    obtain ⟨k', hk⟩ := r.mem.memWrite_withKey k x ix.toNat [b]
    exact ⟨k', by simp only [RxHalf.withKey, hk]; rfl⟩

theorem RxHalf.crcBuf_withKey (sp : BitVec 8) (off n : BitVec 16) (e : Nat) (r : RxHalf) (k : Memory) :
    (r.withKey k).crcBuf sp off n e = (r.crcBuf sp off n e).withKey k := by
  unfold RxHalf.crcBuf
  split
  · rfl
  · rename_i x hx
    obtain ⟨-, hread, -⟩ := Space.source_some hx
    simp only [RxHalf.withKey, Spaces.memRead_withKey hread]
    rfl

theorem RxHalf.decodeWindow_withKey (v : Ver) (e : Nat) (r : RxHalf) (k : Memory) :
    (r.withKey k).decodeWindow v e = (r.decodeWindow v e).withKey k := by
  simp only [RxHalf.decodeWindow, RxHalf.withKey_window]
  split <;> rfl

theorem RxHalf.rxChk_withKey (seed : Byte) (e : Nat) (r : RxHalf) (k : Memory) :
    (r.withKey k).rxChk seed e = (r.rxChk seed e).withKey k := by
  rw [RxHalf.rxChk, RxHalf.rxChk, apply_ite (RxHalf.withKey · k)]
  rfl

theorem RxHalf.capture_withKey (r : RxHalf) (k : Memory) (v : Ver) (w : Bytes) :
    (r.withKey k).capture v w = (r.capture v w).withKey k := by
  simp only [RxHalf.capture]
  split <;> rfl

theorem RxHalf.finishScan_withKey (r : RxHalf) (k : Memory) (x : ScanResult) :
    (r.withKey k).finishScan x = (r.finishScan x).withKey k := by
  obtain ⟨stream, stop⟩ := x
  cases stop with
  | found v n =>
    exact congrArg (RxHalf.reply · (BitVec.ofNat 48 n))
      (RxHalf.capture_withKey { r with stream := stream, tent := n, held := none } k v (stream.take n))
  | ended | failed | hold p t => rfl

theorem RxHalf.finishDrop_withKey (r : RxHalf) (k : Memory) : (r.withKey k).finishDrop = r.finishDrop.withKey k := by
  simp only [RxHalf.finishDrop, RxHalf.withKey_stream, RxHalf.withKey_closed]
  split <;> rfl

theorem RxHalf.resume_withKey (r : RxHalf) (k : Memory) : (r.withKey k).resume = r.resume.withKey k := by
  simp only [RxHalf.resume, RxHalf.withKey_held, RxHalf.withKey_stream, RxHalf.withKey_closed, RxHalf.withKey_tent]
  split
  · rfl
  · exact r.finishScan_withKey k _
  · exact r.finishDrop_withKey k

/-- Beside another `R.RXKEY`, every command but `SIG.VFY` has the same effect, the key apart. -/
theorem rxEffect_withKey {i : Instr} (h : i ≠ .sigVfy) (e : Nat) (r : RxHalf) (k : Memory) :
    ∃ k', rxEffect i e (r.withKey k) = (rxEffect i e r).withKey k' := by
  cases i with
  | stb sp ix b => exact r.stb_withKey sp ix b e k
  | sigVfy => exact absurd rfl h
  | rdr reg => exact ⟨k, r.rdr_withKey reg e k⟩
  | wrr reg v => exact ⟨k, r.wrr_withKey reg v e k⟩
  | ldb sp ix => exact ⟨k, r.ldb_withKey sp ix e k⟩
  | crcBuf sp off n => exact ⟨k, r.crcBuf_withKey sp off n e k⟩
  | decV1 => exact ⟨k, r.decodeWindow_withKey .v1 e k⟩
  | decV2 => exact ⟨k, r.decodeWindow_withKey .v2 e k⟩
  | rxChk seed => exact ⟨k, r.rxChk_withKey seed e k⟩
  | syncNext => exact ⟨k, RxHalf.resume_withKey { r.clearFrame.bufCommit with held := some (.scan .marker) } k⟩
  | syncDrop => exact ⟨k, RxHalf.resume_withKey { r.clearFrame.bufRollback with held := some .drop } k⟩
  | crcInit | crcAcc _ | encV1 | encV2U | encV2S | txSend | syncConnect => exact ⟨k, rfl⟩

/-! #### The machine -/

theorem State.chan_eq_tx_or_rx (s : State) : s.chan = .tx ∨ s.chan = .rx := by
  cases s.chan <;> simp

/-- Two machines that differ in `T.TXKEY` differ after a command in `T.TXKEY` alone, unless the command signs a frame. -/
theorem exec_withTxKey {i : Instr} {s : State} (h : i ≠ .encV2S ∨ s.chan = .rx) (k : Memory) :
    ∃ t k', exec i s = .next t ∧ exec i { s with tx := s.tx.withKey k } = .next { t with tx := t.tx.withKey k' } := by
  rcases s.chan_eq_tx_or_rx with hc | hc
  · have hi : i ≠ .encV2S := h.resolve_right (by simp [hc])
    obtain ⟨k', hk⟩ := txEffect_withKey hi s.epoch s.tx k
    refine ⟨_, k', exec_tx i hc, ?_⟩
    rw [exec_tx i (s := { s with tx := s.tx.withKey k }) hc, hk]
  · exact ⟨_, k, exec_rx i hc, exec_rx i (s := { s with tx := s.tx.withKey k }) hc⟩

/-- Two machines that differ in `R.RXKEY` differ after a command in `R.RXKEY` alone, unless the command verifies a
signature. -/
theorem exec_withRxKey {i : Instr} {s : State} (h : i ≠ .sigVfy ∨ s.chan = .tx) (k : Memory) :
    ∃ t k', exec i s = .next t ∧ exec i { s with rx := s.rx.withKey k } = .next { t with rx := t.rx.withKey k' } := by
  rcases s.chan_eq_tx_or_rx with hc | hc
  · exact ⟨_, k, exec_tx i hc, exec_tx i (s := { s with rx := s.rx.withKey k }) hc⟩
  · have hi : i ≠ .sigVfy := h.resolve_right (by simp [hc])
    obtain ⟨k', hk⟩ := rxEffect_withKey hi s.epoch s.rx k
    refine ⟨_, k', exec_rx i hc, ?_⟩
    rw [exec_rx i (s := { s with rx := s.rx.withKey k }) hc, hk]

/-- Settles O22: beside another key each effect but the two that hash is the same, the key apart. -/
theorem keysReachTheHostOnlyThroughSignatures : Obligations.KeysReachTheHostOnlyThroughSignatures :=
  fun _ _ k => ⟨fun h => exec_withTxKey h k, fun h => exec_withRxKey h k⟩

end Sys2Proof.Machine

/-! PROOFS. The statements of 30_encoding.md: the decoder and the encoder are inverse to each other, a word selects a command by
its mask, the operands' slices, `ILLEGAL` words, and the one response of a command. -/

namespace Sys2Proof

/-! ### Words cut into slices -/

/-- A word is its three consecutive slices. -/
theorem append_slices {n m p : Nat} (x : BitVec (n + m + p)) :
    x.extractLsb' (p + m) n ++ x.extractLsb' p m ++ x.extractLsb' 0 p = x := by
  rw [BitVec.extractLsb'_append_extractLsb'_eq_extractLsb' rfl, BitVec.extractLsb'_append_extractLsb']

/-- A word with a zero high part is its low part, zero-extended. -/
theorem zero_append_low {n m : Nat} {x : BitVec (n + m)} (h : x.extractLsb' m n = 0#n) : 0#n ++ x.extractLsb' 0 m = x := by
  rw [← h, BitVec.extractLsb'_append_extractLsb']

/-- The same, with the low part cut in two. -/
theorem zero_append_low2 {n m p : Nat} {x : BitVec (n + m + p)} (h : x.extractLsb' (p + m) n = 0#n) :
    0#n ++ x.extractLsb' p m ++ x.extractLsb' 0 p = x := by
  rw [← h, append_slices]

/-- The middle one of three fields. -/
theorem extract_middle {n m p : Nat} (x : BitVec n) (y : BitVec m) (z : BitVec p) :
    (x ++ y ++ z).extractLsb' p m = y := by
  rw [BitVec.extractLsb'_append_eq_of_le (Nat.le_refl p), Nat.sub_self, BitVec.extractLsb'_append_eq_right]

/-- A mask of a high part selects nothing exactly when the high part is zero. -/
theorem and_high_mask_eq_zero_iff {n m : Nat} (x : BitVec (n + m)) :
    x &&& (BitVec.allOnes n ++ 0#m) = 0#(n + m) ↔ x.extractLsb' m n = 0#n := by
  have hand : x &&& (BitVec.allOnes n ++ 0#m) = x.extractLsb' m n ++ 0#m := by
    conv_lhs => rw [← BitVec.extractLsb'_append_extractLsb' (x := x), BitVec.and_append]
    simp
  rw [hand, ← BitVec.zero_append_zero, BitVec.append_left_inj]

/-! ### The word as its three fields (30_encoding.md R97) -/

/-- A word is made of its fields. -/
theorem mkWord_fields (w : CmdWord) : mkWord (opField w) (aField w) (immField w) = w :=
  append_slices (n := 8) (m := 8) (p := 48) w

theorem mkWord_inj {op a op' a' : BitVec 8} {imm imm' : BitVec 48} :
    mkWord op a imm = mkWord op' a' imm' ↔ op = op' ∧ a = a' ∧ imm = imm' := by
  constructor
  · intro h
    have hop := congrArg opField h
    have ha := congrArg aField h
    have himm := congrArg immField h
    rw [opField_mkWord, opField_mkWord] at hop
    rw [aField_mkWord, aField_mkWord] at ha
    rw [immField_mkWord, immField_mkWord] at himm
    exact ⟨hop, ha, himm⟩
  · rintro ⟨rfl, rfl, rfl⟩
    rfl

theorem mkWord_and (op a op' a' : BitVec 8) (imm imm' : BitVec 48) :
    mkWord op a imm &&& mkWord op' a' imm' = mkWord (op &&& op') (a &&& a') (imm &&& imm') := by
  unfold mkWord
  rw [BitVec.and_append, BitVec.and_append]

/-- `op << 56` of R98 is the word with that opcode and nothing else. -/
theorem shifted_code_eq_mkWord (c : BitVec 8) : c.setWidth 64 <<< 56 = mkWord c 0 0 := by
  have h : (mkWord c 0 0).setWidth 64 = c.setWidth 64 <<< 56 ||| (0#8).setWidth 64 <<< 48 ||| (0#48).setWidth 64 :=
    BitVec.setWidth_append_append_eq_shiftLeft_setWidth_or
  rw [BitVec.setWidth_eq] at h
  exact (h.trans (by simp)).symm

/-! ### The rows of the table (R96) -/

@[simp] theorem Opcode.ofCode_code (o : Opcode) : Opcode.ofCode o.code = some o := by
  cases o <;> rfl

/-- Two rows have different opcodes, so the table finds a row by its opcode alone. -/
theorem Opcode.ofCode_eq_some_iff {c : BitVec 8} {o : Opcode} : Opcode.ofCode c = some o ↔ o.code = c := by
  constructor
  · intro h
    exact eq_of_beq (List.find?_some (p := fun o : Opcode => o.code == c) h)
  · rintro rfl
    exact o.ofCode_code

/-! ### What a word decodes to (R98, R99) -/

/-- A word decodes to the command built from its fields by the row of its opcode, where the must-be-zero bits are zero. -/
theorem decode_eq_instr_iff {w : CmdWord} {i : Instr} :
    decode w = .instr i ↔
      ∃ o : Opcode, o.code = opField w ∧ o.format.zerosOk (aField w) (immField w) = true ∧
        o.build (aField w) (immField w) = i := by
  constructor
  · intro hd
    unfold decode at hd
    split at hd
    · cases hd
    · rename_i o ho
      split at hd
      · rename_i hz
        exact ⟨o, Opcode.ofCode_eq_some_iff.1 ho, hz, Decoded.instr.inj hd⟩
      · cases hd
  · rintro ⟨o, hcode, hz, rfl⟩
    unfold decode
    rw [Opcode.ofCode_eq_some_iff.2 hcode]
    exact if_pos hz

@[simp] theorem Opcode.opcode_build (o : Opcode) (a : BitVec 8) (imm : BitVec 48) : (o.build a imm).opcode = o := by
  cases o <;> rfl

/-- The operands of a command are read back from its own fields. -/
theorem Instr.build_fields (i : Instr) : i.opcode.build i.aBits i.immBits = i := by
  cases i with
  | ldb sp ix => exact congrArg (Instr.ldb sp) BitVec.extractLsb'_append_eq_right
  | stb sp ix b => exact congrArg₂ (Instr.stb sp) (extract_middle 0#24 ix b) BitVec.extractLsb'_append_eq_right
  | crcAcc b => exact congrArg Instr.crcAcc BitVec.extractLsb'_append_eq_right
  | crcBuf sp off n => exact congrArg₂ (Instr.crcBuf sp) (extract_middle 0#16 off n) BitVec.extractLsb'_append_eq_right
  | rxChk seed => exact congrArg Instr.rxChk BitVec.extractLsb'_append_eq_right
  | rdr _ | wrr _ _ | crcInit | encV1 | encV2U | encV2S | txSend | decV1 | decV2 | sigVfy | syncNext | syncDrop
  | syncConnect => rfl

/-- Where the must-be-zero bits are zero, the `a` field of the command built is the field it was built from. -/
theorem Opcode.aBits_build {o : Opcode} {a : BitVec 8} {imm : BitVec 48} (h : o.format.zerosOk a imm = true) :
    (o.build a imm).aBits = a := by
  cases o with
  | rdr | wrr | ldb | stb | crcBuf => rfl
  | crcInit | crcAcc | encV1 | encV2U | encV2S | txSend | decV1 | decV2 | rxChk | sigVfy | syncNext | syncDrop
  | syncConnect =>
    have ha : a = 0 := eq_of_beq (Bool.and_eq_true_iff.1 h).1
    exact ha.symm

/-- The same for the `imm` field. -/
theorem Opcode.immBits_build {o : Opcode} {a : BitVec 8} {imm : BitVec 48} (h : o.format.zerosOk a imm = true) :
    (o.build a imm).immBits = imm := by
  cases o with
  | wrr => rfl
  | rdr => exact (eq_of_beq h).symm
  | ldb => exact zero_append_low (n := 32) (m := 16) (eq_of_beq h)
  | stb => exact zero_append_low2 (n := 24) (m := 16) (p := 8) (eq_of_beq h)
  | crcBuf => exact zero_append_low2 (n := 16) (m := 16) (p := 16) (eq_of_beq h)
  | crcAcc | rxChk => exact zero_append_low (n := 40) (m := 8) (eq_of_beq (Bool.and_eq_true_iff.1 h).2)
  | crcInit | encV1 | encV2U | encV2S | txSend | decV1 | decV2 | sigVfy | syncNext | syncDrop | syncConnect =>
    exact (eq_of_beq (Bool.and_eq_true_iff.1 h).2).symm

/-- Every command's word has its row's opcode, and its must-be-zero bits are zero. -/
theorem encode_matches_row (i : Instr) : Laws.EncodeMatchesRow.Statement i := by
  cases i with
  | ldb sp ix => exact Laws.EncodeMatchesRow.ldb sp ix
  | stb sp ix b => exact Laws.EncodeMatchesRow.stb sp ix b
  | crcAcc b => exact Laws.EncodeMatchesRow.crcAcc b
  | crcBuf sp off n => exact Laws.EncodeMatchesRow.crcBuf sp off n
  | rxChk seed => exact Laws.EncodeMatchesRow.rxChk seed
  | rdr _ | wrr _ _ | crcInit | encV1 | encV2U | encV2S | txSend | decV1 | decV2 | sigVfy | syncNext | syncDrop
  | syncConnect => exact Laws.EncodeMatchesRow.of_zeros rfl

/-- Settles O1: the table finds the command's row, its must-be-zero bits are zero, and its operands are read back. -/
theorem decodeOfEncodeIsTheCommand : Obligations.DecodeOfEncodeIsTheCommand := by
  intro i
  obtain ⟨hop, hz⟩ := encode_matches_row i
  refine decode_eq_instr_iff.2 ⟨i.opcode, hop.symm, hz, ?_⟩
  rw [encode, aField_mkWord, immField_mkWord, i.build_fields]

/-- Settles O2: each of the three fields of the word is that of the command built from it. -/
theorem encodeOfDecodeIsTheWord : Obligations.EncodeOfDecodeIsTheWord := by
  intro w i hd
  obtain ⟨o, hcode, hz, rfl⟩ := decode_eq_instr_iff.1 hd
  rw [encode, o.opcode_build, hcode, Opcode.aBits_build hz, Opcode.immBits_build hz, mkWord_fields]

/-! ### The masks (R98) -/

/-- The part of a format's mask in the `a` field. -/
def Format.aMask : Format → BitVec 8
  | .N | .B => BitVec.allOnes 8
  | .R | .W | .L | .S | .C => 0#8

/-- The part of a format's mask in the `imm` field. -/
def Format.immMask : Format → BitVec 48
  | .N | .R => BitVec.allOnes 48
  | .W => 0#48
  | .L => (BitVec.allOnes 32 ++ 0#16 : BitVec (32 + 16))
  | .S => (BitVec.allOnes 24 ++ 0#24 : BitVec (24 + 24))
  | .B => (BitVec.allOnes 40 ++ 0#8 : BitVec (40 + 8))
  | .C => (BitVec.allOnes 16 ++ 0#32 : BitVec (16 + 32))

theorem Format.mask_eq_mkWord (f : Format) : f.mask = mkWord (BitVec.allOnes 8) f.aMask f.immMask := by
  cases f <;> rfl

/-- The must-be-zero bits are the bits of `a` and `imm` under the mask. -/
theorem Format.zerosOk_iff (f : Format) (a : BitVec 8) (imm : BitVec 48) :
    f.zerosOk a imm = true ↔ a &&& f.aMask = 0 ∧ imm &&& f.immMask = 0 := by
  cases f with
  | N => simp only [Format.zerosOk, Format.aMask, Format.immMask, BitVec.and_allOnes, Bool.and_eq_true, beq_iff_eq]
  | R => simp [Format.zerosOk, Format.aMask, Format.immMask, BitVec.and_allOnes, -BitVec.reduceAllOnes]
  | W => simp [Format.zerosOk, Format.aMask, Format.immMask]
  | L => simpa [Format.zerosOk, Format.aMask, Format.immMask] using (and_high_mask_eq_zero_iff (n := 32) (m := 16) imm).symm
  | S => simpa [Format.zerosOk, Format.aMask, Format.immMask] using (and_high_mask_eq_zero_iff (n := 24) (m := 24) imm).symm
  | B =>
    simp only [Format.zerosOk, Format.aMask, BitVec.and_allOnes, Bool.and_eq_true, beq_iff_eq]
    exact and_congr_right' (and_high_mask_eq_zero_iff (n := 40) (m := 8) imm).symm
  | C => simpa [Format.zerosOk, Format.aMask, Format.immMask] using (and_high_mask_eq_zero_iff (n := 16) (m := 32) imm).symm

/-- `word & mask = op << 56` says that the word has the opcode and zeros where its format wants them. -/
theorem and_mask_eq_iff (f : Format) (c : BitVec 8) (w : CmdWord) :
    w &&& f.mask = c.setWidth 64 <<< 56 ↔ opField w = c ∧ f.zerosOk (aField w) (immField w) = true := by
  have hand : w &&& f.mask = mkWord (opField w) (aField w &&& f.aMask) (immField w &&& f.immMask) := by
    conv_lhs => rw [← mkWord_fields w, f.mask_eq_mkWord, mkWord_and, BitVec.and_allOnes]
  rw [hand, shifted_code_eq_mkWord, mkWord_inj, f.zerosOk_iff]

/-- R98: "A word selects a command when `word & mask = op << 56`." -/
theorem selects_iff_and_mask (w : CmdWord) (o : Opcode) :
    (∃ i, decode w = .instr i ∧ i.opcode = o) ↔ w &&& o.format.mask = o.code.setWidth 64 <<< 56 := by
  rw [and_mask_eq_iff]
  constructor
  · rintro ⟨i, hd, rfl⟩
    obtain ⟨o, hcode, hz, rfl⟩ := decode_eq_instr_iff.1 hd
    rw [o.opcode_build]
    exact ⟨hcode.symm, hz⟩
  · rintro ⟨hcode, hz⟩
    exact ⟨_, decode_eq_instr_iff.2 ⟨o, hcode.symm, hz, rfl⟩, o.opcode_build _ _⟩

/-- Settles O3: a word selects a row by its mask, and the rows' opcodes and masks are those of the tables. -/
theorem wordSelectsACommandByItsMask : Obligations.WordSelectsACommandByItsMask := by
  refine ⟨selects_iff_and_mask, fun o c m h => ?_⟩
  refine (List.forall_iff_forall_mem (p := fun r => r.1.code = r.2.1 ∧ r.1.format.mask = r.2.2)).1 ?_ (o, c, m) h
  decide

/-! ### The operands (R99) -/

/-- A slice inside `imm` is the same slice of the word. -/
theorem extract_immField {k n : Nat} (h : k + n ≤ 48) (w : CmdWord) : (immField w).extractLsb' k n = w.extractLsb' k n :=
  BitVec.extractLsb'_extractLsb'_of_le h

/-- Settles O4: `a` is a slice of the word, and each other operand is a slice of `imm`. -/
theorem operandsAreTheSlicesOfTheWord : Obligations.OperandsAreTheSlicesOfTheWord := by
  intro w i hd
  obtain ⟨o, -, -, rfl⟩ := decode_eq_instr_iff.1 hd
  cases o with
  | rdr => rfl
  | wrr => exact ⟨rfl, rfl⟩
  | ldb => exact ⟨rfl, extract_immField (by decide) w⟩
  | stb => exact ⟨rfl, extract_immField (by decide) w, extract_immField (by decide) w⟩
  | crcBuf => exact ⟨rfl, extract_immField (by decide) w, extract_immField (by decide) w⟩
  | crcAcc | rxChk => exact extract_immField (by decide) w
  | crcInit | encV1 | encV2U | encV2S | txSend | decV1 | decV2 | sigVfy | syncNext | syncDrop | syncConnect =>
    exact trivial

end Sys2Proof

namespace Sys2Proof.Machine

/-! ### A word that is no command of its channel (R103) -/

/-- A command that is not legal on its channel does there what a word that is no command does. -/
theorem exec_illegal {i : Instr} {s : State} (h : i.wellFormed s.chan = false) : exec i s = .next s.raiseIllegal := by
  rw [exec_eq, State.raiseIllegal]
  rcases s.chan_eq_tx_or_rx with hc | hc <;> rw [hc] at h
  · rw [State.onChannel_tx _ _ _ hc, State.onChannel_tx _ _ _ hc, txEffect_illegal h]
  · rw [State.onChannel_rx _ _ _ hc, State.onChannel_rx _ _ _ hc, rxEffect_illegal h]

/-- A word under no mask of a command legal on the channel is answered as no command. -/
theorem runWord_illegal {w : CmdWord} {s : State}
    (h : ∀ i : Instr, i.wellFormed s.chan = true → w &&& i.opcode.format.mask ≠ i.opcode.code.setWidth 64 <<< 56) :
    runWord w s = .next s.raiseIllegal := by
  unfold runWord
  cases hd : decode w with
  | illegal why => rfl
  | instr i =>
    have hsel := (selects_iff_and_mask w i.opcode).1 ⟨i, hd, rfl⟩
    exact exec_illegal (Bool.eq_false_iff.2 fun hwf => h i hwf hsel)

/-- Settles O6: the word decodes to no command, or to one that is illegal on its channel; either way it is refused. -/
theorem illegalWordChangesNothing : Obligations.IllegalWordChangesNothing := by
  intro w s h
  refine ⟨fun hc => ?_, fun hc => ?_⟩ <;> rw [runWord_illegal h, State.raiseIllegal]
  · rw [State.onChannel_tx _ _ _ hc]
    rfl
  · rw [State.onChannel_rx _ _ _ hc]
    rfl

/-! ### One response when a command completes (R97, 44_sync.md R190) -/

/-- What has become of a command in progress: it is held and has answered nothing beyond `rs`, or it has completed with one
response. -/
def AnswersOnCompletion (rs : List Response) (held : Bool) (rs' : List Response) : Prop :=
  (held = true ∧ rs' = rs) ∨ (held = false ∧ ∃ x, rs' = rs ++ [x])

/-- A TX command other than `TX.SEND` answers at once: it holds nothing, and the response is its only one. -/
theorem txEffect_answers_at_once {i : Instr} (h : i ≠ .txSend) (e : Nat) (t : TxHalf) :
    (txEffect i e t).sending = t.sending ∧ ∃ x, (txEffect i e t).responses = t.responses ++ [x] := by
  cases i with
  | rdr reg => simp only [txEffect, TxHalf.rdr]; split <;> exact ⟨rfl, _, rfl⟩
  | wrr reg v =>
    simp only [txEffect, TxHalf.wrr]
    split
    · exact ⟨rfl, _, rfl⟩
    · rename_i y _
      cases y <;> exact ⟨rfl, _, rfl⟩
  | ldb sp ix => simp only [txEffect, TxHalf.ldb]; split <;> exact ⟨rfl, _, rfl⟩
  | stb sp ix b => simp only [txEffect, TxHalf.stb]; split <;> exact ⟨rfl, _, rfl⟩
  | crcBuf sp off n => simp only [txEffect, TxHalf.crcBuf]; split <;> exact ⟨rfl, _, rfl⟩
  | encV1 => simp only [txEffect, TxHalf.encV1]; split <;> exact ⟨rfl, _, rfl⟩
  | txSend => exact absurd rfl h
  | encV2U | encV2S => exact ⟨TxHalf.finishEncode_sending _ _, _, TxHalf.finishEncode_responses _ _⟩
  | crcInit | crcAcc _ | decV1 | decV2 | rxChk _ | sigVfy | syncNext | syncDrop | syncConnect => exact ⟨rfl, _, rfl⟩

/-- A `TX.SEND` in progress waits for the sink, or answers with what the sink did. -/
theorem TxHalf.resume_answers (e : Nat) {t : TxHalf} (h : t.sending = true) :
    AnswersOnCompletion t.responses (t.resume e).sending (t.resume e).responses := by
  cases hk : t.sink with
  | nil => rw [TxHalf.resume_of_no_answer e hk]; exact .inl ⟨h, rfl⟩
  | cons a rest =>
    rw [TxHalf.resume_of_answer e h hk]
    cases a <;> exact .inr ⟨rfl, _, rfl⟩

/-- `TX.SEND` is refused, or is a send in progress. -/
theorem TxHalf.txSend_answers (e : Nat) {t : TxHalf} (h : t.sending = false) :
    AnswersOnCompletion t.responses (t.txSend e).sending (t.txSend e).responses := by
  unfold TxHalf.txSend
  split
  · exact .inr ⟨h, _, rfl⟩
  · exact TxHalf.resume_answers e (t := { t with sending := true }) rfl

theorem txEffect_answers (i : Instr) (e : Nat) {t : TxHalf} (h : t.sending = false) :
    AnswersOnCompletion t.responses (txEffect i e t).sending (txEffect i e t).responses := by
  by_cases hi : i = .txSend
  · subst hi
    exact TxHalf.txSend_answers e h
  · obtain ⟨hs, hx⟩ := txEffect_answers_at_once hi e t
    exact .inr ⟨hs.trans h, hx⟩

/-- An RX command other than the two of the scanner that can be held answers at once. -/
theorem rxEffect_answers_at_once {i : Instr} (hn : i ≠ .syncNext) (hd : i ≠ .syncDrop) (e : Nat) (r : RxHalf) :
    (rxEffect i e r).held = r.held ∧ ∃ x, (rxEffect i e r).responses = r.responses ++ [x] := by
  cases i with
  | rdr reg => simp only [rxEffect, RxHalf.rdr]; split <;> exact ⟨rfl, _, rfl⟩
  | wrr reg v =>
    simp only [rxEffect, RxHalf.wrr]
    split
    · exact ⟨rfl, _, rfl⟩
    · rename_i y _
      cases y <;> exact ⟨rfl, _, rfl⟩
  | ldb sp ix => simp only [rxEffect, RxHalf.ldb]; split <;> exact ⟨rfl, _, rfl⟩
  | stb sp ix b => simp only [rxEffect, RxHalf.stb]; split <;> exact ⟨rfl, _, rfl⟩
  | crcBuf sp off n => simp only [rxEffect, RxHalf.crcBuf]; split <;> exact ⟨rfl, _, rfl⟩
  | decV1 => simp only [rxEffect, RxHalf.decodeWindow]; split <;> exact ⟨rfl, _, rfl⟩
  | decV2 => simp only [rxEffect, RxHalf.decodeWindow]; split <;> exact ⟨rfl, _, rfl⟩
  | rxChk seed => simp only [rxEffect, RxHalf.rxChk]; split <;> exact ⟨rfl, _, rfl⟩
  | sigVfy =>
    simp only [rxEffect, RxHalf.sigVfy]
    split
    · exact ⟨rfl, _, rfl⟩
    · split
      · exact ⟨rfl, _, rfl⟩
      · exact ⟨RxHalf.answer_held _ _, _, RxHalf.answer_responses _ _⟩
  | syncNext => exact absurd rfl hn
  | syncDrop => exact absurd rfl hd
  | crcInit | crcAcc _ | encV1 | encV2U | encV2S | txSend | syncConnect => exact ⟨rfl, _, rfl⟩

theorem RxHalf.capture_held (r : RxHalf) (v : Ver) (w : Bytes) : (r.capture v w).held = r.held := by
  unfold RxHalf.capture
  dsimp only
  split <;> rfl

theorem RxHalf.capture_responses (r : RxHalf) (v : Ver) (w : Bytes) : (r.capture v w).responses = r.responses := by
  unfold RxHalf.capture
  dsimp only
  split <;> rfl

/-- A scan in progress stops with an answer, or holding. -/
theorem RxHalf.finishScan_answers {r : RxHalf} (h : r.held.isSome = true) (x : ScanResult) :
    AnswersOnCompletion r.responses (r.finishScan x).held.isSome (r.finishScan x).responses := by
  obtain ⟨stream, stop⟩ := x
  cases stop with
  | ended => exact .inr ⟨rfl, _, rfl⟩
  | found v n =>
    refine .inr ⟨congrArg Option.isSome (RxHalf.capture_held _ v _), ⟨.ok, BitVec.ofNat 48 n⟩, ?_⟩
    exact congrArg (· ++ [_]) (RxHalf.capture_responses _ v _)
  | hold p t => exact .inl ⟨rfl, rfl⟩
  | failed => exact .inl ⟨h, rfl⟩

theorem RxHalf.finishDrop_answers (r : RxHalf) :
    AnswersOnCompletion r.responses r.finishDrop.held.isSome r.finishDrop.responses := by
  unfold RxHalf.finishDrop
  split
  · exact .inr ⟨rfl, _, rfl⟩
  · exact .inr ⟨rfl, _, rfl⟩
  · exact .inl ⟨rfl, rfl⟩

/-- A scanner command in progress goes on until it answers or is held. -/
theorem RxHalf.resume_answers {r : RxHalf} (h : r.held.isSome = true) :
    AnswersOnCompletion r.responses r.resume.held.isSome r.resume.responses := by
  unfold RxHalf.resume
  split
  · rename_i hn
    rw [hn] at h
    cases h
  · exact RxHalf.finishScan_answers h _
  · exact r.finishDrop_answers

theorem rxEffect_answers (i : Instr) (e : Nat) {r : RxHalf} (h : r.held = none) :
    AnswersOnCompletion r.responses (rxEffect i e r).held.isSome (rxEffect i e r).responses := by
  by_cases hn : i = .syncNext
  · subst hn
    exact RxHalf.resume_answers (r := { r.clearFrame.bufCommit with held := some (.scan .marker) }) rfl
  by_cases hd : i = .syncDrop
  · subst hd
    exact RxHalf.resume_answers (r := { r.clearFrame.bufRollback with held := some .drop }) rfl
  obtain ⟨hs, hx⟩ := rxEffect_answers_at_once hn hd e r
  exact .inr ⟨by rw [hs, h]; rfl, hx⟩

/-- What a move of the outside world does to the command of a channel: nothing, or it completes a held one with one response. -/
def CompletesAtMost (held : Bool) (rs : List Response) (held' : Bool) (rs' : List Response) : Prop :=
  (held' = held ∧ rs' = rs) ∨ (held = true ∧ held' = false ∧ ∃ x, rs' = rs ++ [x])

theorem CompletesAtMost.of_held {rs rs' : List Response} {held : Bool} (h : AnswersOnCompletion rs held rs') :
    CompletesAtMost true rs held rs' :=
  h.imp_right fun ⟨hd, hx⟩ => ⟨rfl, hd, hx⟩

theorem TxHalf.resume_completes (e : Nat) (t : TxHalf) :
    CompletesAtMost t.sending t.responses (t.resume e).sending (t.resume e).responses := by
  cases h : t.sending with
  | false => rw [TxHalf.resume_of_not_sending e h]; exact .inl ⟨h, rfl⟩
  | true => exact .of_held (TxHalf.resume_answers e h)

theorem RxHalf.resume_completes (r : RxHalf) :
    CompletesAtMost r.held.isSome r.responses r.resume.held.isSome r.resume.responses := by
  cases h : r.held with
  | none => rw [RxHalf.resume_of_not_held h]; exact .inl ⟨congrArg Option.isSome h, rfl⟩
  | some x => exact .of_held (RxHalf.resume_answers (by rw [h]; rfl))

theorem RxHalf.deliver_completes (r : RxHalf) (b : Byte) :
    CompletesAtMost r.held.isSome r.responses (r.deliver b).held.isSome (r.deliver b).responses := by
  cases h : r.closed with
  | true => rw [RxHalf.deliver_of_closed h]; exact .inl ⟨rfl, rfl⟩
  | false => rw [RxHalf.deliver_of_open h]; exact RxHalf.resume_completes { r with stream := r.stream ++ [b] }

theorem State.issue_isHeld (s : State) (d : Channel) (w : CmdWord) (c : Channel) : (s.issue d w).isHeld c = s.isHeld c := by
  cases d <;> cases c <;> rfl

theorem State.issue_responses (s : State) (d : Channel) (w : CmdWord) (c : Channel) :
    (s.issue d w).responses c = s.responses c := by
  cases d <;> cases c <;> rfl

/-- The sink's move can complete the TX command, the source's moves the RX command; no other move touches either. -/
theorem State.applyMove_completes (s : State) {m : Move} (hm : m ≠ .reset) (c : Channel) :
    CompletesAtMost (s.isHeld c) (s.responses c) ((s.applyMove m).isHeld c) ((s.applyMove m).responses c) := by
  cases m with
  | issue d w => exact .inl ⟨s.issue_isHeld d w c, s.issue_responses d w c⟩
  | deliver b =>
    cases c with
    | tx => exact .inl ⟨rfl, rfl⟩
    | rx => exact s.rx.deliver_completes b
  | close =>
    cases c with
    | tx => exact .inl ⟨rfl, rfl⟩
    | rx => exact RxHalf.resume_completes { s.rx with closed := true }
  | sink a =>
    cases c with
    | tx => exact TxHalf.resume_completes s.epoch { s.tx with sink := s.tx.sink ++ [a] }
    | rx => exact .inl ⟨rfl, rfl⟩
  | reset => exact absurd rfl hm
  | wait => exact .inl ⟨rfl, rfl⟩

/-- Settles O10: a command's effect answers once or leaves it held, and a move can only complete what is held. -/
theorem commandGetsOneResponseWhenItCompletes : Obligations.CommandGetsOneResponseWhenItCompletes := by
  refine ⟨fun i s t hfree he => ?_, fun m s c hm => s.applyMove_completes hm c⟩
  rcases exec_cases he with ⟨hc, rfl⟩ | ⟨hc, rfl⟩ <;> rw [hc] at hfree ⊢
  · exact ⟨rfl, rfl, txEffect_answers i s.epoch hfree⟩
  · exact ⟨rfl, rfl, rxEffect_answers i s.epoch (Option.not_isSome_iff_eq_none.1 (Bool.eq_false_iff.1 hfree))⟩

end Sys2Proof.Machine

/-! PROOFS. The statements of 40_crc.md: the commands of the checksum unit, the forms and the laws of `CrcAcc`, and `RX.CHK` over the
wire bytes of a decoded frame. -/

namespace Sys2Proof.Machine

/-! ### The bit loop (40_crc.md R121) -/

theorem crcBits_eq_iterate (n : Nat) (c : BitVec 16) : crcBits n c = crcBit^[n] c := by
  induction n generalizing c with
  | zero => rfl
  | succ n ih => exact ih (crcBit c)

@[simp] theorem crcBits_zero (n : Nat) : crcBits n 0 = 0 := by
  induction n with
  | zero => rfl
  | succ n ih => exact ih

/-- While only zeros are shifted out, the bit loop is a shift. -/
theorem crcBits_eq_ushiftRight {n : Nat} {c : BitVec 16} (h : ∀ i < n, c.getLsbD i = false) : crcBits n c = c >>> n := by
  induction n generalizing c with
  | zero => rfl
  | succ n ih =>
    have hbit : crcBit c = c >>> 1 := by rw [crcBit, h 0 n.succ_pos]; rfl
    have hlow : ∀ i < n, (c >>> 1).getLsbD i = false := fun i hi => by
      rw [BitVec.getLsbD_ushiftRight]; exact h (1 + i) (by omega)
    rw [crcBits, hbit, ih hlow, ← BitVec.shiftRight_add, Nat.add_comm]

@[simp] theorem crcAcc_zero_zero : crcAcc 0 0 = 0 := crcBits_zero 8

/-- `CrcAcc` is linear over exclusive-or, in both arguments together (R126 (c)). -/
theorem crcAcc_xor (c d : BitVec 16) (b e : Byte) : crcAcc (c ^^^ d) (b ^^^ e) = crcAcc c b ^^^ crcAcc d e := by
  have hargs : c ^^^ d ^^^ (b ^^^ e).setWidth 16 = (c ^^^ b.setWidth 16) ^^^ (d ^^^ e.setWidth 16) := by
    rw [BitVec.setWidth_xor]; ac_rfl
  rw [crcAcc, hargs, crcBits_xor]; rfl

theorem crcAcc_zero_left (b : Byte) : crcAcc 0 b = crcBits 8 (b.setWidth 16) :=
  congrArg (crcBits 8) BitVec.zero_xor

/-- A word is its high byte in place and its low byte. -/
theorem high_xor_low (x : BitVec 16) : (x >>> 8 <<< 8) ^^^ (x.setWidth 8).setWidth 16 = x := by
  apply BitVec.eq_of_getLsbD_eq
  intro i hi
  rcases Nat.lt_or_ge i 8 with h | h
  · simp [h, hi]
  · simp [Nat.not_lt.2 h, hi, Nat.add_sub_cancel' h]

/-- Eight steps of the bit loop shift the high byte out into the low one. -/
theorem crcBits_eight_high (x : BitVec 16) : crcBits 8 (x >>> 8 <<< 8) = x >>> 8 := by
  rw [crcBits_eq_ushiftRight fun i hi => by simp [hi]]
  apply BitVec.eq_of_getLsbD_eq
  intro i hi
  simpa using fun h => BitVec.lt_of_getLsbD h

/-- The table form: the eight steps shift the high byte out, and the low byte, mixed with the new one, selects what is added. -/
theorem crcAcc_eq_table (c : BitVec 16) (b : Byte) :
    crcAcc c b = (c >>> 8) ^^^ crcAcc 0 ((c ^^^ b.setWidth 16).setWidth 8) := by
  have hhigh : (c ^^^ b.setWidth 16) >>> 8 = c >>> 8 := by
    have hb : b.setWidth 16 >>> 8 = 0#16 := BitVec.eq_of_getLsbD_eq fun i _ => by simp
    rw [BitVec.ushiftRight_xor_distrib, hb, BitVec.xor_zero]
  calc crcAcc c b = crcBits 8 ((c ^^^ b.setWidth 16) >>> 8 <<< 8 ^^^ ((c ^^^ b.setWidth 16).setWidth 8).setWidth 16) :=
        congrArg (crcBits 8) (high_xor_low _).symm
    _ = (c >>> 8) ^^^ crcAcc 0 ((c ^^^ b.setWidth 16).setWidth 8) := by
      rw [crcBits_xor, crcBits_eight_high, hhigh, crcAcc_zero_left]

/-- The byte-parallel form of a byte (R121). -/
def crcParallel (t : Byte) : BitVec 16 :=
  let u : Byte := t ^^^ (t <<< 4)
  (u.setWidth 16 <<< 8) ^^^ (u.setWidth 16 <<< 3) ^^^ (u.setWidth 16 >>> 4)

theorem crcParallel_xor (t u : Byte) : crcParallel (t ^^^ u) = crcParallel t ^^^ crcParallel u := by
  simp only [crcParallel, BitVec.shiftLeft_xor_distrib, BitVec.setWidth_xor, BitVec.ushiftRight_xor_distrib]
  ac_rfl

section
variable {n m : Nat} {f g : BitVec n → BitVec m}

theorem linear_zero (hf : ∀ x y, f (x ^^^ y) = f x ^^^ f y) : f 0 = 0 := by simpa using hf 0 0

/-- Two maps that are linear over exclusive-or and agree on the bits below `k` agree on every vector of those bits. -/
theorem eq_of_linear_of_low_bits (hf : ∀ x y, f (x ^^^ y) = f x ^^^ f y) (hg : ∀ x y, g (x ^^^ y) = g x ^^^ g y) {k : Nat}
    (hk : k ≤ n) (h : ∀ i < k, f (BitVec.twoPow n i) = g (BitVec.twoPow n i)) {x : BitVec n}
    (hx : ∀ i ≥ k, x.getLsbD i = false) : f x = g x := by
  induction k generalizing x with
  | zero =>
    have hzero : x = 0 := BitVec.eq_of_getLsbD_eq fun i _ => by simp [hx i]
    rw [hzero, linear_zero hf, linear_zero hg]
  | succ k ih =>
    have ih := @ih (by omega) fun i hi => h i (by omega)
    cases hb : x.getLsbD k with
    | false =>
      refine ih fun i hi => ?_
      rcases Nat.eq_or_lt_of_le hi with rfl | hlt
      · exact hb
      · exact hx i hlt
    | true =>
      have hrest : ∀ i ≥ k, (x ^^^ BitVec.twoPow n k).getLsbD i = false := fun i hi => by
        rcases Nat.eq_or_lt_of_le hi with rfl | hlt
        · simp [hb]; omega
        · simp [hx i hlt]; omega
      calc f x = f (x ^^^ BitVec.twoPow n k ^^^ BitVec.twoPow n k) := by simp
        _ = g (x ^^^ BitVec.twoPow n k ^^^ BitVec.twoPow n k) := by rw [hf, hg, ih hrest, h k k.lt_succ_self]
        _ = g x := by simp

/-- Two maps that are linear over exclusive-or are equal when they agree on each single bit. -/
theorem eq_of_linear (hf : ∀ x y, f (x ^^^ y) = f x ^^^ f y) (hg : ∀ x y, g (x ^^^ y) = g x ^^^ g y)
    (h : ∀ i < n, f (BitVec.twoPow n i) = g (BitVec.twoPow n i)) (x : BitVec n) : f x = g x :=
  eq_of_linear_of_low_bits hf hg le_rfl h fun i hi => BitVec.getLsbD_of_ge x i hi

end

/-- Both are linear, so the eight single-bit bytes decide it. -/
theorem crcAcc_zero_eq_crcParallel (t : Byte) : crcAcc 0 t = crcParallel t :=
  eq_of_linear (fun x y => by simpa using crcAcc_xor 0 0 x y) crcParallel_xor (by decide) t

/-- Settles O26: the high byte is shifted out, the low one is looked up, and the table is linear, so eight entries fix it. -/
theorem crcFormsAgree : Obligations.CrcFormsAgree := by
  refine ⟨fun c b => crcBits_eq_iterate 8 _, fun c b s => ⟨rfl, rfl, rfl⟩, fun i t h => ?_, fun c b => ⟨?_, crcAcc_eq_table c b⟩⟩
  · simp only [List.mem_cons, List.not_mem_nil, or_false, Prod.mk.injEq] at h
    rcases h with ⟨rfl, rfl⟩ | ⟨rfl, rfl⟩ | ⟨rfl, rfl⟩ | ⟨rfl, rfl⟩ | ⟨rfl, rfl⟩ <;> decide
  have hlow : (c ^^^ b.setWidth 16).setWidth 8 = b ^^^ c.setWidth 8 := by
    rw [BitVec.setWidth_xor, BitVec.xor_comm]; simp
  rw [crcAcc_eq_table, hlow, crcAcc_zero_eq_crcParallel]
  simp only [crcParallel, BitVec.xor_assoc]

/-! ### The laws (R126) -/

theorem crcAcc_injective (b : Byte) : Function.Injective fun c => crcAcc c b :=
  fun _ _ h => (BitVec.xor_left_inj _).1 (crcBits_injective 8 h)

theorem crcAcc_byte_injective (c : BitVec 16) : Function.Injective (crcAcc c) := fun x y h => by
  have hxy := (BitVec.xor_right_inj c).1 (crcBits_injective 8 h)
  simpa using congrArg (BitVec.setWidth 8) hxy

theorem crc16From_append (c : BitVec 16) (s u : Bytes) : crc16From c (s ++ u) = crc16From (crc16From c s) u :=
  List.foldl_append

theorem crc16From_injective (s : Bytes) : Function.Injective fun c => crc16From c s := by
  induction s with
  | nil => exact fun _ _ h => h
  | cons b s ih => exact fun _ _ h => crcAcc_injective b (ih h)

/-- A byte equal to the accumulator's low one shifts the high one down and adds nothing. -/
theorem crcAcc_low (c : BitVec 16) : crcAcc c (c.extractLsb' 0 8) = c >>> 8 := by
  have hlow : (c ^^^ (c.extractLsb' 0 8).setWidth 16).setWidth 8 = 0 := by
    rw [← BitVec.setWidth_eq_extractLsb' (by decide)]; simp
  rw [crcAcc_eq_table, hlow, crcAcc_zero_zero]; simp

/-- The residue law: the accumulator's own bytes, low byte first, bring it to zero. -/
theorem crc16From_leBytes_self (c : BitVec 16) : crc16From c (leBytes 2 c) = 0 := by
  have hhigh : c.extractLsb' 8 8 = (c >>> 8).extractLsb' 0 8 := BitVec.eq_of_getLsbD_eq fun i _ => by simp
  rw [leBytes_two, crc16From_cons, crc16From_cons, crc16From_nil, crcAcc_low, hhigh, crcAcc_low]
  apply BitVec.eq_of_getLsbD_eq
  intro i hi
  simp

/-- Settles O27: each law is one of the lemmas above; a bijection on 16 bits is an injection there. -/
theorem crcLaws : Obligations.CrcLaws := by
  refine ⟨crc16From_append, fun b => Finite.injective_iff_bijective.1 (crcAcc_injective b), fun c d b e => ?_,
    crcAcc_zero_zero, fun s => ?_, fun c u v x y hxy h => ?_⟩
  · rw [crcAcc_xor, crcAcc_zero_zero]; simp
  · rw [crc16, crc16From_append]; exact crc16From_leBytes_self _
  · rw [crc16From_append, crc16From_append] at h
    exact hxy (crcAcc_byte_injective _ (crc16From_injective v h))

/-! ### The commands (R122 to R124) -/

/-- Settles O23, by the command's effect on the half of its channel. -/
theorem crcInitSetsTheAccumulator : Obligations.CrcInitSetsTheAccumulator := fun _ =>
  ⟨fun hc => exec_tx .crcInit hc, fun hc => exec_rx .crcInit hc⟩

/-- Settles O24, by the command's effect on the half of its channel. -/
theorem crcAccAccumulatesItsByte : Obligations.CrcAccAccumulatesItsByte := fun _ b =>
  ⟨fun hc => exec_tx (.crcAcc b) hc, fun hc => exec_rx (.crcAcc b) hc⟩

theorem Space.source_of_le {a : BitVec 8} {i n : Nat} {sp : Space} (ho : Space.ofNumber a = some sp)
    (hr : sp.readable = true) (hn : i + n ≤ sp.size) : Space.source a i n = some sp := by
  simp [Space.source, ho, hr, hn]

/-- The two readable spaces and their sizes (20_memory.md R61). -/
theorem Space.source_some_cases {a : BitVec 8} {i n : Nat} {sp : Space} (h : Space.source a i n = some sp) :
    (a = 0 ∧ i + n ≤ 255) ∨ (a = 1 ∧ i + n ≤ 280) := by
  obtain ⟨ho, hr, hn⟩ := Space.source_some h
  rcases Space.ofNumber_some ho with ⟨rfl, ha⟩ | ⟨rfl, ha⟩ | ⟨rfl, -⟩
  · exact .inl ⟨ha, hn⟩
  · exact .inr ⟨ha, hn⟩
  · cases hr

/-- A space that does not exist, a key space, and a range that passes the end. -/
theorem Space.source_eq_none {a : BitVec 8} {i n : Nat}
    (h : 2 ≤ a.toNat ∨ (a = 0 ∧ 255 < i + n) ∨ (a = 1 ∧ 280 < i + n)) : Space.source a i n = none := by
  rw [Option.eq_none_iff_forall_ne_some]
  intro sp hsp
  rcases Space.source_some_cases hsp with ⟨rfl, hn⟩ | ⟨rfl, hn⟩ <;> simp at h <;> omega

theorem TxHalf.crcBuf_of_source {a : BitVec 8} {off n : BitVec 16} {sp : Space}
    (h : Space.source a off.toNat n.toNat = some sp) (e : Nat) (t : TxHalf) :
    t.crcBuf a off n e = t.replyCrc (crc16From t.crcacc (t.mem.memRead e .tx sp off.toNat n.toNat)) := by
  rw [TxHalf.crcBuf, h]

theorem TxHalf.crcBuf_of_no_source {a : BitVec 8} {off n : BitVec 16} (h : Space.source a off.toNat n.toNat = none)
    (e : Nat) (t : TxHalf) : t.crcBuf a off n e = t.raise .badarg 0 := by
  rw [TxHalf.crcBuf, h]

theorem RxHalf.crcBuf_of_source {a : BitVec 8} {off n : BitVec 16} {sp : Space}
    (h : Space.source a off.toNat n.toNat = some sp) (e : Nat) (r : RxHalf) :
    r.crcBuf a off n e = r.replyCrc (crc16From r.crcacc (r.mem.memRead e .rx sp off.toNat n.toNat)) := by
  rw [RxHalf.crcBuf, h]

theorem RxHalf.crcBuf_of_no_source {a : BitVec 8} {off n : BitVec 16} (h : Space.source a off.toNat n.toNat = none)
    (e : Nat) (r : RxHalf) : r.crcBuf a off n e = r.raise .badarg 0 := by
  rw [RxHalf.crcBuf, h]

/-- The command on the TX channel, as its effect on the half. -/
theorem toTx_of_txEffect {i : Instr} {s : State} {t : TxHalf} (hc : s.chan = .tx) (h : txEffect i s.epoch s.tx = t) :
    ToTx i s t := h ▸ exec_tx i hc

/-- The command on the RX channel, as its effect on the half. -/
theorem toRx_of_rxEffect {i : Instr} {s : State} {r : RxHalf} (hc : s.chan = .rx) (h : rxEffect i s.epoch s.rx = r) :
    ToRx i s r := h ▸ exec_rx i hc

/-- Settles O25: the command answers by whether its range has a source. -/
theorem crcBufAccumulatesTheRange : Obligations.CrcBufAccumulatesTheRange := by
  refine fun s a off n => ⟨fun sp size hsp hn => ?_, fun hbad => ?_⟩
  · have hsrc : Space.source a off.toNat n.toNat = some sp := by
      rcases hsp with ⟨rfl, rfl, rfl⟩ | ⟨rfl, rfl, rfl⟩ <;> exact Space.source_of_le rfl rfl hn
    exact ⟨fun hc => toTx_of_txEffect hc (TxHalf.crcBuf_of_source hsrc s.epoch s.tx),
      fun hc => toRx_of_rxEffect hc (RxHalf.crcBuf_of_source hsrc s.epoch s.rx)⟩
  · have hsrc := Space.source_eq_none hbad
    exact ⟨fun hc => toTx_of_txEffect hc (TxHalf.crcBuf_of_no_source hsrc s.epoch s.tx),
      fun hc => toRx_of_rxEffect hc (RxHalf.crcBuf_of_no_source hsrc s.epoch s.rx)⟩

/-! ### `RX.CHK` of a decoded frame (R125) -/

/-- A number of the bytes of a string, as bytes again. -/
theorem leBytes_fromLe (n : Nat) (s : Bytes) (h : s.length = n) : leBytes n (fromLe (8 * n) s) = s := by
  apply List.ext_getElem (by simp [h])
  intro k hk hk'
  rw [leBytes_length] at hk
  simp [leBytes, fromLe_extractLsb' n s k hk, byteAt, hk']

theorem slice_append_slice (s : Bytes) {i j k : Nat} (hij : i ≤ j) (hjk : j ≤ k) :
    slice s i j ++ slice s j k = slice s i k := by
  have hk : k - i = (j - i) + (k - j) := by omega
  have hj : s.drop j = (s.drop i).drop (j - i) := by rw [List.drop_drop, Nat.add_sub_cancel' hij]
  rw [slice, slice, slice, hj, hk, List.take_add]

/-- A slice inside the string, byte by byte. -/
theorem slice_eq_map_byteAt (s : Bytes) (i n : Nat) (h : i + n ≤ s.length) :
    slice s i (i + n) = (List.range n).map fun k => byteAt s (i + k) := by
  apply List.ext_getElem (by rw [slice_length _ _ _ h]; simp)
  intro k hk _
  have hn : k < n := by rw [slice_length _ _ _ h] at hk; omega
  have hs : i + k < s.length := by omega
  simp [slice, byteAt, hs]

/-- The length of a header with its marker (30_encoding.md R91, R92). -/
def Ver.headerLen : Ver → Nat
  | .v1 => 6
  | .v2 => 10

/-- The header of a decoded frame. -/
def Frame.header (f : Frame) : Bytes :=
  match f.ver with
  | .v1 => headerV1 f.len f.seq f.sys f.comp f.msgid
  | .v2 => headerV2 f.len f.incompat f.compat f.seq f.sys f.comp f.msgid

/-- The fields of a decoded v1 frame that the checksum covers. -/
theorem decodeV1_fields {w : Bytes} {f : Frame} (h : decodeV1 w = some f) :
    8 + (byteAt w 1).toNat ≤ w.length ∧ f.ver = .v1 ∧ f.len = byteAt w 1 ∧ f.seq = byteAt w 2 ∧ f.sys = byteAt w 3 ∧
      f.comp = byteAt w 4 ∧ f.msgid = (byteAt w 5).setWidth 24 ∧ f.payload = slice w 6 (6 + (byteAt w 1).toNat) := by
  unfold decodeV1 at h
  split at h
  · cases h
  · dsimp only at h
    split at h
    · cases h
    · rename_i _ hn
      cases h
      exact ⟨Nat.le_of_not_lt hn, rfl, rfl, rfl, rfl, rfl, rfl, rfl⟩

/-- The fields of a decoded v2 frame that the checksum covers. -/
theorem decodeV2_fields {w : Bytes} {f : Frame} (h : decodeV2 w = some f) :
    12 + (byteAt w 1).toNat ≤ w.length ∧ f.ver = .v2 ∧ f.len = byteAt w 1 ∧ f.incompat = byteAt w 2 ∧
      f.compat = byteAt w 3 ∧ f.seq = byteAt w 4 ∧ f.sys = byteAt w 5 ∧ f.comp = byteAt w 6 ∧
      f.msgid = fromLe 24 (slice w 7 10) ∧ f.payload = slice w 10 (10 + (byteAt w 1).toNat) := by
  unfold decodeV2 at h
  split at h
  · cases h
  · dsimp only at h
    split at h
    · cases h
    · rename_i _ hn
      have hlen : 12 + (byteAt w 1).toNat ≤ w.length := (Nat.le_add_right _ _).trans (Nat.le_of_not_lt hn)
      split at h <;> (cases h; exact ⟨hlen, rfl, rfl, rfl, rfl, rfl, rfl, rfl, rfl, rfl⟩)

theorem decodeV1_header {w : Bytes} {f : Frame} (h : decodeV1 w = some f) : f.header.drop 1 = slice w 1 6 := by
  obtain ⟨hn, hv, hlen, hseq, hsys, hcomp, hid, -⟩ := decodeV1_fields h
  rw [Frame.header, hv, slice_eq_map_byteAt w 1 5 (by omega)]
  simp [headerV1, hlen, hseq, hsys, hcomp, hid, List.range_succ]

theorem decodeV2_header {w : Bytes} {f : Frame} (h : decodeV2 w = some f) : f.header.drop 1 = slice w 1 10 := by
  obtain ⟨hn, hv, hlen, hinc, hcompat, hseq, hsys, hcomp, hid, -⟩ := decodeV2_fields h
  have hidBytes : leBytes 3 f.msgid = slice w 7 10 := by
    rw [hid]; exact leBytes_fromLe 3 _ (slice_length _ _ _ (by omega))
  rw [Frame.header, hv, ← slice_append_slice w (show 1 ≤ 7 by decide) (show 7 ≤ 10 by decide), ← hidBytes,
    slice_eq_map_byteAt w 1 6 (by omega)]
  simp [headerV2, hlen, hinc, hcompat, hseq, hsys, hcomp, List.range_succ]

/-- The header without its marker and the payload of a decoded frame are the wire bytes between marker and checksum. -/
theorem decodeFrame_covered {v : Ver} {w : Bytes} {f : Frame} (h : decodeFrame v w = some f) :
    f.header.drop 1 ++ f.payload = slice w 1 (v.headerLen + (byteAt w 1).toNat) := by
  cases v with
  | v1 =>
    obtain ⟨-, -, -, -, -, -, -, hpay⟩ := decodeV1_fields h
    rw [decodeV1_header h, hpay, slice_append_slice w (by decide) (Nat.le_add_right _ _)]; rfl
  | v2 =>
    obtain ⟨-, -, -, -, -, -, -, -, -, hpay⟩ := decodeV2_fields h
    rw [decodeV2_header h, hpay, slice_append_slice w (by decide) (Nat.le_add_right _ _)]; rfl

theorem RxHalf.header_storeFrame (r : RxHalf) (f : Frame) : (r.storeFrame f).header = f.header := by
  rw [RxHalf.header, Frame.header]
  cases hv : f.ver <;> simp [hv, Ver.number]

/-- The payload just stored reads back, without the zeros after it. -/
theorem RxHalf.payload_storeFrame (e : Nat) (r : RxHalf) {f : Frame} (h : f.Ok) : (r.storeFrame f).payload e = f.payload := by
  have hlen : f.len.toNat ≤ (zeroExtend f.payload).length := by simp [zeroExtend, h.payload_length]
  calc (r.storeFrame f).payload e = (zeroExtend f.payload).take f.len.toNat :=
        Spaces.memRead_memWrite_take e .rx r.mem .pay 0 _ _ hlen
    _ = f.payload := by rw [← h.payload_length, zeroExtend, List.take_left]

/-- `RX.CHK` writes the recomputed checksum to the accumulator. -/
theorem RxHalf.rxChk_crcacc {r : RxHalf} (h : r.frame = true) (seed : Byte) (e : Nat) :
    (r.rxChk seed e).crcacc = r.recomputedCrc seed e := by
  simp [RxHalf.rxChk, h]

/-- A buffer decoded into a current frame, then checked: the checksum is over the buffer's own bytes. -/
theorem RxHalf.rxChk_decodeWindow_crcacc {v : Ver} {e : Nat} {r : RxHalf} (h : (r.decodeWindow v e).frame = true)
    (seed : Byte) : ((r.decodeWindow v e).rxChk seed e).crcacc =
      crc16 (slice (r.window e) 1 (v.headerLen + (byteAt (r.window e) 1).toNat) ++ [seed]) := by
  cases hd : decodeFrame v (r.window e) with
  | none => rw [RxHalf.decodeWindow_none hd] at h; cases h
  | some f =>
    obtain ⟨hok, -⟩ := decodeFrame_ok hd
    calc ((r.decodeWindow v e).rxChk seed e).crcacc = (r.decodeWindow v e).recomputedCrc seed e :=
          RxHalf.rxChk_crcacc h seed e
      _ = (r.clearFrame.storeFrame f).recomputedCrc seed e := by rw [RxHalf.decodeWindow_some hd]; rfl
      _ = crc16 (f.header.drop 1 ++ f.payload ++ [seed]) := by
        rw [RxHalf.recomputedCrc, RxHalf.header_storeFrame, RxHalf.payload_storeFrame e _ hok, frameCrc]
      _ = crc16 (slice (r.window e) 1 (v.headerLen + (byteAt (r.window e) 1).toNat) ++ [seed]) := by
        rw [decodeFrame_covered hd]

/-- Settles O41: both decoders leave the wire bytes in the descriptor and the payload. -/
theorem rxChkCoversTheWireBytes : Obligations.RxChkCoversTheWireBytes := by
  refine fun s t seed hc => ⟨fun he hf => ?_, fun he hf => ?_⟩ <;> rw [exec_rx _ hc] at he <;> cases he
  · exact ⟨_, exec_rx (.rxChk seed) hc, RxHalf.rxChk_decodeWindow_crcacc hf seed⟩
  · exact ⟨_, exec_rx (.rxChk seed) hc, RxHalf.rxChk_decodeWindow_crcacc hf seed⟩

end Sys2Proof.Machine

/-! PROOFS. The statements of 41_encode.md: the frames the encoders build and what they leave as it was, the truncation, the
sender, and the round trip through the decoders. -/

namespace Sys2Proof.Machine

/-! ### Trailing-zero truncation (41_encode.md R144) -/

/-- The loop steps over zeros only. -/
theorem byteAt_of_truncLen_le (pay : Bytes) {m k : Nat} (hk : truncLen pay m ≤ k) (hm : k < m) : byteAt pay k = 0 := by
  induction m with
  | zero => omega
  | succ m ih =>
    rw [truncLen] at hk
    split at hk
    · rename_i hz
      rcases Nat.eq_or_lt_of_le (Nat.le_of_lt_succ hm) with rfl | hlt
      · exact hz.2
      · exact ih hk hlt
    · omega

/-- The loop never goes below one byte. -/
theorem one_le_truncLen (pay : Bytes) {m : Nat} (hm : 1 ≤ m) : 1 ≤ truncLen pay m := by
  induction m with
  | zero => omega
  | succ m ih =>
    rw [truncLen]
    split
    · rename_i hz
      exact ih (Nat.le_of_lt_succ hz.1)
    · omega

/-- Above one byte the loop stops only at a byte that is not zero. -/
theorem byteAt_truncLen_sub_one_ne (pay : Bytes) {m : Nat} (hm : 2 ≤ truncLen pay m) :
    byteAt pay (truncLen pay m - 1) ≠ 0 := by
  induction m with
  | zero => simp [truncLen] at hm
  | succ m ih =>
    rw [truncLen] at hm ⊢
    split at hm
    · rename_i hz
      rw [if_pos hz]
      exact ih hm
    · rename_i hz
      rw [if_neg hz]
      exact fun h => hz ⟨hm, h⟩

/-- The zeros that truncation removes, put back. -/
theorem trunc_append_zeros (pay : Bytes) : trunc pay ++ List.replicate (pay.length - (trunc pay).length) 0 = pay := by
  have hzeros : pay.drop (truncLen pay pay.length) = List.replicate (pay.length - (trunc pay).length) 0 := by
    refine List.eq_replicate_iff.2 ⟨by rw [List.length_drop, trunc_length], fun b hb => ?_⟩
    obtain ⟨k, hk, rfl⟩ := List.mem_drop_iff_getElem.1 hb
    rw [Nat.add_comm] at hk
    have h := byteAt_of_truncLen_le pay (Nat.le_add_right _ k) hk
    rwa [byteAt, List.getD_eq_getElem _ _ hk] at h
  rw [← hzeros, trunc, List.take_append_drop]

theorem trunc_getLast?_ne_zero {pay : Bytes} (h : 2 ≤ (trunc pay).length) : (trunc pay).getLast? ≠ some 0 := by
  have hle := truncLen_le pay pay.length
  rw [trunc_length] at h
  have hlast := byteAt_truncLen_sub_one_ne pay h
  have hlt : truncLen pay pay.length - 1 < pay.length := by omega
  rw [byteAt, List.getD_eq_getElem _ _ hlt] at hlast
  have hpos : truncLen pay pay.length ≠ 0 := by omega
  simpa [trunc, List.getLast?_take, hpos, hlt] using hlast

/-- Settles O31: the loop of `Trunc` steps over zeros only, and stops at one byte or at a byte that is not zero. -/
theorem truncationRemovesOnlyTrailingZeros : Obligations.TruncationRemovesOnlyTrailingZeros := by
  refine fun pay => ⟨trunc_append_zeros pay, ?empty, fun h => ?nonempty, trunc_getLast?_ne_zero⟩
  case empty => rintro rfl; rfl
  case nonempty => rw [trunc_length]; exact one_le_truncLen pay (List.length_pos_iff.2 h)

/-! ### What an encoder does (R140 to R146) -/

theorem TxHalf.encV1_of_wide_id (e : Nat) {t : TxHalf} (h : 255 < t.msgid.toNat) : t.encV1 e = t.says .range 0 :=
  if_pos h

/-- The frame `ENC.V1` builds from the operands. -/
def TxHalf.builtV1 (e : Nat) (t : TxHalf) : Built := buildV1 t.seq t.sys t.comp t.msgid t.seed (t.payload e)

/-- The frame `ENC.V2U` builds from the operands. -/
def TxHalf.builtV2U (e : Nat) (t : TxHalf) : Built := buildV2U t.seq t.sys t.comp t.msgid t.seed (t.wirePayload e)

/-- The frame `ENC.V2S` builds from the operands and the key. -/
def TxHalf.builtV2S (e : Nat) (t : TxHalf) : Built :=
  buildV2S t.seq t.sys t.comp t.msgid t.seed t.linkid t.ts (t.mem.memRead e .tx .key 0 Config.keyBytes) (t.wirePayload e)

theorem TxHalf.encV1_of_byte_id (e : Nat) {t : TxHalf} (h : t.msgid.toNat ≤ 255) :
    t.encV1 e = t.finishEncode (t.builtV1 e) := if_neg (Nat.not_lt.2 h)

theorem TxHalf.encV2U_eq (e : Nat) (t : TxHalf) : t.encV2U e = t.finishEncode (t.builtV2U e) := rfl

theorem TxHalf.encV2S_eq (e : Nat) (t : TxHalf) : t.encV2S e = t.finishEncode (t.builtV2S e) := rfl

theorem TxHalf.builtV1_length (e : Nat) (t : TxHalf) : (t.builtV1 e).bytes.length = 8 + t.plen.toNat := by
  rw [TxHalf.builtV1, buildV1_length, TxHalf.payload_length]

theorem TxHalf.builtV2U_length (e : Nat) (t : TxHalf) :
    (t.builtV2U e).bytes.length = 12 + (t.wirePayload e).length := buildV2U_length ..

theorem TxHalf.builtV2S_length (e : Nat) (t : TxHalf) :
    (t.builtV2S e).bytes.length = 25 + (t.wirePayload e).length := buildV2S_length ..

theorem TxHalf.wirePayload_length_le_255 (e : Nat) (t : TxHalf) : (t.wirePayload e).length ≤ 255 :=
  (t.wirePayload_length_le e).trans (byte_toNat_le t.plen)

/-! No encoder builds a frame longer than the buffer (R149). -/

theorem TxHalf.builtV1_fits (e : Nat) (t : TxHalf) : (t.builtV1 e).bytes.length ≤ 280 := by
  have := byte_toNat_le t.plen
  rw [TxHalf.builtV1_length]; omega

theorem TxHalf.builtV2U_fits (e : Nat) (t : TxHalf) : (t.builtV2U e).bytes.length ≤ 280 := by
  have := t.wirePayload_length_le_255 e
  rw [TxHalf.builtV2U_length]; omega

theorem TxHalf.builtV2S_fits (e : Nat) (t : TxHalf) : (t.builtV2S e).bytes.length ≤ 280 := by
  have := t.wirePayload_length_le_255 e
  rw [TxHalf.builtV2S_length]; omega

/-- The length of a frame that fits the buffer fits `T.TXLEN`. -/
theorem TxHalf.finishEncode_txlen_toNat (t : TxHalf) {b : Built} (h : b.bytes.length ≤ 280) :
    (t.finishEncode b).txlen.toNat = b.bytes.length := by
  rw [finishEncode_txlen, BitVec.toNat_ofNat, Nat.mod_eq_of_lt (by omega)]

/-- The end of an encoder: the frame in the buffer, its length, its checksum, `TXVALID` and the answer. -/
theorem exists_toTx_of_finishEncode {i : Instr} {s : State} {b : Built} (hc : s.chan = .tx)
    (he : txEffect i s.epoch s.tx = s.tx.finishEncode b) {n : Nat} (hn : b.bytes.length = n) (hfits : b.bytes.length ≤ 280) :
    ∃ t, ToTx i s t ∧ t.mem.memRead s.epoch .tx .buf 0 n = b.bytes ∧ t.txlen.toNat = n ∧ t.crcacc = b.cksum ∧
      t.txvalid = true ∧ t.responses = s.tx.responses ++ [⟨.ok, BitVec.ofNat 48 n⟩] := by
  subst hn
  exact ⟨_, toTx_of_txEffect hc he, Spaces.memRead_memWrite _ _ s.tx.mem .buf 0 b.bytes,
    s.tx.finishEncode_txlen_toNat hfits, rfl, rfl, rfl⟩

/-! ### The frames built, byte by byte (R142 to R146) -/

/-- The length byte of the whole payload is `T.PLEN`. -/
theorem TxHalf.lenByte_payload (e : Nat) (t : TxHalf) : lenByte (t.payload e) = t.plen := by
  rw [lenByte, TxHalf.payload_length, BitVec.ofNat_toNat, BitVec.setWidth_eq]

/-- The header of `ENC.V1`. -/
theorem TxHalf.headerV1_eq (e : Nat) (t : TxHalf) :
    headerV1 (lenByte (t.payload e)) t.seq t.sys t.comp t.msgid =
      [0xFE, t.plen, t.seq, t.sys, t.comp, t.msgid.extractLsb' 0 8] := by
  rw [TxHalf.lenByte_payload, headerV1, BitVec.setWidth_eq_extractLsb' (by decide)]; rfl

/-- Settles O28: the bytes are the header of `ENC.V1`, the payload and the checksum. -/
theorem encV1BuildsTheFrameOrIsRefused : Obligations.EncV1BuildsTheFrameOrIsRefused := by
  refine fun s hc => ⟨fun hid => toTx_of_txEffect hc (TxHalf.encV1_of_wide_id s.epoch hid), fun hid => ?_⟩
  have h := exists_toTx_of_finishEncode (i := .encV1) hc (TxHalf.encV1_of_byte_id s.epoch hid)
    (s.tx.builtV1_length s.epoch) (s.tx.builtV1_fits s.epoch)
  rw [TxHalf.builtV1, buildV1, TxHalf.headerV1_eq] at h
  exact h

/-- The v2 header, byte by byte (30_encoding.md R92). -/
theorem headerV2_eq (len incompat compat seq sys comp : Byte) (msgid : BitVec 24) :
    headerV2 len incompat compat seq sys comp msgid =
      [0xFD, len, incompat, compat, seq, sys, comp, msgid.extractLsb' 0 8, msgid.extractLsb' 8 8, msgid.extractLsb' 16 8] :=
  rfl

/-- Settles O29: the bytes are the unsigned v2 header, the wire payload and the checksum. -/
theorem encV2UBuildsTheFrame : Obligations.EncV2UBuildsTheFrame := by
  intro s hc
  have h := exists_toTx_of_finishEncode (i := .encV2U) hc (s.tx.encV2U_eq s.epoch) (s.tx.builtV2U_length s.epoch)
    (s.tx.builtV2U_fits s.epoch)
  rw [TxHalf.builtV2U, buildV2U, headerV2_eq] at h
  dsimp only at h
  exact h

/-- Settles O30: the bytes are the signed v2 header, the wire payload, the checksum, the signature's fields and the hash. -/
theorem encV2SBuildsTheSignedFrame : Obligations.EncV2SBuildsTheSignedFrame := by
  intro s hc
  have h := exists_toTx_of_finishEncode (i := .encV2S) hc (s.tx.encV2S_eq s.epoch) (s.tx.builtV2S_length s.epoch)
    (s.tx.builtV2S_fits s.epoch)
  rw [TxHalf.builtV2S, buildV2S, signedBytes, headerV2_eq] at h
  dsimp only at h
  exact h

/-! ### What an encoder leaves as it was (R140) -/

/-- All that an encoder can do: refuse a wide id, or put a frame that fits into the buffer. -/
theorem txEffect_encoder_cases {i : Instr} (h : i = .encV1 ∨ i = .encV2U ∨ i = .encV2S) (e : Nat) (t : TxHalf) :
    txEffect i e t = t.says .range 0 ∨
      ((i = .encV1 → t.msgid.toNat ≤ 255) ∧ ∃ b : Built, b.bytes.length ≤ 280 ∧ txEffect i e t = t.finishEncode b) := by
  rcases h with rfl | rfl | rfl
  · rcases Nat.lt_or_ge 255 t.msgid.toNat with hid | hid
    · exact .inl (TxHalf.encV1_of_wide_id e hid)
    · exact .inr ⟨fun _ => hid, _, t.builtV1_fits e, TxHalf.encV1_of_byte_id e hid⟩
  · exact .inr ⟨fun h => (by cases h), _, t.builtV2U_fits e, t.encV2U_eq e⟩
  · exact .inr ⟨fun h => (by cases h), _, t.builtV2S_fits e, t.encV2S_eq e⟩

/-- A frame put into the buffer changes no byte beyond its length, and none of another space. -/
theorem TxHalf.finishEncode_sameBut (t : TxHalf) {b : Built} (h : b.bytes.length ≤ 280) :
    t.mem.sameBut .buf 0 (t.finishEncode b).txlen.toNat (t.finishEncode b).mem := by
  rw [t.finishEncode_txlen_toNat h, ← Nat.zero_add b.bytes.length]
  exact t.mem.sameBut_memWrite .buf 0 b.bytes

/-- Settles O32: a refusal answers and no more; a frame built changes the buffer, its length, the accumulator and `TXVALID`. -/
theorem encodersLeaveTheRest : Obligations.EncodersLeaveTheRest := by
  intro i s t hc hi he
  rw [exec_tx i hc] at he
  cases he
  rcases txEffect_encoder_cases hi s.epoch s.tx with h | ⟨hid, b, hfits, h⟩ <;> rw [h]
  · exact ⟨⟨rfl, rfl, rfl, rfl, rfl, rfl, rfl, rfl, rfl⟩, ⟨rfl, rfl, rfl⟩, rfl, fun _ _ _ => rfl, fun _ _ => rfl,
      rfl, rfl, rfl, rfl⟩
  · exact ⟨⟨rfl, rfl, rfl, rfl, rfl, rfl, rfl, rfl, rfl⟩, ⟨rfl, rfl, rfl⟩, rfl, s.tx.finishEncode_sameBut hfits,
      fun h1 hwide => absurd (hid h1) (Nat.not_le.2 hwide), rfl, rfl, rfl, rfl⟩

/-! ### The sender (R148) -/

theorem TxHalf.txSend_of_not_txvalid (e : Nat) {t : TxHalf} (h : t.txvalid = false) : t.txSend e = t.says .noframe 0 := by
  rw [TxHalf.txSend, h]; rfl

/-- With a valid frame and an answer of the sink, the frame is offered at once. -/
theorem TxHalf.txSend_of_answer (e : Nat) {t : TxHalf} (hv : t.txvalid = true) {a : SinkAnswer} {rest : List SinkAnswer}
    (hk : t.sink = a :: rest) : t.txSend e = { t with sending := false, sink := rest }.offer e a := by
  rw [TxHalf.txSend_of_txvalid e hv]
  exact TxHalf.resume_of_answer e (t := { t with sending := true }) rfl hk

/-- Settles O33, by the sink's answer, if there is one. -/
theorem txSendAppendsTheFrame : Obligations.TxSendAppendsTheFrame := by
  refine fun s hc => ⟨fun hv => toTx_of_txEffect hc (TxHalf.txSend_of_not_txvalid s.epoch hv), fun hv =>
    ⟨fun rest hk => toTx_of_txEffect hc (TxHalf.txSend_of_answer s.epoch hv hk),
      fun k rest hle hk => toTx_of_txEffect hc ?fails, fun hk => toTx_of_txEffect hc ?held⟩⟩
  case fails =>
    refine (TxHalf.txSend_of_answer s.epoch hv hk).trans ?_
    rw [TxHalf.offer, Nat.min_eq_left hle]; rfl
  case held =>
    refine (TxHalf.txSend_of_txvalid s.epoch hv).trans ?_
    exact TxHalf.resume_of_no_answer s.epoch (t := { s.tx with sending := true }) hk

/-! ### What the decoders make of the frames built (R147) -/

/-- The middle of three parts, by their lengths. -/
theorem slice_of_append {s u v : Bytes} {i j : Nat} (hi : s.length = i) (hj : i + u.length = j) :
    slice (s ++ u ++ v) i j = u := by
  subst hi hj
  exact slice_append s u v

/-- The checksum's two bytes read back. -/
theorem fromLe_leBytes_cksum (c : BitVec 16) : fromLe 16 (leBytes 2 c) = c := fromLe_leBytes 2 c

/-- An id below 256 comes back from its low byte. -/
theorem setWidth_low_byte {id : BitVec 24} (h : id.toNat ≤ 255) : (id.setWidth 8).setWidth 24 = id := by
  apply BitVec.eq_of_toNat_eq
  simp only [BitVec.toNat_setWidth]
  omega

/-- The v1 frame of these fields, as decoded. -/
def frameV1 (seq sys comp : Byte) (msgid : BitVec 24) (pay : Bytes) (c : BitVec 16) : Frame where
  ver := .v1
  len := lenByte pay
  incompat := 0
  compat := 0
  seq := seq
  sys := sys
  comp := comp
  msgid := msgid
  payload := pay
  cksum := c
  signed := false
  linkid := 0
  ts := 0
  hash := []

/-- The v2 frame of these fields, as decoded, the fields of a signature block apart. -/
def frameV2 (incompat seq sys comp : Byte) (msgid : BitVec 24) (pay : Bytes) (c : BitVec 16) : Frame where
  ver := .v2
  len := lenByte pay
  incompat := incompat
  compat := 0
  seq := seq
  sys := sys
  comp := comp
  msgid := msgid
  payload := pay
  cksum := c
  signed := signedBit incompat
  linkid := 0
  ts := 0
  hash := []

/-- The frame with the fields of a signature block. -/
def Frame.withBlock (f : Frame) (linkid : Byte) (ts : BitVec 48) (hash : Bytes) : Frame :=
  { f with linkid := linkid, ts := ts, hash := hash }

section
variable (seq sys comp : Byte) (msgid : BitVec 24) (pay : Bytes) (c : BitVec 16)

@[simp] theorem frameV1_header :
    (frameV1 seq sys comp msgid pay c).header = headerV1 (lenByte pay) seq sys comp msgid := rfl
@[simp] theorem frameV1_payload : (frameV1 seq sys comp msgid pay c).payload = pay := rfl
@[simp] theorem frameV1_cksum : (frameV1 seq sys comp msgid pay c).cksum = c := rfl

@[simp] theorem frameV2_header (incompat : Byte) : (frameV2 incompat seq sys comp msgid pay c).header =
    headerV2 (lenByte pay) incompat 0 seq sys comp msgid := rfl
@[simp] theorem frameV2_payload (incompat : Byte) : (frameV2 incompat seq sys comp msgid pay c).payload = pay := rfl
@[simp] theorem frameV2_cksum (incompat : Byte) : (frameV2 incompat seq sys comp msgid pay c).cksum = c := rfl

@[simp] theorem Frame.withBlock_header (f : Frame) (linkid : Byte) (ts : BitVec 48) (hash : Bytes) :
    (f.withBlock linkid ts hash).header = f.header := rfl
@[simp] theorem Frame.withBlock_payload (f : Frame) (linkid : Byte) (ts : BitVec 48) (hash : Bytes) :
    (f.withBlock linkid ts hash).payload = f.payload := rfl
@[simp] theorem Frame.withBlock_cksum (f : Frame) (linkid : Byte) (ts : BitVec 48) (hash : Bytes) :
    (f.withBlock linkid ts hash).cksum = f.cksum := rfl

/-- An unsigned frame has the signature block's fields at 0 (42_decode_validate.md R158). -/
theorem frameV2_eq_withBlock (incompat : Byte) : frameV2 incompat seq sys comp msgid pay c =
    (frameV2 incompat seq sys comp msgid pay c).withBlock 0 0 [] := rfl

variable (hpay : pay.length ≤ 255)
include hpay

/-- `DecodeV1` of header, payload and checksum gives the fields back. -/
theorem decodeV1_layout (hid : msgid.toNat ≤ 255) :
    decodeV1 (headerV1 (lenByte pay) seq sys comp msgid ++ pay ++ leBytes 2 c) = some (frameV1 seq sys comp msgid pay c) := by
  generalize hw : headerV1 (lenByte pay) seq sys comp msgid ++ pay ++ leBytes 2 c = w
  have hlen : w.length = 8 + pay.length := by rw [← hw]; simp; omega
  obtain ⟨hbyte1, hbyte2, hbyte3, hbyte4, hbyte5⟩ : byteAt w 1 = lenByte pay ∧ byteAt w 2 = seq ∧ byteAt w 3 = sys ∧
      byteAt w 4 = comp ∧ byteAt w 5 = msgid.setWidth 8 := by
    rw [← hw]; exact ⟨rfl, rfl, rfl, rfl, rfl⟩
  have hpayload : slice w 6 (6 + pay.length) = pay := by
    rw [← hw]; exact slice_of_append rfl rfl
  have hcksum : slice w (6 + pay.length) (8 + pay.length) = leBytes 2 c := by
    rw [← hw, ← List.append_nil (_ ++ leBytes 2 c)]
    exact slice_of_append (by simp) (by simp; omega)
  unfold decodeV1
  dsimp only
  rw [if_neg (by omega), hbyte1, hbyte2, hbyte3, hbyte4, hbyte5, frameLenV1, lenByte_toNat pay hpay, if_neg (by omega),
    hpayload, hcksum, setWidth_low_byte hid, fromLe_leBytes_cksum]
  rfl

/-- `DecodeV2` of header, payload, checksum and the signature block the header announces. -/
theorem decodeV2_layout (incompat : Byte) {sig : Bytes} (hsig : sig.length = sigLen incompat) :
    decodeV2 (headerV2 (lenByte pay) incompat 0 seq sys comp msgid ++ pay ++ leBytes 2 c ++ sig) =
      some (if signedBit incompat then
          withSignature (headerV2 (lenByte pay) incompat 0 seq sys comp msgid ++ pay ++ leBytes 2 c ++ sig) pay.length
            (frameV2 incompat seq sys comp msgid pay c)
        else frameV2 incompat seq sys comp msgid pay c) := by
  generalize hw : headerV2 (lenByte pay) incompat 0 seq sys comp msgid ++ pay ++ leBytes 2 c ++ sig = w
  have hlen : w.length = 12 + pay.length + sigLen incompat := by rw [← hw, ← hsig]; simp; omega
  obtain ⟨hbyte1, hbyte2, hbyte3, hbyte4, hbyte5, hbyte6⟩ : byteAt w 1 = lenByte pay ∧ byteAt w 2 = incompat ∧
      byteAt w 3 = 0 ∧ byteAt w 4 = seq ∧ byteAt w 5 = sys ∧ byteAt w 6 = comp := by
    rw [← hw]; exact ⟨rfl, rfl, rfl, rfl, rfl, rfl⟩
  have hid : fromLe 24 (slice w 7 10) = msgid := by
    rw [← hw]; exact fromLe_leBytes 3 msgid
  have hpayload : slice w 10 (10 + pay.length) = pay := by
    rw [← hw, List.append_assoc (_ ++ pay)]
    exact slice_of_append rfl rfl
  have hcksum : slice w (10 + pay.length) (12 + pay.length) = leBytes 2 c := by
    rw [← hw]; exact slice_of_append (by simp) (by simp; omega)
  unfold decodeV2
  dsimp only
  rw [if_neg (by omega), hbyte1, hbyte2, hbyte3, hbyte4, hbyte5, hbyte6, frameLenV2, lenByte_toNat pay hpay,
    if_neg (by omega), hid, hpayload, hcksum, fromLe_leBytes_cksum]
  rfl

end

/-- The signature block behind a checksum gives its fields back (30_encoding.md R93). -/
theorem withSignature_layout (s : Bytes) (linkid : Byte) (ts : BitVec 48) {hash : Bytes} (hhash : hash.length = 6) {n : Nat}
    (hs : s.length = 12 + n) (f : Frame) :
    withSignature (s ++ (sigTail linkid ts ++ hash)) n f = f.withBlock linkid ts hash := by
  have hlinkid : byteAt (s ++ (sigTail linkid ts ++ hash)) (12 + n) = linkid := by
    rw [← hs, byteAt_append_right _ _ _ le_rfl, Nat.sub_self]; rfl
  have hts : slice (s ++ (sigTail linkid ts ++ hash)) (13 + n) (19 + n) = leBytes 6 ts := by
    rw [sigTail, List.append_assoc, ← List.append_assoc s, ← List.append_assoc (s ++ _)]
    exact slice_of_append (by simp; omega) (by simp; omega)
  have hblock : slice (s ++ (sigTail linkid ts ++ hash)) (19 + n) (25 + n) = hash := by
    rw [← List.append_assoc, ← List.append_nil (_ ++ hash)]
    exact slice_of_append (by simp; omega) (by omega)
  rw [withSignature, hlinkid, hts, hblock]
  exact congrArg (fun x => f.withBlock linkid x hash) (fromLe_leBytes 6 ts)

/-- The bytes built carry the frame: they fit the buffer, the decoder of the format gives the frame back, and the frame
carries the checksum over its own fields with this seed. -/
structure Built.Carries (b : Built) (v : Ver) (f : Frame) (seed : Byte) : Prop where
  fits : b.bytes.length ≤ 280
  decodes : decodeFrame v b.bytes = some f
  cksum : f.cksum = b.cksum
  check : frameCrc f.header f.payload seed = f.cksum

/-- The frame that `ENC.V1` sends. -/
def TxHalf.frameV1 (e : Nat) (t : TxHalf) : Frame :=
  Sys2Proof.Machine.frameV1 t.seq t.sys t.comp t.msgid (t.payload e) (t.builtV1 e).cksum

/-- The frame that `ENC.V2U` sends. -/
def TxHalf.frameV2U (e : Nat) (t : TxHalf) : Frame :=
  frameV2 0 t.seq t.sys t.comp t.msgid (t.wirePayload e) (t.builtV2U e).cksum

/-- The bytes that `ENC.V2S` signs (43_signature.md R172). -/
def TxHalf.signedBytes (e : Nat) (t : TxHalf) : Bytes :=
  Sys2Proof.Machine.signedBytes (lenByte (t.wirePayload e)) 1 0 t.seq t.sys t.comp t.msgid (t.wirePayload e)
    (t.builtV2S e).cksum t.linkid t.ts

/-- The hash that `ENC.V2S` appends (43_signature.md R173). -/
def TxHalf.mac (e : Nat) (t : TxHalf) : Bytes := mac48 (t.mem.memRead e .tx .key 0 Config.keyBytes) (t.signedBytes e)

@[simp] theorem TxHalf.mac_length (e : Nat) (t : TxHalf) : (t.mac e).length = 6 := mac48_length _ _

/-- The frame that `ENC.V2S` sends. -/
def TxHalf.frameV2S (e : Nat) (t : TxHalf) : Frame :=
  (frameV2 1 t.seq t.sys t.comp t.msgid (t.wirePayload e) (t.builtV2S e).cksum).withBlock t.linkid t.ts (t.mac e)

section
variable (e : Nat) (t : TxHalf)

theorem TxHalf.builtV1_bytes : (t.builtV1 e).bytes =
    headerV1 (lenByte (t.payload e)) t.seq t.sys t.comp t.msgid ++ t.payload e ++ leBytes 2 (t.builtV1 e).cksum := by
  simp only [TxHalf.builtV1, buildV1]

theorem TxHalf.builtV1_cksum : (t.builtV1 e).cksum =
    frameCrc (headerV1 (lenByte (t.payload e)) t.seq t.sys t.comp t.msgid) (t.payload e) t.seed := by
  simp only [TxHalf.builtV1, buildV1]

theorem TxHalf.builtV2U_bytes : (t.builtV2U e).bytes =
    headerV2 (lenByte (t.wirePayload e)) 0 0 t.seq t.sys t.comp t.msgid ++ t.wirePayload e ++
      leBytes 2 (t.builtV2U e).cksum := by
  simp only [TxHalf.builtV2U, buildV2U]

theorem TxHalf.builtV2U_cksum : (t.builtV2U e).cksum =
    frameCrc (headerV2 (lenByte (t.wirePayload e)) 0 0 t.seq t.sys t.comp t.msgid) (t.wirePayload e) t.seed := by
  simp only [TxHalf.builtV2U, buildV2U]

theorem TxHalf.builtV2S_bytes : (t.builtV2S e).bytes =
    headerV2 (lenByte (t.wirePayload e)) 1 0 t.seq t.sys t.comp t.msgid ++ t.wirePayload e ++
      leBytes 2 (t.builtV2S e).cksum ++ (sigTail t.linkid t.ts ++ t.mac e) := by
  simp only [TxHalf.mac, TxHalf.signedBytes, Sys2Proof.Machine.signedBytes, TxHalf.builtV2S, buildV2S, List.append_assoc]

theorem TxHalf.builtV2S_cksum : (t.builtV2S e).cksum =
    frameCrc (headerV2 (lenByte (t.wirePayload e)) 1 0 t.seq t.sys t.comp t.msgid) (t.wirePayload e) t.seed := by
  simp only [TxHalf.builtV2S, buildV2S]

end

theorem TxHalf.builtV1_carries (e : Nat) {t : TxHalf} (hid : t.msgid.toNat ≤ 255) :
    (t.builtV1 e).Carries .v1 (t.frameV1 e) t.seed where
  fits := t.builtV1_fits e
  decodes := by
    rw [TxHalf.builtV1_bytes]
    exact decodeV1_layout _ _ _ _ _ _ (by rw [TxHalf.payload_length]; exact byte_toNat_le _) hid
  cksum := by simp [TxHalf.frameV1]
  check := by simp [TxHalf.frameV1, t.builtV1_cksum e]

theorem TxHalf.builtV2U_carries (e : Nat) (t : TxHalf) : (t.builtV2U e).Carries .v2 (t.frameV2U e) t.seed where
  fits := t.builtV2U_fits e
  decodes := by
    rw [TxHalf.builtV2U_bytes, ← List.append_nil (_ ++ leBytes 2 _)]
    exact decodeV2_layout _ _ _ _ _ _ (t.wirePayload_length_le_255 e) 0 rfl
  cksum := by simp [TxHalf.frameV2U]
  check := by simp [TxHalf.frameV2U, t.builtV2U_cksum e]

theorem TxHalf.builtV2S_carries (e : Nat) (t : TxHalf) : (t.builtV2S e).Carries .v2 (t.frameV2S e) t.seed where
  fits := t.builtV2S_fits e
  decodes := by
    rw [TxHalf.builtV2S_bytes]
    refine (decodeV2_layout _ _ _ _ _ _ (t.wirePayload_length_le_255 e) 1 (by simp; rfl)).trans ?_
    rw [if_pos (show signedBit 1 = true from rfl), withSignature_layout _ _ _ (t.mac_length e) (by simp; omega),
      TxHalf.frameV2S]
  cksum := by simp [TxHalf.frameV2S]
  check := by simp [TxHalf.frameV2S, t.builtV2S_cksum e]

/-! ### The round trip (R147) -/

/-- The zeros that truncation removes are among those that decoding puts back. -/
theorem zeroExtend_trunc {pay : Bytes} (h : pay.length ≤ 255) : zeroExtend (trunc pay) = zeroExtend pay := by
  have hle : (trunc pay).length ≤ pay.length := trunc_length pay ▸ truncLen_le pay pay.length
  have hzeros : Config.maxPayload - (trunc pay).length =
      pay.length - (trunc pay).length + (Config.maxPayload - pay.length) := by
    simp only [Config.maxPayload]; omega
  rw [zeroExtend, hzeros, List.replicate_add, ← List.append_assoc, trunc_append_zeros, zeroExtend]

theorem TxHalf.zeroExtend_wirePayload (e : Nat) (t : TxHalf) : zeroExtend (t.wirePayload e) = zeroExtend (t.payload e) := by
  unfold TxHalf.wirePayload
  split
  · exact zeroExtend_trunc (by rw [TxHalf.payload_length]; exact byte_toNat_le _)
  · rfl

/-- `StoreFrame` makes the frame the current one. -/
theorem RxHalf.storeFrame_holdsFrame (e : Nat) (r : RxHalf) {f : Frame} (h : f.Ok) : (r.storeFrame f).holdsFrame e f := by
  refine ⟨rfl, rfl, rfl, rfl, rfl, rfl, rfl, rfl, rfl, rfl, rfl, rfl, rfl, rfl, rfl, rfl, ?_⟩
  have hlen := zeroExtend_length f.payload (h.payload_length ▸ byte_toNat_le f.len)
  have hread := Spaces.memRead_memWrite e .rx r.mem .pay 0 (zeroExtend f.payload)
  rwa [hlen] at hread

theorem Spaces.memRead_take (e : Nat) (c : Channel) (m : Spaces) (sp : Space) (i : Nat) {n k : Nat} (h : k ≤ n) :
    (m.memRead e c sp i n).take k = m.memRead e c sp i k := by
  rw [Spaces.memRead, ← List.map_take, List.take_range, Nat.min_eq_left h, Spaces.memRead]

/-- A payload that a current frame's payload differs from in trailing zeros only is read from `R.RXPAY`. -/
theorem RxHalf.holdsFrame.memRead_pay {e : Nat} {r : RxHalf} {f : Frame} (h : r.holdsFrame e f) {pay : Bytes}
    (hpay : pay.length ≤ 255) (hf : zeroExtend f.payload = zeroExtend pay) :
    r.mem.memRead e .rx .pay 0 pay.length = pay := by
  obtain ⟨-, -, -, -, -, -, -, -, -, -, -, -, -, -, -, -, hread⟩ := h
  calc r.mem.memRead e .rx .pay 0 pay.length = (zeroExtend pay).take pay.length := by
        rw [← hf, ← hread]
        exact (Spaces.memRead_take e .rx r.mem .pay 0 hpay).symm
    _ = pay := by rw [zeroExtend, List.take_left]

/-- `RX.CHK` of a current frame whose checksum is the recomputed one. -/
theorem RxHalf.rxChk_responses_of_match {e : Nat} {r : RxHalf} {seed : Byte} (hf : r.frame = true)
    (h : r.recomputedCrc seed e = r.cksum) : (r.rxChk seed e).responses = r.responses ++ [⟨.ok, 1⟩] := by
  simp [RxHalf.rxChk, hf, h, flagBits]

/-- `RX.CHK` recomputes the checksum over the fields of the frame just stored. -/
theorem RxHalf.recomputedCrc_storeFrame (seed : Byte) (e : Nat) (r : RxHalf) {f : Frame} (h : f.Ok) :
    (r.storeFrame f).recomputedCrc seed e = frameCrc f.header f.payload seed := by
  rw [RxHalf.recomputedCrc, RxHalf.header_storeFrame, RxHalf.payload_storeFrame e _ h]

/-- Bytes that carry a frame, encoded, taken over into the RX buffer and decoded: the frame is the current one and
`RX.CHK` with the sender's seed answers 1. -/
theorem exists_roundTrip {i j : Instr} {s u : State} {b : Built} {v : Ver} {f : Frame} (hs : s.chan = .tx)
    (he : txEffect i s.epoch s.tx = s.tx.finishEncode b) (hj : rxEffect j = RxHalf.decodeWindow v)
    (hb : b.Carries v f s.tx.seed) :
    ∃ t, exec i s = .next t ∧
      (u.chan = .rx → u.rx.rxlen = t.tx.txlen →
        u.rx.mem.memRead u.epoch .rx .buf 0 t.tx.txlen.toNat = t.tx.mem.memRead t.epoch .tx .buf 0 t.tx.txlen.toNat →
        ∃ x, exec j u = .next x ∧ x.rx.holdsFrame x.epoch f ∧ f.cksum = t.tx.crcacc ∧
          ∃ w, exec (.rxChk s.tx.seed) x = .next w ∧ w.rx.responses = x.rx.responses ++ [⟨.ok, 1⟩]) := by
  have ht := exec_tx i hs
  rw [he] at ht
  refine ⟨_, ht, fun hu hlen hbuf => ?_⟩
  have hwindow : u.rx.window u.epoch = b.bytes := by
    rw [RxHalf.window, hlen, hbuf, TxHalf.finishEncode_txlen_toNat _ hb.fits]
    exact Spaces.memRead_memWrite s.epoch .tx s.tx.mem .buf 0 b.bytes
  have hdec : decodeFrame v (u.rx.window u.epoch) = some f := hwindow ▸ hb.decodes
  obtain ⟨hok, -⟩ := decodeFrame_ok hdec
  have hx := exec_rx j hu
  rw [hj, RxHalf.decodeWindow_some hdec] at hx
  refine ⟨_, hx, u.rx.clearFrame.storeFrame_holdsFrame u.epoch hok, hb.cksum, _, exec_rx (.rxChk s.tx.seed) hu, ?_⟩
  exact RxHalf.rxChk_responses_of_match rfl
    ((RxHalf.recomputedCrc_storeFrame s.tx.seed u.epoch u.rx.clearFrame hok).trans hb.check)

/-- The payload operand is read from `R.RXPAY`, where the current frame carries the wire payload or the whole one. -/
theorem RxHalf.holdsFrame.memRead_plen {e e' : Nat} {r : RxHalf} {f : Frame} (h : r.holdsFrame e f) {t : TxHalf}
    (hf : zeroExtend f.payload = zeroExtend (t.payload e')) :
    r.mem.memRead e .rx .pay 0 t.plen.toNat = t.payload e' := by
  have hlen := t.payload_length e'
  have hread := h.memRead_pay (hlen ▸ byte_toNat_le t.plen) hf
  rwa [hlen] at hread

/-- Settles O42: the frame that the bytes of `ENC.V1` carry has the operands as its fields. -/
theorem v1FrameRoundTrips : Obligations.V1FrameRoundTrips := by
  intro s u hs hid
  obtain ⟨t, ht, htrip⟩ := exists_roundTrip (u := u) (i := .encV1) (j := .decV1) hs (TxHalf.encV1_of_byte_id s.epoch hid) rfl
    (TxHalf.builtV1_carries s.epoch hid)
  refine ⟨t, ht, fun hu hlen hbuf => ?_⟩
  obtain ⟨x, hx, hholds, hcksum, hchk⟩ := htrip hu hlen hbuf
  have hpay := hholds.memRead_plen (t := s.tx) (e' := s.epoch) rfl
  obtain ⟨hver, hlen, -, -, hseq, hsys, hcomp, hmsgid, hck, -⟩ := hholds
  exact ⟨x, hx, hver, hlen.trans (s.tx.lenByte_payload s.epoch), hseq, hsys, hcomp, hmsgid, hck.trans hcksum, hpay, hchk⟩

/-- Both v2 encoders build bytes that carry the operands and the wire payload; a signed frame has the link id, the timestamp
and a hash too. -/
theorem txEffect_v2_carries {i : Instr} (hi : i = .encV2U ∨ i = .encV2S) (e : Nat) (t : TxHalf) :
    ∃ (b : Built) (hash : Bytes), txEffect i e t = t.finishEncode b ∧
      b.Carries .v2 ((frameV2 (if i = .encV2S then 1 else 0) t.seq t.sys t.comp t.msgid (t.wirePayload e) b.cksum).withBlock
        (if i = .encV2S then t.linkid else 0) (if i = .encV2S then t.ts else 0) hash) t.seed := by
  rcases hi with rfl | rfl
  · have h := t.builtV2U_carries e
    rw [TxHalf.frameV2U, frameV2_eq_withBlock] at h
    exact ⟨t.builtV2U e, [], t.encV2U_eq e, h⟩
  · exact ⟨t.builtV2S e, t.mac e, t.encV2S_eq e, t.builtV2S_carries e⟩

/-- Settles O43: the frame that the bytes of `ENC.V2U` or `ENC.V2S` carry has the operands and the wire payload as its
fields. -/
theorem v2FrameRoundTrips : Obligations.V2FrameRoundTrips := by
  intro s u i hs hi
  obtain ⟨b, hash, he, hb⟩ := txEffect_v2_carries hi s.epoch s.tx
  obtain ⟨t, ht, htrip⟩ := exists_roundTrip (u := u) (j := .decV2) hs he rfl hb
  refine ⟨t, ht, fun hu hlen hbuf => ?_⟩
  obtain ⟨x, hx, hholds, hcksum, hchk⟩ := htrip hu hlen hbuf
  have hpay := hholds.memRead_plen (s.tx.zeroExtend_wirePayload s.epoch)
  obtain ⟨hver, hlen, hinc, hcompat, hseq, hsys, hcomp, hmsgid, hck, hlinkid, hts, -, -, hsigned, -⟩ := hholds
  have hbit : signedBit (if i = .encV2S then 1 else 0) = decide (i = .encV2S) := by
    rcases hi with rfl | rfl <;> rfl
  exact ⟨x, hx, hver, hinc, hcompat, hsigned.trans hbit, hlinkid, hts,
    hlen ▸ lenByte_toNat _ (s.tx.wirePayload_length_le_255 s.epoch), hseq, hsys, hcomp, hmsgid, hck.trans hcksum, hpay, hchk⟩

end Sys2Proof.Machine

/-! PROOFS. The statements of 42_decode_validate.md: what the decoders store and what they leave as it was, the verdict of
`RX.CHK`, and that it fails after a change of one covered byte. -/

namespace Sys2Proof.Machine

/-! ### Little-endian numbers as sums (00_scope.md R9) -/

/-- A little-endian number that fits its width has its bytes as digits. -/
theorem fromLe_toNat {w : Nat} {s : Bytes} (h : 8 * s.length ≤ w) :
    (fromLe w s).toNat = Nat.ofDigits 256 (s.map BitVec.toNat) := by
  induction s with
  | nil => simp [fromLe]
  | cons b s ih =>
    rw [List.length_cons] at h
    have hw : 2 ^ (8 * s.length) * 2 ^ 8 ≤ 2 ^ w := by
      rw [← Nat.pow_add]; exact Nat.pow_le_pow_right (by decide) h
    have hdigits : Nat.ofDigits 256 (s.map BitVec.toNat) < 2 ^ (8 * s.length) := by
      have hlt := Nat.ofDigits_lt_base_pow_length (b := 256) (l := s.map BitVec.toNat) (by decide) fun x hx => by
        obtain ⟨c, -, rfl⟩ := List.mem_map.1 hx
        exact c.isLt
      rwa [List.length_map, show 256 = 2 ^ 8 from rfl, ← Nat.pow_mul] at hlt
    have hb : b.toNat < 2 ^ w := b.isLt.trans_le (Nat.pow_le_pow_right (by decide) (by omega))
    have hshift : Nat.ofDigits 256 (s.map BitVec.toNat) <<< 8 < 2 ^ w := by
      rw [Nat.shiftLeft_eq]; omega
    calc (fromLe w (b :: s)).toNat
        = Nat.ofDigits 256 (s.map BitVec.toNat) <<< 8 % 2 ^ w ||| b.toNat % 2 ^ w := by
          rw [← ih (by omega), ← BitVec.toNat_setWidth, ← BitVec.toNat_shiftLeft, ← BitVec.toNat_or]; rfl
      _ = Nat.ofDigits 256 (s.map BitVec.toNat) <<< 8 + b.toNat := by
          rw [Nat.mod_eq_of_lt hshift, Nat.mod_eq_of_lt hb, Nat.shiftLeft_add_eq_or_of_lt b.isLt]
      _ = Nat.ofDigits 256 ((b :: s).map BitVec.toNat) := by
          rw [List.map_cons, Nat.ofDigits_cons, Nat.shiftLeft_eq]; omega

/-- A 16-bit number of two bytes of a string, low byte first. -/
theorem fromLe_slice_two {w : Bytes} {i : Nat} (h : i + 2 ≤ w.length) :
    (fromLe 16 (slice w i (i + 2))).toNat = (byteAt w i).toNat + 256 * (byteAt w (i + 1)).toNat := by
  rw [fromLe_toNat (by rw [slice_length _ _ _ h]; omega), slice_eq_map_byteAt w i 2 h]
  simp [List.range_succ, Nat.ofDigits]

/-- A 24-bit number of three bytes of a string, low byte first. -/
theorem fromLe_slice_three {w : Bytes} {i : Nat} (h : i + 3 ≤ w.length) :
    (fromLe 24 (slice w i (i + 3))).toNat =
      (byteAt w i).toNat + 256 * (byteAt w (i + 1)).toNat + 65536 * (byteAt w (i + 2)).toNat := by
  rw [fromLe_toNat (by rw [slice_length _ _ _ h]; omega), slice_eq_map_byteAt w i 3 h]
  simp [List.range_succ, Nat.ofDigits]; omega

/-- Byte `k` of a 48-bit number of six bytes of a string. -/
theorem fromLe_slice_six_byte {w : Bytes} {i j k : Nat} (hj : j = i + 6) (hk : k < 6) :
    (fromLe 48 (slice w i j)).extractLsb' (8 * k) 8 = byteAt w (i + k) :=
  (fromLe_extractLsb' 6 _ k hk).trans (byteAt_slice w i j k (by omega))

/-! ### When decoding succeeds (42_decode_validate.md R156, R157) -/

/-- The length that a byte string declares as a frame of this format. -/
def Ver.declaredLen (w : Bytes) : Ver → Nat
  | .v1 => frameLenV1 (byteAt w 1)
  | .v2 => frameLenV2 (byteAt w 1) (byteAt w 2)

/-- The declared length counts the header and the payload. -/
theorem Ver.headerLen_le_declaredLen (v : Ver) (w : Bytes) : v.headerLen + (byteAt w 1).toNat ≤ v.declaredLen w := by
  cases v <;> simp only [Ver.headerLen, Ver.declaredLen, frameLenV1, frameLenV2] <;> omega

/-- A decoder needs the declared length and no more: bytes enough for it have a length byte and a flags byte. -/
theorem decodeFrame_some_of_declaredLen_le {v : Ver} {w : Bytes} (h : v.declaredLen w ≤ w.length) :
    ∃ f, decodeFrame v w = some f ∧ f.size = v.declaredLen w := by
  cases v with
  | v1 => exact decodeV1_some ((Nat.le_add_right_of_le (by decide)).trans h) h
  | v2 => exact decodeV2_some (by simp only [Ver.declaredLen, frameLenV2] at h; omega) h

/-- A frame is decoded only from bytes enough for the length they declare. -/
theorem declaredLen_le_of_decodeFrame {v : Ver} {w : Bytes} {f : Frame} (h : decodeFrame v w = some f) :
    v.declaredLen w ≤ w.length := by
  have hsome := Option.isSome_of_eq_some h
  cases v with
  | v1 =>
    rw [decodeFrame, decodeV1_isSome, Bool.and_eq_true] at hsome
    obtain ⟨-, hle⟩ := hsome
    exact of_decide_eq_true hle
  | v2 =>
    rw [decodeFrame, decodeV2_isSome, Bool.and_eq_true] at hsome
    obtain ⟨-, hle⟩ := hsome
    exact of_decide_eq_true hle

theorem decodeFrame_none_of_length_lt {v : Ver} {w : Bytes} (h : w.length < v.declaredLen w) : decodeFrame v w = none :=
  Option.eq_none_iff_forall_ne_some.2 fun _ hf => absurd (declaredLen_le_of_decodeFrame hf) (Nat.not_le.2 h)

/-! ### The fields of a decoded frame -/

theorem decodeFrame_len {v : Ver} {w : Bytes} {f : Frame} (h : decodeFrame v w = some f) : f.len = byteAt w 1 := by
  cases v with
  | v1 => obtain ⟨-, -, hlen, -⟩ := decodeV1_fields h; exact hlen
  | v2 => obtain ⟨-, -, hlen, -⟩ := decodeV2_fields h; exact hlen

/-- The payload of a decoded frame stands behind its header. -/
theorem decodeFrame_payload {v : Ver} {w : Bytes} {f : Frame} (h : decodeFrame v w = some f) :
    f.payload = slice w v.headerLen (v.headerLen + (byteAt w 1).toNat) := by
  cases v with
  | v1 => obtain ⟨-, -, -, -, -, -, -, hpay⟩ := decodeV1_fields h; exact hpay
  | v2 => obtain ⟨-, -, -, -, -, -, -, -, -, hpay⟩ := decodeV2_fields h; exact hpay

/-- The checksum of a decoded frame stands behind its payload. -/
theorem decodeFrame_cksum {v : Ver} {w : Bytes} {f : Frame} (h : decodeFrame v w = some f) :
    f.cksum.toNat = (byteAt w (v.headerLen + (byteAt w 1).toNat)).toNat +
      256 * (byteAt w (v.headerLen + 1 + (byteAt w 1).toNat)).toNat := by
  have hfits := declaredLen_le_of_decodeFrame h
  rw [Nat.add_right_comm]
  cases v with
  | v1 =>
    simp only [Ver.declaredLen, frameLenV1] at hfits
    rw [Ver.headerLen, ← fromLe_slice_two (by omega), Nat.add_right_comm]
    simp only [decodeFrame, decodeV1] at h
    split_ifs at h
    cases h; rfl
  | v2 =>
    simp only [Ver.declaredLen, frameLenV2] at hfits
    rw [Ver.headerLen, ← fromLe_slice_two (by omega), Nat.add_right_comm]
    simp only [decodeFrame, decodeV2] at h
    split_ifs at h <;> (cases h; rfl)

/-- The signature block of a decoded signed frame (30_encoding.md R93). -/
theorem decodeV2_signature {w : Bytes} {f : Frame} (h : decodeV2 w = some f) (hs : f.signed = true) :
    f.linkid = byteAt w (12 + (byteAt w 1).toNat) ∧
      f.ts = fromLe 48 (slice w (13 + (byteAt w 1).toNat) (19 + (byteAt w 1).toNat)) ∧
      f.hash = slice w (19 + (byteAt w 1).toNat) (25 + (byteAt w 1).toNat) := by
  simp only [decodeV2] at h
  split_ifs at h with _ _ hbit
  · cases h; exact ⟨rfl, rfl, rfl⟩
  · cases h; exact absurd hs hbit

/-! ### `DEC.V1` and `DEC.V2` (R158 to R160) -/

/-- `DEC.V1` and `DEC.V2` decode the buffer, each by its format. -/
theorem rxEffect_decoder {i : Instr} (h : i = .decV1 ∨ i = .decV2) : ∃ v, rxEffect i = RxHalf.decodeWindow v := by
  rcases h with rfl | rfl
  · exact ⟨.v1, rfl⟩
  · exact ⟨.v2, rfl⟩

/-- `StoreFrame` zero-extends the payload over all of `R.RXPAY`. -/
theorem RxHalf.storeFrame_get?_pay (r : RxHalf) {f : Frame} (h : f.Ok) {k : Nat} (hk : k < 255) :
    (r.storeFrame f).mem.pay.get? k = some (if k < f.len.toNat then byteAt f.payload k else 0) := by
  have hlen := zeroExtend_length f.payload (h.payload_length ▸ byte_toNat_le f.len)
  calc (r.storeFrame f).mem.pay.get? k = (zeroExtend f.payload)[k]? := by
        rw [storeFrame_mem, Spaces.memWrite_pay, Memory.get?_write, if_pos (by omega), Nat.sub_zero]
    _ = some (if k < f.len.toNat then byteAt f.payload k else 0) := by
        rw [zeroExtend_getElem? f.payload k hk, h.payload_length]

/-- `StoreFrame` changes no byte outside `R.RXPAY`. -/
theorem RxHalf.storeFrame_sameBut (r : RxHalf) {f : Frame} (h : f.Ok) : r.mem.sameBut .pay 0 255 (r.storeFrame f).mem := by
  have hsame := r.mem.sameBut_memWrite .pay 0 (zeroExtend f.payload)
  rwa [zeroExtend_length f.payload (h.payload_length ▸ byte_toNat_le f.len)] at hsame

/-- A decoder on a buffer shorter than the length it declares. -/
theorem toRx_of_short_window {i : Instr} {v : Ver} (hi : rxEffect i = RxHalf.decodeWindow v) {s : State} (hc : s.chan = .rx)
    (h : (s.rx.window s.epoch).length < v.declaredLen (s.rx.window s.epoch)) :
    ToRx i s (s.rx.clearFrame.says .format 0) :=
  toRx_of_rxEffect hc (by rw [hi, RxHalf.decodeWindow_none (decodeFrame_none_of_length_lt h)]; rfl)

/-- A decoder on a buffer long enough stores a frame with the fields of the buffer's bytes, and answers its length. -/
theorem exists_toRx_of_window {i : Instr} {v : Ver} (hi : rxEffect i = RxHalf.decodeWindow v) {s : State} (hc : s.chan = .rx)
    (h : v.declaredLen (s.rx.window s.epoch) ≤ (s.rx.window s.epoch).length) :
    ∃ f, decodeFrame v (s.rx.window s.epoch) = some f ∧
      ToRx i s ((s.rx.clearFrame.storeFrame f).says .ok (BitVec.ofNat 48 (v.declaredLen (s.rx.window s.epoch)))) := by
  obtain ⟨f, hf, hsize⟩ := decodeFrame_some_of_declaredLen_le h
  exact ⟨f, hf, toRx_of_rxEffect hc (by rw [hi, RxHalf.decodeWindow_some hf, hsize]; rfl)⟩

/-- Byte `k` of the payload is the wire byte behind the header, or a zero beyond the declared length. -/
theorem RxHalf.get?_pay_of_decodeFrame (r : RxHalf) {v : Ver} {w : Bytes} {f : Frame} (h : decodeFrame v w = some f)
    {k : Nat} (hk : k < 255) : (r.storeFrame f).mem.pay.get? k =
      some (if k < (byteAt w 1).toNat then byteAt w (v.headerLen + k) else 0) := by
  obtain ⟨hok, -⟩ := decodeFrame_ok h
  rw [r.storeFrame_get?_pay hok hk, decodeFrame_len h]
  split
  next hn => rw [decodeFrame_payload h, byteAt_slice _ _ _ _ (by omega)]
  next => rfl

/-- Settles O36: the short buffer answers `FORMAT`; else the fields of the frame stored are the bytes R156 names. -/
theorem decV1StoresTheFields : Obligations.DecV1StoresTheFields := by
  intro s hc f n
  have hdeclared : Ver.v1.declaredLen f = 8 + n := rfl
  refine ⟨fun hshort => toRx_of_short_window (v := .v1) rfl hc (show f.length < Ver.v1.declaredLen f by omega),
    fun _ hlong => ?_⟩
  obtain ⟨x, hx, hto⟩ := exists_toRx_of_window (v := .v1) (i := .decV1) rfl hc hlong
  obtain ⟨hok, hver⟩ := decodeFrame_ok hx
  obtain ⟨hinc, hcompat, -, hsigned⟩ := hok.v1_fields hver
  obtain ⟨hlinkid, hts, hhash⟩ := hok.unsigned_fields hsigned
  obtain ⟨-, -, hlen, hseq, hsys, hcomp, hid, -⟩ := decodeV1_fields hx
  exact ⟨_, hto, rfl, congrArg Ver.number hver, hlen, hinc, hcompat, hseq, hsys, hcomp, hid,
    decodeFrame_cksum hx, hlinkid, hts, congrArg (fromLe 48) hhash, rfl, rfl, rfl, hsigned, rfl,
    fun k hk => s.rx.clearFrame.get?_pay_of_decodeFrame hx hk⟩

/-- Settles O37: as `DEC.V1`, with the signature block where the signed bit is set. -/
theorem decV2StoresTheFields : Obligations.DecV2StoresTheFields := by
  intro s hc f n sg
  have hdeclared : Ver.v2.declaredLen f = 12 + n + 13 * sg.toNat := congrArg _ (sigLen_eq _)
  refine ⟨fun hshort => toRx_of_short_window (v := .v2) rfl hc (show f.length < Ver.v2.declaredLen f by omega),
    fun _ hlong => ?_⟩
  obtain ⟨x, hx, hto⟩ := exists_toRx_of_window (v := .v2) (i := .decV2) rfl hc (hdeclared.trans_le hlong)
  obtain ⟨hok, hver⟩ := decodeFrame_ok hx
  obtain ⟨hfits, -, hlen, hinc, hcompat, hseq, hsys, hcomp, hid, -⟩ := decodeV2_fields hx
  have hsigned : x.signed = sg := (decodeV2_signed hx).trans (congrArg (·.getLsbD 0) hinc)
  refine ⟨_, hto, congrArg (fun d => s.rx.responses ++ [⟨.ok, BitVec.ofNat 48 d⟩]) hdeclared, congrArg Ver.number hver,
    hlen, hinc, hcompat, hseq, hsys, hcomp,
    (congrArg BitVec.toNat hid).trans (fromLe_slice_three ((Nat.le_add_right_of_le (by decide)).trans hfits)),
    decodeFrame_cksum hx, ?unsigned, ?signed, rfl, rfl, rfl, hsigned, rfl,
    fun k hk => s.rx.clearFrame.get?_pay_of_decodeFrame hx hk⟩
  case unsigned =>
    intro h0
    obtain ⟨hlinkid, hts, hhash⟩ := hok.unsigned_fields (hsigned.trans h0)
    exact ⟨hlinkid, hts, congrArg (fromLe 48) hhash⟩
  case signed =>
    intro h1
    obtain ⟨hlinkid, hts, hhash⟩ := decodeV2_signature hx (hsigned.trans h1)
    refine ⟨hlinkid, fun k hk => ?_, fun k hk => ?_⟩
    · exact (congrArg _ hts).trans (fromLe_slice_six_byte (by omega) hk)
    · exact (congrArg (fun b => (fromLe 48 b).extractLsb' (8 * k) 8) hhash).trans (fromLe_slice_six_byte (by omega) hk)

/-- Settles O39: a decoder clears the flags and answers, or stores its frame in the descriptor and `R.RXPAY`. -/
theorem decodersLeaveTheRest : Obligations.DecodersLeaveTheRest := by
  intro i s t hc hi he
  obtain ⟨v, hv⟩ := rxEffect_decoder hi
  rw [exec_rx i hc, hv] at he
  cases he
  cases hd : decodeFrame v (s.rx.window s.epoch) with
  | none =>
    rw [RxHalf.decodeWindow_none hd]
    exact ⟨fun _ _ _ => rfl, ⟨rfl, rfl, rfl, rfl, rfl⟩, rfl, rfl, rfl, rfl, rfl, rfl, rfl⟩
  | some f =>
    obtain ⟨hok, -⟩ := decodeFrame_ok hd
    rw [RxHalf.decodeWindow_some hd]
    exact ⟨s.rx.clearFrame.storeFrame_sameBut hok, ⟨rfl, rfl, rfl, rfl, rfl⟩, rfl, rfl, rfl, rfl, rfl, rfl, rfl⟩

/-! ### `RX.CHK` (R163) -/

/-- The recomputed checksum over the fields, in the form of R163 that the version names. -/
theorem RxHalf.recomputedCrc_eq (seed : Byte) (e : Nat) (r : RxHalf) : r.recomputedCrc seed e =
    if r.ver = 1 then crc16 ([r.len, r.seq, r.sys, r.comp, r.msgid.extractLsb' 0 8] ++ r.payload e ++ [seed])
    else crc16 ([r.len, r.incompat, r.compat, r.seq, r.sys, r.comp] ++ leBytes 3 r.msgid ++ r.payload e ++ [seed]) := by
  rw [RxHalf.recomputedCrc, RxHalf.header, frameCrc]
  split
  · rw [headerV1, BitVec.setWidth_eq_extractLsb' (by decide)]; rfl
  · rfl

theorem RxHalf.rxChk_of_no_frame {r : RxHalf} (h : r.frame = false) (seed : Byte) (e : Nat) :
    r.rxChk seed e = r.says .noframe 0 := by
  rw [RxHalf.rxChk, h]; rfl

theorem RxHalf.rxChk_of_match {r : RxHalf} (hf : r.frame = true) {seed : Byte} {e : Nat}
    (h : r.recomputedCrc seed e = r.cksum) :
    r.rxChk seed e = { r with crcacc := r.recomputedCrc seed e, crcOk := true }.says .ok 1 := by
  simp only [RxHalf.rxChk, hf, h, beq_self_eq_true]; rfl

theorem RxHalf.rxChk_of_mismatch {r : RxHalf} (hf : r.frame = true) {seed : Byte} {e : Nat}
    (h : r.recomputedCrc seed e ≠ r.cksum) :
    r.rxChk seed e = { r with crcacc := r.recomputedCrc seed e, crcOk := false }.says .ok 0 := by
  simp only [RxHalf.rxChk, hf, beq_eq_false_iff_ne.2 h]; rfl

/-- Settles O40: no frame, the recomputed checksum is the carried one, or it is not. -/
theorem rxChkRecomputesTheChecksum : Obligations.RxChkRecomputesTheChecksum := by
  intro s seed hc r pay id c1 c2 c
  have hcrc : r.recomputedCrc seed s.epoch = c := r.recomputedCrc_eq seed s.epoch
  rw [← hcrc]
  exact ⟨fun hf => toRx_of_rxEffect hc (RxHalf.rxChk_of_no_frame hf seed s.epoch), fun hf =>
    ⟨fun h => toRx_of_rxEffect hc (RxHalf.rxChk_of_match hf h),
      fun h => toRx_of_rxEffect hc (RxHalf.rxChk_of_mismatch hf h)⟩⟩

/-! ### What the validators leave as it was (R163, 43_signature.md R176) -/

/-- All that `RX.CHK` can write: the accumulator, its verdict and a response. -/
theorem RxHalf.rxChk_writes (seed : Byte) (e : Nat) (r : RxHalf) :
    ∃ c b x, r.rxChk seed e = { r with crcacc := c, crcOk := b }.answer x := by
  rcases Bool.eq_false_or_eq_true r.frame with hf | hf
  · by_cases h : r.recomputedCrc seed e = r.cksum
    · exact ⟨_, _, _, RxHalf.rxChk_of_match hf h⟩
    · exact ⟨_, _, _, RxHalf.rxChk_of_mismatch hf h⟩
  · exact ⟨r.crcacc, r.crcOk, _, RxHalf.rxChk_of_no_frame hf seed e⟩

/-- All that `SIG.VFY` can write: its verdict and a response. -/
theorem RxHalf.sigVfy_writes (e : Nat) (r : RxHalf) : ∃ b x, r.sigVfy e = { r with sigOk := b }.answer x := by
  unfold RxHalf.sigVfy
  split
  · exact ⟨r.sigOk, _, rfl⟩
  · split
    · exact ⟨r.sigOk, _, rfl⟩
    · exact ⟨_, _, rfl⟩

/-- Settles O47: neither validator writes anything but what it gives. -/
theorem validatorsLeaveTheRest : Obligations.ValidatorsLeaveTheRest := by
  intro i s t hc hi he
  rw [exec_rx i hc] at he
  cases he
  rcases hi with ⟨seed, rfl⟩ | rfl
  · obtain ⟨c, b, x, h⟩ := s.rx.rxChk_writes seed s.epoch
    rw [rxEffect, h]
    exact ⟨s.rx.mem.same_refl, ⟨rfl, rfl, rfl, rfl, rfl⟩, ⟨rfl, rfl, rfl, rfl, rfl, rfl, rfl, rfl, rfl, rfl, rfl, rfl⟩,
      rfl, rfl, rfl, rfl, fun h => (by cases h), fun _ => rfl, rfl, rfl, rfl, rfl⟩
  · obtain ⟨b, x, h⟩ := s.rx.sigVfy_writes s.epoch
    rw [rxEffect, h]
    exact ⟨s.rx.mem.same_refl, ⟨rfl, rfl, rfl, rfl, rfl⟩, ⟨rfl, rfl, rfl, rfl, rfl, rfl, rfl, rfl, rfl, rfl, rfl, rfl⟩,
      rfl, rfl, rfl, rfl, fun _ => ⟨rfl, rfl⟩, fun h => absurd rfl h, rfl, rfl, rfl, rfl⟩

/-! ### Byte strings with one byte changed -/

/-- Two byte strings that differ in one byte have different checksums (40_crc.md R126). -/
theorem crc16_ne_of_byte_ne (u v : Bytes) {x y : Byte} (h : x ≠ y) : crc16 (u ++ x :: v) ≠ crc16 (u ++ y :: v) := by
  obtain ⟨-, -, -, -, -, hchange⟩ := crcLaws
  exact hchange crcInitial u v x y h

theorem byteAt_set_of_ne (w : Bytes) {j k : Nat} (h : j ≠ k) (x : Byte) : byteAt (w.set k x) j = byteAt w j := by
  simp [byteAt, List.getElem?_set_ne h.symm]

theorem byteAt_set_self {w : Bytes} {k : Nat} (h : k < w.length) (x : Byte) : byteAt (w.set k x) k = x := by
  simp [byteAt, h]

theorem slice_set_of_outside (w : Bytes) {i j k : Nat} (h : j ≤ k ∨ k < i) (x : Byte) :
    slice (w.set k x) i j = slice w i j := by
  rcases h with hj | hi
  · rw [slice, slice, ← List.drop_take, ← List.drop_take, List.take_set_of_le hj]
  · rw [slice, slice, List.drop_set_of_lt hi]

/-- A slice cut at one of its bytes. -/
theorem slice_eq_append_byteAt {w : Bytes} {i j k : Nat} (hik : i ≤ k) (hkj : k < j) (hj : j ≤ w.length) :
    slice w i j = slice w i k ++ byteAt w k :: slice w (k + 1) j := by
  have hk : k < w.length := hkj.trans_le hj
  have hbyte : slice w k (k + 1) = [byteAt w k] := by simp [slice_eq_map_byteAt w k 1 hk]
  rw [← slice_append_slice w hik hkj.le, ← slice_append_slice w (Nat.le_succ k) hkj, hbyte, List.singleton_append]

/-! ### One covered byte changed (R164) -/

/-- The checksum that the covered bytes of a wire frame have with a seed (40_crc.md R125). -/
def wireCrc (v : Ver) (w : Bytes) (seed : Byte) : BitVec 16 :=
  crc16 (slice w 1 (v.headerLen + (byteAt w 1).toNat) ++ [seed])

theorem wireCrc_seed_ne (v : Ver) (w : Bytes) {seed seed' : Byte} (h : seed' ≠ seed) :
    wireCrc v w seed' ≠ wireCrc v w seed := crc16_ne_of_byte_ne _ [] h

/-- A covered byte changed, the length byte apart. -/
theorem wireCrc_set_ne {v : Ver} {w : Bytes} {k : Nat} (h2 : 2 ≤ k) (hk : k < v.headerLen + (byteAt w 1).toNat)
    (hw : v.headerLen + (byteAt w 1).toNat ≤ w.length) {x : Byte} (hx : x ≠ byteAt w k) (seed : Byte) :
    wireCrc v (w.set k x) seed ≠ wireCrc v w seed := by
  rw [wireCrc, wireCrc, byteAt_set_of_ne w (by omega) x,
    slice_eq_append_byteAt (show 1 ≤ k by omega) hk (by rwa [List.length_set]), slice_set_of_outside w (.inl le_rfl),
    slice_set_of_outside w (.inr k.lt_succ_self), byteAt_set_self (hk.trans_le hw),
    slice_eq_append_byteAt (show 1 ≤ k by omega) hk hw, List.append_assoc, List.append_assoc]
  exact crc16_ne_of_byte_ne _ _ hx

/-- A covered byte changed, the length byte and the signed bit apart: the frame keeps its boundaries, and with them the
checksum it carries. -/
theorem decodeFrame_set {v : Ver} {w : Bytes} {f : Frame} (h : decodeFrame v w = some f) {k : Nat} (h2 : 2 ≤ k)
    (hk : k < v.headerLen + (byteAt w 1).toNat) {x : Byte} (hbit : v = .v2 → k = 2 → signedBit x = signedBit (byteAt w 2)) :
    ∃ f', decodeFrame v (w.set k x) = some f' ∧ f'.cksum = f.cksum := by
  have hlen : byteAt (w.set k x) 1 = byteAt w 1 := byteAt_set_of_ne w (by omega) x
  have hcovered : k < w.length :=
    hk.trans_le ((v.headerLen_le_declaredLen w).trans (declaredLen_le_of_decodeFrame h))
  have hdeclared : v.declaredLen (w.set k x) = v.declaredLen w := by
    cases v with
    | v1 => rw [Ver.declaredLen, Ver.declaredLen, hlen]
    | v2 =>
      have hsig : signedBit (byteAt (w.set k x) 2) = signedBit (byteAt w 2) := by
        rcases h2.eq_or_lt with rfl | h3
        · rw [byteAt_set_self hcovered, hbit rfl rfl]
        · rw [byteAt_set_of_ne w (by omega) x]
      rw [Ver.declaredLen, Ver.declaredLen, frameLenV2, frameLenV2, hlen, sigLen, sigLen, hsig]
  obtain ⟨f', hf', -⟩ := decodeFrame_some_of_declaredLen_le
    (show v.declaredLen (w.set k x) ≤ (w.set k x).length by
      rw [hdeclared, List.length_set]; exact declaredLen_le_of_decodeFrame h)
  refine ⟨f', hf', BitVec.eq_of_toNat_eq ?_⟩
  rw [decodeFrame_cksum hf', decodeFrame_cksum h, hlen, byteAt_set_of_ne w (by omega) x, byteAt_set_of_ne w (by omega) x]

/-- A decoder on a buffer that holds a frame makes it the current one; its checksum is recomputed over the buffer's bytes. -/
theorem exec_decoder_of_some {i : Instr} {v : Ver} (hi : rxEffect i = RxHalf.decodeWindow v) {s t : State} (hc : s.chan = .rx)
    (he : exec i s = .next t) {f : Frame} (h : decodeFrame v (s.rx.window s.epoch) = some f) :
    t.chan = .rx ∧ t.rx.frame = true ∧ t.rx.len = byteAt (s.rx.window s.epoch) 1 ∧ t.rx.cksum = f.cksum ∧
      ∀ seed, t.rx.recomputedCrc seed t.epoch = wireCrc v (s.rx.window s.epoch) seed := by
  obtain ⟨hok, -⟩ := decodeFrame_ok h
  rw [exec_rx i hc, hi, RxHalf.decodeWindow_some h] at he
  cases he
  refine ⟨hc, rfl, decodeFrame_len h, rfl, fun seed => ?_⟩
  rw [wireCrc, ← decodeFrame_covered h]
  exact s.rx.clearFrame.recomputedCrc_storeFrame seed s.epoch hok

/-- A decoder leaves a current frame only where it decoded one. -/
theorem exists_decodeFrame_of_exec {i : Instr} {v : Ver} (hi : rxEffect i = RxHalf.decodeWindow v) {s t : State}
    (hc : s.chan = .rx) (he : exec i s = .next t) (hf : t.rx.frame = true) :
    ∃ f, decodeFrame v (s.rx.window s.epoch) = some f := by
  rw [exec_rx i hc, hi] at he
  cases he
  cases hd : decodeFrame v (s.rx.window s.epoch) with
  | none => rw [RxHalf.decodeWindow_none hd] at hf; cases hf
  | some f => exact ⟨f, rfl⟩

theorem exists_exec_rxChk_of_mismatch {s : State} (hc : s.chan = .rx) (hf : s.rx.frame = true) {seed : Byte}
    (h : s.rx.recomputedCrc seed s.epoch ≠ s.rx.cksum) :
    ∃ u, exec (.rxChk seed) s = .next u ∧ u.rx.responses = s.rx.responses ++ [⟨.ok, 0⟩] ∧ u.rx.crcOk = false :=
  ⟨_, toRx_of_rxEffect hc (RxHalf.rxChk_of_mismatch hf h), rfl, rfl⟩

/-- `RX.CHK` answers 1 only where the recomputed checksum is the one the frame carries. -/
theorem recomputedCrc_eq_of_exec_rxChk {s u : State} (hc : s.chan = .rx) (hf : s.rx.frame = true) {seed : Byte}
    (hu : exec (.rxChk seed) s = .next u) (h : u.rx.responses = s.rx.responses ++ [⟨.ok, 1⟩]) :
    s.rx.recomputedCrc seed s.epoch = s.rx.cksum := by
  by_contra hne
  obtain ⟨u', hu', hzero, -⟩ := exists_exec_rxChk_of_mismatch hc hf hne
  obtain rfl : u = u' := Host.Outcome.next.inj (hu.symm.trans hu')
  simp [h] at hzero

/-- Settles O44: the changed byte or seed changes the checksum recomputed over the wire bytes, and not the one carried. -/
theorem changedCoveredByteFailsTheCheck : Obligations.ChangedCoveredByteFailsTheCheck := by
  intro i h s t u seed hi hc he hf hu hresp w
  obtain ⟨v, hv, rfl, hv2⟩ :
      ∃ v, rxEffect i = RxHalf.decodeWindow v ∧ h = v.headerLen ∧ (v = .v2 → i = .decV2) := by
    rcases hi with ⟨rfl, rfl⟩ | ⟨rfl, rfl⟩
    · exact ⟨.v1, rfl, rfl, fun h => nomatch h⟩
    · exact ⟨.v2, rfl, rfl, fun _ => rfl⟩
  obtain ⟨f, hd⟩ := exists_decodeFrame_of_exec hv hc he hf
  obtain ⟨htc, -, hlen, hcksum, hcrc⟩ := exec_decoder_of_some hv hc he hd
  have hcarried := recomputedCrc_eq_of_exec_rxChk htc hf hu hresp
  refine ⟨fun seed' hseed => exists_exec_rxChk_of_mismatch htc hf ?seed, fun s' k x hc' hw' h2 hk hx hbit => ?byte⟩
  case seed =>
    rw [← hcarried, hcrc, hcrc]
    exact wireCrc_seed_ne v _ hseed
  case byte =>
    rw [hlen] at hk
    have hwindow : s'.rx.window s'.epoch = w.set k x := hw'
    obtain ⟨f', hd', hsame⟩ := decodeFrame_set hd h2 hk fun hver hk2 => hbit (hv2 hver) hk2
    have ht' := exec_rx i hc'
    obtain ⟨htc', hf', -, hcksum', hcrc'⟩ := exec_decoder_of_some hv hc' ht' (hwindow ▸ hd')
    have hne := wireCrc_set_ne h2 hk ((v.headerLen_le_declaredLen w).trans (declaredLen_le_of_decodeFrame hd)) hx seed
    obtain ⟨u', hu', hzero, hbad⟩ := exists_exec_rxChk_of_mismatch (seed := seed) htc' hf' (by
      rwa [hcrc', hwindow, hcksum', hsame, ← hcksum, ← hcarried, hcrc])
    exact ⟨_, u', ht', hf', hu', hzero, hbad⟩

end Sys2Proof.Machine

/-! PROOFS. The statements of 43_signature.md: the verdict of `SIG.VFY`, and that a frame signed by `ENC.V2S` verifies. -/

namespace Sys2Proof.Machine

/-! ### `SIG.VFY` (43_signature.md R176) -/

/-- The hash that `SIG.VFY` recomputes for the current frame (R172, R173). -/
def RxHalf.mac (e : Nat) (r : RxHalf) : Bytes := mac48 (r.mem.memRead e .rx .key 0 Config.keyBytes) (r.signedBytes e)

theorem RxHalf.hashMatches_eq (e : Nat) (r : RxHalf) : r.hashMatches e = (fromLe 48 (r.mac e) == r.hash) := rfl

/-- The verdict compares all six bytes of the hash. -/
theorem RxHalf.hashMatches_iff (e : Nat) (r : RxHalf) :
    r.hashMatches e = true ↔ ∀ k, k < 6 → byteAt (r.mac e) k = r.hash.extractLsb' (8 * k) 8 := by
  rw [RxHalf.hashMatches_eq, beq_iff_eq]
  constructor
  · intro h k hk
    rw [← h]
    exact (fromLe_extractLsb' 6 (r.mac e) k hk).symm
  · intro h
    exact eq_of_leBytes 6 _ _ fun k hk => (fromLe_extractLsb' 6 (r.mac e) k hk).trans (h k hk)

theorem RxHalf.sigVfy_of_no_frame {r : RxHalf} (h : r.frame = false) (e : Nat) : r.sigVfy e = r.says .noframe 0 := by
  rw [RxHalf.sigVfy, h]; rfl

theorem RxHalf.sigVfy_of_no_signature {r : RxHalf} (hf : r.frame = true) (h : r.ver ≠ 2 ∨ r.signed = false) (e : Nat) :
    r.sigVfy e = r.says .nosig 0 := by
  rw [RxHalf.sigVfy, if_neg (by simp [hf]), if_pos (by simpa using h)]; rfl

theorem RxHalf.sigVfy_of_signed {r : RxHalf} (hf : r.frame = true) (hver : r.ver = 2) (hs : r.signed = true) (e : Nat) :
    r.sigVfy e = { r with sigOk := r.hashMatches e }.says .ok (flagBits 48 (r.hashMatches e)) := by
  rw [RxHalf.sigVfy, if_neg (by simp [hf]), if_neg (by simp [hver, hs])]; rfl

/-- Settles O45: no frame, no signature, or the verdict on the six bytes of the recomputed hash. -/
theorem sigVfyRecomputesTheHash : Obligations.SigVfyRecomputesTheHash := by
  intro s hc r pay id sb h
  have hmac : r.mac s.epoch = h := rfl
  have hverdict : r.hashMatches s.epoch = true ↔ ∀ k, k < 6 → h.getD k 0 = r.hash.extractLsb' (8 * k) 8 :=
    hmac ▸ r.hashMatches_iff s.epoch
  refine ⟨fun hf => toRx_of_rxEffect hc (RxHalf.sigVfy_of_no_frame hf s.epoch),
    fun hf hns => toRx_of_rxEffect hc (RxHalf.sigVfy_of_no_signature hf hns s.epoch),
    fun hf hver hs => ⟨fun heq => toRx_of_rxEffect hc ?equal, fun ⟨k, hk, hne⟩ => toRx_of_rxEffect hc ?different⟩⟩
  case equal =>
    refine (RxHalf.sigVfy_of_signed hf hver hs s.epoch).trans ?_
    rw [hverdict.2 heq]; rfl
  case different =>
    have hno : r.hashMatches s.epoch = false := Bool.eq_false_iff.2 fun hyes => hne (hverdict.1 hyes k hk)
    refine (RxHalf.sigVfy_of_signed hf hver hs s.epoch).trans ?_
    rw [hno]; rfl

/-! ### A frame that `ENC.V2S` signed (R177 (a)) -/

/-- A range of a space that was not written reads as before. -/
theorem Spaces.sameBut.memRead {x : Space} {i j : Nat} {m m' : Spaces} (h : m.sameBut x i j m') {sp : Space} (hsp : sp ≠ x)
    (e : Nat) (c : Channel) (k n : Nat) : m'.memRead e c sp k n = m.memRead e c sp k n :=
  List.map_congr_left fun l _ => by
    rw [Spaces.readByte, h sp (k + l) fun hin => hsp hin.1, Spaces.readByte]

/-- The bytes that the signature of a frame covers (R172). -/
def Frame.signedBytes (f : Frame) : Bytes :=
  Sys2Proof.Machine.signedBytes f.len f.incompat f.compat f.seq f.sys f.comp f.msgid f.payload f.cksum f.linkid f.ts

/-- `SIG.VFY` covers the signed bytes of the frame that was stored. -/
theorem RxHalf.holdsFrame.signedBytes_eq {e : Nat} {r : RxHalf} {f : Frame} (h : r.holdsFrame e f)
    (hlen : f.payload.length = f.len.toNat) : r.signedBytes e = f.signedBytes := by
  have hread := h.memRead_pay (hlen ▸ byte_toNat_le f.len) rfl
  obtain ⟨-, hl, hinc, hcompat, hseq, hsys, hcomp, hid, hcksum, hlinkid, hts, -⟩ := h
  have hpay : r.payload e = f.payload := by rw [RxHalf.payload, hl, ← hlen, hread]
  rw [RxHalf.signedBytes, hl, hinc, hcompat, hseq, hsys, hcomp, hid, hpay, hcksum, hlinkid, hts, Frame.signedBytes]

theorem TxHalf.frameV2S_payload_length (e : Nat) (t : TxHalf) :
    (t.frameV2S e).payload.length = (t.frameV2S e).len.toNat :=
  (lenByte_toNat (t.wirePayload e) (t.wirePayload_length_le_255 e)).symm

/-- The signature of the frame of `ENC.V2S` covers the bytes that were signed. -/
theorem TxHalf.frameV2S_signedBytes (e : Nat) (t : TxHalf) : (t.frameV2S e).signedBytes = t.signedBytes e := by
  simp only [Frame.signedBytes, TxHalf.frameV2S, Frame.withBlock, frameV2, TxHalf.signedBytes]

/-- With the sender's key, the hash recomputed for the frame of `ENC.V2S` is the one it appended. -/
theorem RxHalf.holdsFrame.mac_frameV2S {e e' : Nat} {r : RxHalf} {t : TxHalf} (h : r.holdsFrame e (t.frameV2S e'))
    (hkey : r.mem.memRead e .rx .key 0 Config.keyBytes = t.mem.memRead e' .tx .key 0 Config.keyBytes) :
    r.mac e = t.mac e' := by
  rw [RxHalf.mac, hkey, h.signedBytes_eq (t.frameV2S_payload_length e'), t.frameV2S_signedBytes e', TxHalf.mac]

/-- Settles O46: decoding keeps the key and stores the fields that were signed, so both hashes are of the same bytes. -/
theorem signedFrameVerifiesWithItsKey : Obligations.SignedFrameVerifiesWithItsKey := by
  intro s u hs
  obtain ⟨t, ht, htrip⟩ := exists_roundTrip (u := u) (i := .encV2S) (j := .decV2) hs (s.tx.encV2S_eq s.epoch) rfl
    (s.tx.builtV2S_carries s.epoch)
  refine ⟨t, ht, fun hu hlen hbuf hkey => ?_⟩
  obtain ⟨v, hv, hholds, -⟩ := htrip hu hlen hbuf
  obtain ⟨hsame, -, -, -, -, -, hepoch, -, hchan⟩ := decodersLeaveTheRest .decV2 u v hu (.inr rfl) hv
  have hvkey : v.rx.mem.memRead v.epoch .rx .key 0 32 = s.tx.mem.memRead s.epoch .tx .key 0 32 := by
    rw [hsame.memRead (by decide), hepoch, hkey]
  have hmac := hholds.mac_frameV2S hvkey
  obtain ⟨hver, -, -, -, -, -, -, -, -, -, -, hhash, hframe, hsigned, -⟩ := hholds
  have hmatch : v.rx.hashMatches v.epoch = true := by
    rw [RxHalf.hashMatches_eq, hmac, hhash]; exact beq_self_eq_true _
  have hverdict : rxEffect .sigVfy v.epoch v.rx = { v.rx with sigOk := true }.says .ok 1 := by
    refine (RxHalf.sigVfy_of_signed hframe hver hsigned v.epoch).trans ?_
    rw [hmatch]; rfl
  exact ⟨v, _, hv, toRx_of_rxEffect (hchan.trans hu) hverdict, rfl, rfl⟩

end Sys2Proof.Machine

/-! PROOFS. The statements of 44_sync.md: where `SYNC.NEXT` stops and what it returns, that it does not matter when the
bytes come, what completes a held scan, `SYNC.DROP`, `SYNC.CONNECT`, `EOS`, and what the scanner's commands leave as it was. -/

namespace Sys2Proof.Machine

/-! ### Attempts and scans (44_sync.md R193, R197, R200) -/

/-- A window is found exactly where `FrameLen` gives its length and the bytes are there. -/
theorem attempt_found_iff_frameLenOf (s : Bytes) (closed : Bool) (n : Nat) :
    (∃ v, attemptMarker s closed 0 = .found v n) ↔ frameLenOf s = some n ∧ n ≤ s.length := by
  cases s with
  | nil => cases closed <;> simp [attempt_nil, frameLenOf, byteAt, Config.stxV1, Config.stxV2]
  | cons b s => exact attempt_found_iff b s closed n

theorem attemptBody_found_ver {s : Bytes} {closed : Bool} {t need n : Nat} {v v' : Ver}
    (h : attemptBody s closed t v need = .found v' n) : v' = v := by
  rw [attemptBody_eq] at h
  split_ifs at h
  cases h; rfl

theorem attemptLen_found_ver {s : Bytes} {closed : Bool} {t n : Nat} {v v' : Ver}
    (h : attemptLen s closed t v = .found v' n) : v' = v := by
  unfold attemptLen at h
  split at h
  · cases v with
    | v1 => exact attemptBody_found_ver h
    | v2 =>
      simp only [attemptFlags] at h
      split at h
      · exact attemptBody_found_ver h
      · cases h
      · cases h
  · cases h
  · cases h

/-- The format of a window is the one its marker names. -/
theorem attempt_found_ver {s : Bytes} {closed : Bool} {v : Ver} {n : Nat} (h : attemptMarker s closed 0 = .found v n) :
    v = if byteAt s 0 = 0xFE then .v1 else .v2 := by
  cases s with
  | nil => rw [attempt_nil] at h; split_ifs at h
  | cons m s =>
    by_cases h1 : m = Config.stxV1
    · subst h1
      exact attemptLen_found_ver h
    by_cases h2 : m = Config.stxV2
    · subst h2
      exact attemptLen_found_ver h
    · rw [attempt_other m s closed h1 h2] at h; cases h

/-- The cursor of a held attempt is behind the bytes of the header it has read. -/
theorem attempt_hold_cursor {s : Bytes} {p : Phase} {t : Nat} (h : attemptMarker s false 0 = .hold p t) :
    t = min s.length (if byteAt s 0 = 0xFE then 2 else 3) := by
  rcases s with _ | ⟨m, s⟩
  · cases h; rfl
  by_cases h1 : m = Config.stxV1
  · subst h1
    rcases s with _ | ⟨n, s⟩
    · cases h; rfl
    · rw [attempt_v1, attemptLen_v1, attemptBody_eq] at h
      split_ifs at h
      cases h
      simp [byteAt, Config.stxV1]
  by_cases h2 : m = Config.stxV2
  · subst h2
    rcases s with _ | ⟨n, _ | ⟨r, s⟩⟩
    · cases h; rfl
    · cases h; rfl
    · rw [attempt_v2, attemptLen_v2, attemptFlags_long, attemptBody_eq] at h
      split_ifs at h
      cases h
      simp [byteAt, Config.stxV2]
  · rw [attempt_other m s false h1 h2] at h; cases h

/-- An attempt that starts at a marker, or at the end of what an open stream has delivered, is held unless the frame is whole. -/
theorem attempt_holds {s : Bytes} (hmarker : ∀ b rest, s = b :: rest → b = Config.stxV1 ∨ b = Config.stxV2)
    (hshort : ∀ n, frameLenOf s = some n → s.length < n) : ∃ p t, attemptMarker s false 0 = .hold p t := by
  cases h : attemptMarker s false 0 with
  | hold p t => exact ⟨p, t, rfl⟩
  | ended =>
    obtain ⟨-, hc⟩ := (attempt_ended_iff s false).1 h
    cases hc
  | failed =>
    obtain ⟨b, rest, hs, h1, h2⟩ := attempt_open_failed h
    exact ((hmarker b rest hs).elim h1 h2).elim
  | found v n =>
    obtain ⟨hl, hn⟩ := (attempt_found_iff_frameLenOf s false n).1 ⟨v, h⟩
    exact absurd (hshort n hl) (Nat.not_lt.2 hn)

/-- A scan drops the bytes that are no marker, and stops behind them unless the attempt there fails. -/
theorem scan_behind_no_marker {g s : Bytes} {closed : Bool} {a : Attempt}
    (hg : ∀ b ∈ g, b ≠ Config.stxV1 ∧ b ≠ Config.stxV2) (ha : attemptMarker s closed 0 = a) (hne : a ≠ .failed) :
    scan closed (g ++ s) = ⟨s, a⟩ := by
  induction g with
  | nil =>
    subst ha
    exact scan_stops hne
  | cons b g ih =>
    obtain ⟨⟨h1, h2⟩, hg⟩ := List.forall_mem_cons.1 hg
    rw [List.cons_append, scan_failed (attempt_other b _ closed h1 h2), ih hg]

/-- What a scan stops at is the attempt on the bytes it leaves. -/
theorem attempt_of_scan {closed : Bool} {s w : Bytes} {a : Attempt} (h : scan closed s = ⟨w, a⟩) :
    attemptMarker w closed 0 = a := by
  obtain ⟨-, -, ha⟩ := scan_spec closed s
  rw [h] at ha
  exact ha.symm

/-- On a closed stream a scan ends, or finds a window, as `Scan` does. -/
theorem scan_closed_cases (s : Bytes) :
    (scanOf s = none ∧ scan true s = ⟨[], .ended⟩) ∨
      ∃ w v n, scanOf s = some (w, n) ∧ scan true s = ⟨w, .found v n⟩ := by
  have hs := scan_closed s
  cases ho : scanOf s with
  | none =>
    rw [ho] at hs
    exact .inl ⟨rfl, hs⟩
  | some x =>
    rw [ho] at hs
    obtain ⟨v, hv⟩ := hs
    exact .inr ⟨_, v, _, rfl, hv⟩

/-- A window found on a closed stream is the one of `Scan`. -/
theorem scanOf_of_scan_found {s w : Bytes} {v : Ver} {n : Nat} (h : scan true s = ⟨w, .found v n⟩) :
    scanOf s = some (w, n) := by
  rcases scan_closed_cases s with ⟨-, hs⟩ | ⟨w', v', n', ho, hs⟩ <;> rw [h] at hs <;> cases hs
  exact ho

/-- A scan on an open stream finds a window or is held. -/
theorem scan_open_cases (s : Bytes) :
    (∃ w v n, scan false s = ⟨w, .found v n⟩) ∨ ∃ w p t, scan false s = ⟨w, .hold p t⟩ := by
  obtain ⟨-, hstop, -⟩ := scan_spec false s
  cases h : scan false s with
  | mk w a =>
  cases a with
  | failed => rw [h] at hstop; exact absurd rfl hstop
  | ended =>
    obtain ⟨-, hclosed⟩ := (attempt_ended_iff w false).1 (attempt_of_scan h)
    cases hclosed
  | found v n => exact .inl ⟨w, v, n, rfl⟩
  | hold p t => exact .inr ⟨w, p, t, rfl⟩

/-- A window found on an open stream is found whatever comes behind it. -/
theorem scan_append_of_found {s w : Bytes} {v : Ver} {n : Nat} (h : scan false s = ⟨w, .found v n⟩) (u : Bytes)
    (closed : Bool) : scan closed (s ++ u) = ⟨w ++ u, .found v n⟩ := by
  rw [scan_found_append s u closed (v := v) (n := n) (by rw [h]), h]

/-- A scan held on an open stream goes on from its phase with what comes. -/
theorem scan_append_of_hold {s w : Bytes} {p : Phase} {t : Nat} (h : scan false s = ⟨w, .hold p t⟩) (u : Bytes)
    (closed : Bool) : scan closed (s ++ u) = scanFrom (w ++ u) closed t p := by
  rw [scan_restart s u closed (p := p) (t := t) (by rw [h]), h]

/-! ### `SYNC.NEXT` (R197) -/

theorem RxHalf.sameDescriptor_refl (r : RxHalf) : r.sameDescriptor r :=
  ⟨rfl, rfl, rfl, rfl, rfl, rfl, rfl, rfl, rfl, rfl, rfl, rfl⟩

/-- Where a scan stops does not depend on the cursors and the hold it began with. -/
theorem RxHalf.finishScan_eq_of_rest (r : RxHalf) (s : Bytes) (t : Nat) (p : Option Held) {x : ScanResult}
    (h : x.stop ≠ .failed) : { r with stream := s, tent := t, held := p }.finishScan x = r.finishScan x := by
  obtain ⟨w, a⟩ := x
  cases a with
  | failed => exact absurd rfl h
  | ended | found _ _ | hold _ _ => rfl

/-- `SYNC.NEXT` clears the flags and scans the bytes behind the window last returned. -/
theorem RxHalf.syncNext_eq (e : Nat) (r : RxHalf) :
    r.syncNext e = r.clearFrame.finishScan (scan r.closed (r.stream.drop r.tent)) := by
  obtain ⟨-, hstop, -⟩ := scan_spec r.closed (r.stream.drop r.tent)
  calc r.syncNext e
      = { r.clearFrame with stream := r.stream.drop r.tent, tent := 0, held := some (.scan .marker) }.finishScan
          (scanFrom (r.stream.drop r.tent) r.closed 0 .marker) := rfl
    _ = _ := by rw [scanFrom_marker, RxHalf.finishScan_eq_of_rest _ _ _ _ hstop]

/-- The window of `r'` is `w`, the first `n` bytes of its stream `s`; it is the current frame `f`, and the answer is its
length. -/
def RxHalf.returnsWindow (e : Nat) (r r' : RxHalf) (s w : Bytes) (n : Nat) (f : Frame) : Prop :=
  r'.responses = r.responses ++ [⟨.ok, BitVec.ofNat 48 n⟩] ∧ r'.stream = s ∧ r'.tent = n ∧ r'.held = none ∧
    r'.rxlen.toNat = n ∧ r'.mem.memRead e .rx .buf 0 n = w ∧ r'.holdsFrame e f ∧ r'.eos = r.eos

theorem RxHalf.capture_of_decodeFrame (r : RxHalf) {v : Ver} {w : Bytes} {f : Frame} (h : decodeFrame v w = some f) :
    r.capture v w = { r with mem := r.mem.memWrite .buf 0 w, rxlen := BitVec.ofNat 9 w.length }.storeFrame f := by
  simp only [RxHalf.capture, h]

/-- A scan that stops at a window captures it, decoded, and answers its length. -/
theorem RxHalf.finishScan_returnsWindow (e : Nat) (r : RxHalf) {s : Bytes} {closed : Bool} {v : Ver} {n : Nat}
    (h : attemptMarker s closed 0 = .found v n) :
    ∃ f, decodeFrame v (s.take n) = some f ∧ r.returnsWindow e (r.finishScan ⟨s, .found v n⟩) s (s.take n) n f := by
  obtain ⟨hn, hmax, -, -, f, hf, -⟩ := attempt_found h
  have hlen : (s.take n).length = n := by rw [List.length_take, Nat.min_eq_left hn]
  obtain ⟨hok, -⟩ := decodeFrame_ok hf
  have hfinish : r.finishScan ⟨s, .found v n⟩ = ({ r with
      stream := s, tent := n, held := none, mem := r.mem.memWrite .buf 0 (s.take n)
      rxlen := BitVec.ofNat 9 (s.take n).length }.storeFrame f).answer ⟨.ok, BitVec.ofNat 48 n⟩ :=
    congrArg (RxHalf.answer · _) (RxHalf.capture_of_decodeFrame _ hf)
  rw [hfinish]
  refine ⟨f, hf, rfl, rfl, rfl, rfl, ?rxlen, ?buf, RxHalf.storeFrame_holdsFrame e _ hok, rfl⟩
  case rxlen =>
    rw [RxHalf.answer_rxlen, RxHalf.storeFrame_rxlen, hlen, BitVec.toNat_ofNat, Nat.mod_eq_of_lt (by omega)]
  case buf =>
    have hread := Spaces.memRead_memWrite e .rx r.mem .buf 0 (s.take n)
    rw [hlen] at hread
    exact (Spaces.memRead_memWrite_other e .rx _ .pay .buf 0 0 n _ (by decide)).trans hread

/-- `SYNC.NEXT` where its scan finds a window. -/
theorem exists_toRx_syncNext_of_found {s : State} (hc : s.chan = .rx) {w : Bytes} {v : Ver} {n : Nat}
    (h : scan s.rx.closed (s.rx.stream.drop s.rx.tent) = ⟨w, .found v n⟩) :
    ∃ r f, ToRx .syncNext s r ∧ decodeFrame (if byteAt w 0 = 0xFE then .v1 else .v2) (w.take n) = some f ∧
      s.rx.returnsWindow s.epoch r w (w.take n) n f := by
  have ha := attempt_of_scan h
  obtain ⟨f, hf, hr⟩ := s.rx.clearFrame.finishScan_returnsWindow s.epoch ha
  refine ⟨_, f, toRx_of_rxEffect hc (s.rx.syncNext_eq s.epoch), attempt_found_ver ha ▸ hf, ?_⟩
  rw [h]
  exact hr

/-- `SYNC.NEXT` where its scan ends. -/
theorem toRx_syncNext_of_ended {s : State} (hc : s.chan = .rx)
    (h : scan s.rx.closed (s.rx.stream.drop s.rx.tent) = ⟨[], .ended⟩) :
    ToRx .syncNext s ({ s.rx.clearFrame with stream := [], tent := 0, held := none, eos := true }.says .eos 0) :=
  toRx_of_rxEffect hc ((s.rx.syncNext_eq s.epoch).trans (by rw [h]; rfl))

/-- `SYNC.NEXT` where its scan is held. -/
theorem toRx_syncNext_of_hold {s : State} (hc : s.chan = .rx) {w : Bytes} {p : Phase} {t : Nat}
    (h : scan s.rx.closed (s.rx.stream.drop s.rx.tent) = ⟨w, .hold p t⟩) :
    ToRx .syncNext s { s.rx.clearFrame with stream := w, tent := t, held := some (.scan p) } :=
  toRx_of_rxEffect hc ((s.rx.syncNext_eq s.epoch).trans (by rw [h]; rfl))

/-- Settles O48: on a closed stream the scan stops where `Scan` does. -/
theorem syncNextIsScanOnAClosedStream : Obligations.SyncNextIsScanOnAClosedStream := by
  intro s hc hclosed
  rcases scan_closed_cases (s.rx.stream.drop s.rx.tent) with ⟨ho, hs⟩ | ⟨w, v, n, ho, hs⟩
  · rw [ho]
    exact ⟨_, toRx_syncNext_of_ended hc (hclosed ▸ hs), rfl, rfl, ⟨rfl, rfl, rfl, rfl⟩, rfl, rfl, rfl, rfl,
      s.rx.sameDescriptor_refl, s.rx.mem.same_refl⟩
  · rw [ho]
    exact exists_toRx_syncNext_of_found hc (hclosed ▸ hs)

/-- Settles O49: the bytes before the window are dropped, and the attempt at its marker finds it whatever follows. -/
theorem syncNextReturnsTheFirstWindow : Obligations.SyncNextReturnsTheFirstWindow := by
  intro s g w rest n hc hs hg hl hn
  obtain ⟨v, hw⟩ := (attempt_found_iff_frameLenOf w s.rx.closed n).2 ⟨hl, hn.ge⟩
  have ha := attempt_found_append hw rest s.rx.closed
  have hscan : scan s.rx.closed (s.rx.stream.drop s.rx.tent) = ⟨w ++ rest, .found v n⟩ := by
    rw [hs, List.append_assoc, scan_behind_no_marker hg ha (by simp)]
  obtain ⟨r, f, hto, hf, hr⟩ := exists_toRx_syncNext_of_found hc hscan
  have hver : (if byteAt (w ++ rest) 0 = 0xFE then Ver.v1 else .v2) = if byteAt w 0 = 0xFE then .v1 else .v2 :=
    (attempt_found_ver ha).symm.trans (attempt_found_ver hw)
  rw [List.take_left' hn] at hf hr
  exact ⟨r, f, hto, hver ▸ hf, hr⟩

/-- Settles O50: a command that is not held on an open stream found its window, and more bytes leave it where it is. -/
theorem openWindowStandsForEveryContinuation : Obligations.OpenWindowStandsForEveryContinuation := by
  intro s t u hc hopen _ he hfree
  rcases scan_open_cases (s.rx.stream.drop s.rx.tent) with ⟨w, v, n, hs⟩ | ⟨w, p, c, hs⟩
  · obtain ⟨r, f, hto, -, hresp, hstream, -⟩ := exists_toRx_syncNext_of_found hc (hopen ▸ hs)
    cases hto.symm.trans he
    exact ⟨n, hresp, by rw [scanOf_of_scan_found (scan_append_of_found hs u true), hstream]⟩
  · cases (toRx_syncNext_of_hold hc (hopen ▸ hs)).symm.trans he
    cases hfree

/-! ### What `SYNC.NEXT` leaves as it was -/

/-- What no `SYNC.NEXT` changes: the key, the accumulator, the queue, `closed`, and the bytes of `R.RXBUF` beyond the window. -/
def RxHalf.sameBeyondWindow (r r' : RxHalf) : Prop :=
  r'.mem.key = r.mem.key ∧ r'.crcacc = r.crcacc ∧ r'.queue = r.queue ∧ r'.closed = r.closed ∧
    ∀ k, r'.tent ≤ k → r'.mem.buf.get? k = r.mem.buf.get? k

theorem RxHalf.capture_sameBeyondWindow (r : RxHalf) (v : Ver) {w : Bytes} (h : w.length ≤ r.tent) :
    r.sameBeyondWindow (r.capture v w) := by
  have hbuf : ∀ k, r.tent ≤ k → (r.mem.buf.write 0 w).get? k = r.mem.buf.get? k := fun k hk => by
    rw [Memory.get?_write, if_neg (by omega)]
  unfold RxHalf.capture
  cases decodeFrame v w <;> exact ⟨rfl, rfl, rfl, rfl, hbuf⟩

theorem RxHalf.finishScan_sameBeyondWindow (r : RxHalf) (x : ScanResult) : r.sameBeyondWindow (r.finishScan x) := by
  obtain ⟨w, a⟩ := x
  cases a with
  | found v n =>
    exact RxHalf.capture_sameBeyondWindow { r with stream := w, tent := n, held := none } v (List.length_take_le n w)
  | ended | failed | hold _ _ => exact ⟨rfl, rfl, rfl, rfl, fun _ _ => rfl⟩

theorem RxHalf.syncNext_sameBeyondWindow (e : Nat) (r : RxHalf) : r.sameBeyondWindow (r.syncNext e) := by
  rw [RxHalf.syncNext_eq]
  exact r.clearFrame.finishScan_sameBeyondWindow _

/-! ### The source's moves (R190, R200) -/

/-- The source has moved: the bytes `u` have come, the stream is closed or not, and a held command goes on. -/
def RxHalf.arrive (r : RxHalf) (u : Bytes) (closed : Bool) : RxHalf := { r with stream := r.stream ++ u, closed := closed }.resume

theorem RxHalf.deliver_eq_arrive {r : RxHalf} (h : r.closed = false) (b : Byte) : r.deliver b = r.arrive [b] false := by
  rw [RxHalf.deliver_of_open h, RxHalf.arrive, ← h]

theorem RxHalf.close_eq_arrive (r : RxHalf) : r.close = r.arrive [] true := by
  rw [RxHalf.arrive, List.append_nil, RxHalf.close]

theorem RxHalf.arrive_of_not_held {r : RxHalf} (h : r.held = none) (u : Bytes) (closed : Bool) :
    r.arrive u closed = { r with stream := r.stream ++ u, closed := closed } :=
  RxHalf.resume_of_not_held (r := { r with stream := r.stream ++ u, closed := closed }) h

/-- What comes behind a window does not touch what was captured. -/
theorem RxHalf.finishScan_found_append (r : RxHalf) {w : Bytes} (v : Ver) {n : Nat} (h : n ≤ w.length) (u : Bytes)
    (closed : Bool) : { r with closed := closed }.finishScan ⟨w ++ u, .found v n⟩ =
      { r.finishScan ⟨w, .found v n⟩ with stream := w ++ u, closed := closed } := by
  simp only [RxHalf.finishScan, List.take_append_of_le_length h, RxHalf.capture]
  cases decodeFrame v (w.take n) <;> rfl

/-- A move of the source before a `SYNC.NEXT` and one after it, held or complete, leave the same half. -/
theorem RxHalf.arrive_syncNext (e : Nat) {r : RxHalf} (hopen : r.closed = false) (hheld : r.held = none) {u : Bytes}
    (hdrop : (r.stream ++ u).drop r.tent = r.stream.drop r.tent ++ u) (closed : Bool) :
    (r.syncNext e).arrive u closed = (r.arrive u closed).syncNext e := by
  have hafter : (r.arrive u closed).syncNext e =
      { r.clearFrame with closed := closed }.finishScan (scan closed (r.stream.drop r.tent ++ u)) := by
    obtain ⟨-, hstop, -⟩ := scan_spec closed (r.stream.drop r.tent ++ u)
    rw [RxHalf.arrive_of_not_held hheld, RxHalf.syncNext_eq, hdrop]
    exact RxHalf.finishScan_eq_of_rest { r.clearFrame with closed := closed } (r.stream ++ u) r.tent r.held hstop
  rw [hafter, RxHalf.syncNext_eq, hopen]
  rcases scan_open_cases (r.stream.drop r.tent) with ⟨w, v, n, hs⟩ | ⟨w, p, t, hs⟩
  · obtain ⟨hn, -⟩ := attempt_found (attempt_of_scan hs)
    obtain ⟨f, -, -, hstream, -, hfree, -⟩ := r.clearFrame.finishScan_returnsWindow e (attempt_of_scan hs)
    rw [scan_append_of_found hs, hs, RxHalf.finishScan_found_append _ v hn,
      RxHalf.arrive_of_not_held hfree, hstream]
  · obtain ⟨-, hstop, -⟩ := scan_spec closed (r.stream.drop r.tent ++ u)
    rw [scan_append_of_hold hs] at hstop ⊢
    rw [hs]
    exact RxHalf.finishScan_eq_of_rest { r.clearFrame with closed := closed } (w ++ u) t (some (.scan p)) hstop

/-- A delivery before a `SYNC.NEXT` and one after it leave the same half. -/
theorem RxHalf.deliver_syncNext (e : Nat) {r : RxHalf} (hheld : r.held = none) (ht : r.tent ≤ r.stream.length) (b : Byte) :
    (r.syncNext e).deliver b = (r.deliver b).syncNext e := by
  obtain ⟨-, -, -, hclosed, -⟩ := r.syncNext_sameBeyondWindow e
  cases hc : r.closed with
  | true => rw [RxHalf.deliver_of_closed hc, RxHalf.deliver_of_closed (hclosed.trans hc)]
  | false =>
    rw [RxHalf.deliver_eq_arrive hc, RxHalf.deliver_eq_arrive (hclosed.trans hc),
      RxHalf.arrive_syncNext e hc hheld (List.drop_append_of_le_length ht)]

/-- With no command held a delivery keeps the cursor inside the stream. -/
theorem RxHalf.deliver_tent_le {r : RxHalf} (hheld : r.held = none) (ht : r.tent ≤ r.stream.length) (b : Byte) :
    (r.deliver b).held = none ∧ (r.deliver b).tent ≤ (r.deliver b).stream.length := by
  cases hc : r.closed with
  | true => rw [RxHalf.deliver_of_closed hc]; exact ⟨hheld, ht⟩
  | false =>
    rw [RxHalf.deliver_of_not_held hc hheld]
    exact ⟨hheld, ht.trans (by simp)⟩

theorem RxHalf.deliverAll_syncNext (e : Nat) {r : RxHalf} (hheld : r.held = none) (ht : r.tent ≤ r.stream.length) (u : Bytes) :
    (r.syncNext e).deliverAll u = (r.deliverAll u).syncNext e := by
  induction u generalizing r with
  | nil => rfl
  | cons b u ih =>
    obtain ⟨hheld', ht'⟩ := RxHalf.deliver_tent_le hheld ht b
    calc (r.syncNext e).deliverAll (b :: u) = ((r.syncNext e).deliver b).deliverAll u := rfl
      _ = ((r.deliver b).syncNext e).deliverAll u := by rw [RxHalf.deliver_syncNext e hheld ht]
      _ = ((r.deliver b).deliverAll u).syncNext e := ih hheld' ht'

/-- Settles O51: each byte can be moved from behind the command to before it. -/
theorem scanDoesNotDependOnWhenBytesArrive : Obligations.ScanDoesNotDependOnWhenBytesArrive := by
  intro s u hc hheld ht
  refine ⟨_, exec_rx .syncNext hc, ?_⟩
  rw [exec_rx .syncNext (s := { s with rx := s.rx.deliverAll u }) hc]
  exact congrArg (fun r => Host.Outcome.next { s with rx := r }) (RxHalf.deliverAll_syncNext s.epoch hheld ht u).symm

/-- Settles O53: the attempt behind the garbage is held, and `Close` is a move of the source like any other. -/
theorem closeCompletesAHeldScan : Obligations.CloseCompletesAHeldScan := by
  intro s g w hc hopen hheld hs hg hmarker hshort
  obtain ⟨p, t, ha⟩ := attempt_holds hmarker hshort
  have hscan : scan s.rx.closed (s.rx.stream.drop s.rx.tent) = ⟨w, .hold p t⟩ := by
    rw [hopen, hs, scan_behind_no_marker hg ha (by simp)]
  have hto := toRx_syncNext_of_hold hc hscan
  refine ⟨_, hto, by simp, rfl, ⟨rfl, rfl, rfl, rfl⟩, rfl, attempt_hold_cursor ha, hopen, rfl,
    s.rx.sameDescriptor_refl, rfl, rfl, rfl, ?_⟩
  have hr := Host.Outcome.next.inj ((exec_rx .syncNext hc).symm.trans hto)
  have hclose : (s.rx.syncNext s.epoch).close = s.rx.close.syncNext s.epoch := by
    rw [RxHalf.close_eq_arrive, RxHalf.close_eq_arrive, RxHalf.arrive_syncNext s.epoch hopen hheld (by simp)]
  rw [← hr, exec_rx .syncNext (s := { s with rx := s.rx.close }) hc]
  exact congrArg (fun r => Host.Outcome.next { s with rx := r }) hclose.symm

/-! ### `SYNC.DROP` and `SYNC.CONNECT` (R196, R198, R203) -/

theorem RxHalf.finishDrop_of_byte {r : RxHalf} {b : Byte} {rest : Bytes} (h : r.stream = b :: rest) :
    r.finishDrop = { r with stream := rest, tent := 0, held := none }.says .ok 0 := by
  simp [RxHalf.finishDrop, bufRead, h, RxHalf.bufCommit, RxHalf.answer, RxHalf.says]

theorem RxHalf.finishDrop_of_closed {r : RxHalf} (h : r.stream = []) (hc : r.closed = true) :
    r.finishDrop = { r with tent := 0, held := none }.says .ok 0 := by
  simp [RxHalf.finishDrop, bufRead, h, hc, RxHalf.bufCommit, RxHalf.answer, RxHalf.says]

theorem RxHalf.finishDrop_of_open {r : RxHalf} (h : r.stream = []) (hc : r.closed = false) :
    r.finishDrop = { r with tent := 0, held := some .drop } := by
  simp [RxHalf.finishDrop, bufRead, h, hc]

/-- All that `SYNC.DROP` can write besides the flags: the stream, its cursor, the hold and a response. -/
theorem RxHalf.syncDrop_cases (e : Nat) (r : RxHalf) :
    ∃ s t p rs, r.syncDrop e = { r.clearFrame with stream := s, tent := t, held := p, responses := rs } := by
  have hfinish : r.syncDrop e = { r.clearFrame with tent := 0, held := some .drop }.finishDrop := rfl
  rw [hfinish, RxHalf.finishDrop]
  split <;> exact ⟨_, _, _, _, rfl⟩

/-- Settles O54: there is a byte, or none will come, or none has come yet. -/
theorem syncDropConsumesOneByte : Obligations.SyncDropConsumesOneByte := by
  intro s hc r
  have hfinish : s.rx.syncDrop s.epoch = { r with held := some .drop }.finishDrop := rfl
  exact ⟨fun b rest h => toRx_of_rxEffect hc (hfinish.trans (RxHalf.finishDrop_of_byte h)),
    fun h hclosed => toRx_of_rxEffect hc (hfinish.trans (RxHalf.finishDrop_of_closed h hclosed)),
    fun h hopen => toRx_of_rxEffect hc (hfinish.trans (RxHalf.finishDrop_of_open h hopen))⟩

/-- Settles O55: the effect of `SYNC.CONNECT` is one update of the half and one response. -/
theorem syncConnectReopensTheStream : Obligations.SyncConnectReopensTheStream := fun _ hc => toRx_of_rxEffect hc rfl

/-- Settles O57: `SYNC.DROP` leaves the bytes behind the first, and `SYNC.NEXT` scans them from the first on. -/
theorem rejectedWindowIsRescannedFromItsSecondByte : Obligations.RejectedWindowIsRescannedFromItsSecondByte := by
  intro s b rest hc hs hclosed
  obtain ⟨hdrop, -, -⟩ := syncDropConsumesOneByte s hc
  obtain ⟨t, ht, htc, htclosed, hstream, htent⟩ : ∃ t, exec .syncDrop s = .next t ∧ t.chan = .rx ∧ t.rx.closed = true ∧
      t.rx.stream = rest ∧ t.rx.tent = 0 := ⟨_, hdrop b rest hs, hc, hclosed, rfl, rfl⟩
  have hnext := syncNextIsScanOnAClosedStream t htc htclosed
  rw [hstream, htent, List.drop_zero] at hnext
  refine ⟨t, ht, ?_⟩
  cases ho : scanOf rest with
  | none =>
    rw [ho] at hnext
    obtain ⟨r, hto, hresp, heos, -⟩ := hnext
    exact ⟨r, hto, heos, hresp⟩
  | some x =>
    rw [ho] at hnext
    obtain ⟨r, f, hto, -, hresp, hw, hn, -⟩ := hnext
    exact ⟨r, hto, hw, hn, hresp⟩

/-! ### `EOS` (R202) -/

/-- A command going on can set `EOS` and does not clear it. -/
theorem RxHalf.resume_eos {r : RxHalf} (h : r.eos = true) : r.resume.eos = true := by
  unfold RxHalf.resume
  split
  · exact h
  · exact RxHalf.finishScan_eos h _
  · obtain ⟨-, -, -, heos, -⟩ := r.finishDrop_sameFlags
    exact heos.trans h

/-- No move of an agent outside but a reset lowers `EOS`. -/
theorem State.applyMove_eos {s : State} {m : Move} (hm : m ≠ .reset) (h : s.rx.eos = true) : (s.applyMove m).rx.eos = true := by
  cases m with
  | issue c w => cases c <;> exact h
  | deliver b =>
    show (s.rx.deliver b).eos = true
    cases hc : s.rx.closed with
    | true => rwa [RxHalf.deliver_of_closed hc]
    | false =>
      rw [RxHalf.deliver_of_open hc]
      exact RxHalf.resume_eos (r := { s.rx with stream := s.rx.stream ++ [b] }) h
  | close => exact RxHalf.resume_eos (r := { s.rx with closed := true }) h
  | reset => exact absurd rfl hm
  | sink _ | wait => exact h

/-- Settles O56: after `EOS` the stream is closed and empty, and the flag is only ever set by a scan. -/
theorem eosStaysUntilConnect : Obligations.EosStaysUntilConnect := by
  refine ⟨fun s hinv hc he => ?answers, fun i s t hex hi he => ?command, fun s m => State.applyMove_eos⟩
  case answers =>
    obtain ⟨hclosed, hs⟩ := hinv.rx.eos_closed he
    exact ⟨_, toRx_syncNext_of_ended hc (by rw [hs, hclosed, List.drop_nil]; rfl), rfl, rfl⟩
  case command =>
    rcases exec_cases hex with ⟨-, rfl⟩ | ⟨hc, rfl⟩
    · exact he
    · obtain ⟨-, -, -, -, -, -, hkeep, hnext, -⟩ := flagsChangeOnlyAsTheTableSays i s _ hex hc
      by_cases hn : i = .syncNext
      · exact hnext hn he
      · exact (hkeep hn hi).trans he

/-! ### What the scanner's commands leave as it was -/

/-- Settles O58: a scan writes no more than its window; `SYNC.DROP` and `SYNC.CONNECT` write the stream and the flags. -/
theorem scannerCommandsLeaveTheRest : Obligations.ScannerCommandsLeaveTheRest := by
  intro i s t hc hi he
  rw [exec_rx i hc] at he
  cases he
  have hsame := s.rx.mem.same_refl
  have hdesc := s.rx.sameDescriptor_refl
  rcases hi with rfl | rfl | rfl
  · obtain ⟨hkey, hcrc, hqueue, hclosed, hbuf⟩ := s.rx.syncNext_sameBeyondWindow s.epoch
    exact ⟨hkey, hcrc, hqueue, hbuf, fun h => absurd rfl h, fun _ => hclosed, rfl, rfl, rfl, rfl⟩
  · obtain ⟨u, t, p, rs, hd⟩ := s.rx.syncDrop_cases s.epoch
    rw [show rxEffect .syncDrop s.epoch s.rx = _ from hd]
    exact ⟨rfl, rfl, rfl, fun _ _ => rfl, fun _ => ⟨hsame, hdesc, rfl⟩, fun _ => rfl, rfl, rfl, rfl, rfl⟩
  · exact ⟨rfl, rfl, rfl, fun _ _ => rfl, fun _ => ⟨hsame, hdesc, rfl⟩, fun h => absurd rfl h, rfl, rfl, rfl, rfl⟩

end Sys2Proof.Machine

/-! PROOFS. The statements of 45_access_system.md: what `RDR`, `WRR`, `LDB` and `STB` answer and change, the bits of the status
words, and the bytes of `R.HASH`. -/

namespace Sys2Proof.Machine

/-! ### The register numbers (30_encoding.md R100) -/

@[simp] theorem TxReg.ofNumber_number (x : TxReg) : TxReg.ofNumber x.number = some x := by
  cases x <;> rfl

@[simp] theorem RxReg.ofNumber_number (x : RxReg) : RxReg.ofNumber x.number = some x := by
  cases x <;> rfl

/-- Two registers of a half have different numbers, so the table finds a register by its number alone. -/
theorem TxReg.ofNumber_eq_some_iff {n : BitVec 8} {x : TxReg} : TxReg.ofNumber n = some x ↔ x.number = n := by
  constructor
  · intro h
    exact eq_of_beq (List.find?_some (p := fun y : TxReg => y.number == n) h)
  · rintro rfl
    exact x.ofNumber_number

/-- Two registers of a half have different numbers, so the table finds a register by its number alone. -/
theorem RxReg.ofNumber_eq_some_iff {n : BitVec 8} {x : RxReg} : RxReg.ofNumber n = some x ↔ x.number = n := by
  constructor
  · intro h
    exact eq_of_beq (List.find?_some (p := fun y : RxReg => y.number == n) h)
  · rintro rfl
    exact x.ofNumber_number

theorem TxReg.number_le (x : TxReg) : x.number.toNat ≤ 0x0B := by
  cases x <;> decide

theorem RxReg.number_range (x : RxReg) :
    x.number.toNat = 0x00 ∨ x.number.toNat = 0x02 ∨ (0x10 ≤ x.number.toNat ∧ x.number.toNat ≤ 0x1D) := by
  cases x <;> decide

theorem TxReg.ofNumber_eq_none {n : BitVec 8} (h : 0x0B < n.toNat) : TxReg.ofNumber n = none := by
  rw [Option.eq_none_iff_forall_ne_some]
  intro x hx
  obtain rfl := TxReg.ofNumber_eq_some_iff.1 hx
  exact absurd x.number_le (Nat.not_le.2 h)

theorem RxReg.ofNumber_eq_none {n : BitVec 8} (h : n = 0x01 ∨ (0x03 ≤ n.toNat ∧ n.toNat ≤ 0x0F) ∨ 0x1D < n.toNat) :
    RxReg.ofNumber n = none := by
  rw [Option.eq_none_iff_forall_ne_some]
  intro x hx
  obtain rfl := RxReg.ofNumber_eq_some_iff.1 hx
  have hrange := x.number_range
  rcases h with h | h | h
  · rw [h] at hrange
    exact absurd hrange (by decide)
  · omega
  · omega

/-! ### `RDR` (45_access_system.md R220) -/

theorem toTx_rdr {s : State} (hc : s.chan = .tx) (x : TxReg) : ToTx (.rdr x.number) s (s.tx.says .ok (s.tx.readReg x)) :=
  toTx_of_txEffect hc (by rw [txEffect, TxHalf.rdr, x.ofNumber_number]; rfl)

theorem toTx_rdr_of_no_register {s : State} (hc : s.chan = .tx) {n : BitVec 8} (h : TxReg.ofNumber n = none) :
    ToTx (.rdr n) s (s.tx.says .badarg 0) :=
  toTx_of_txEffect hc (by rw [txEffect, TxHalf.rdr, h]; rfl)

theorem toRx_rdr {s : State} (hc : s.chan = .rx) (x : RxReg) : ToRx (.rdr x.number) s (s.rx.says .ok (s.rx.readReg x)) :=
  toRx_of_rxEffect hc (by rw [rxEffect, RxHalf.rdr, x.ofNumber_number]; rfl)

theorem toRx_rdr_of_no_register {s : State} (hc : s.chan = .rx) {n : BitVec 8} (h : RxReg.ofNumber n = none) :
    ToRx (.rdr n) s (s.rx.says .badarg 0) :=
  toRx_of_rxEffect hc (by rw [rxEffect, RxHalf.rdr, h]; rfl)

/-- A register with its number and what it reads as, as R100 and R220 list them. -/
def TxHalf.readings (t : TxHalf) : List (BitVec 8 × BitVec 48) := TxReg.all.map fun x => (x.number, t.readReg x)

/-- A register with its number and what it reads as, as R100 and R220 list them. -/
def RxHalf.readings (r : RxHalf) : List (BitVec 8 × BitVec 48) := RxReg.all.map fun x => (x.number, r.readReg x)

theorem toTx_rdr_of_mem_readings {s : State} (hc : s.chan = .tx) {n : BitVec 8} {d : BitVec 48}
    (h : (n, d) ∈ s.tx.readings) : ToTx (.rdr n) s (s.tx.says .ok d) := by
  obtain ⟨x, -, hx⟩ := List.mem_map.1 h
  cases hx
  exact toTx_rdr hc x

theorem toRx_rdr_of_mem_readings {s : State} (hc : s.chan = .rx) {n : BitVec 8} {d : BitVec 48}
    (h : (n, d) ∈ s.rx.readings) : ToRx (.rdr n) s (s.rx.says .ok d) := by
  obtain ⟨x, -, hx⟩ := List.mem_map.1 h
  cases hx
  exact toRx_rdr hc x

/-- Settles O16: the statement's tables are the readings of the two halves, and every other number finds no register. -/
theorem rdrReadsEveryRegister : Obligations.RdrReadsEveryRegister := fun _ =>
  ⟨fun hc => ⟨fun _ _ h => toTx_rdr_of_mem_readings hc h, fun _ h => toTx_rdr_of_no_register hc (TxReg.ofNumber_eq_none h)⟩,
    fun hc => ⟨fun _ _ h => toRx_rdr_of_mem_readings hc h,
      fun _ h => toRx_rdr_of_no_register hc (RxReg.ofNumber_eq_none h)⟩⟩

/-! ### `WRR` (R222) -/

theorem TxReg.target_eq_some_iff {n : BitVec 8} {v : BitVec 48} {x : TxReg} :
    TxReg.target n v = some x ↔ x.number = n ∧ x.writable = true ∧ v.toNat < 2 ^ x.width := by
  rw [← TxReg.ofNumber_eq_some_iff, TxReg.target]
  cases TxReg.ofNumber n with
  | none => simp
  | some y =>
    by_cases hy : y = x
    · subst hy; simp
    · simp [hy]

theorem RxReg.target_eq_some_iff {n : BitVec 8} {v : BitVec 48} {x : RxReg} :
    RxReg.target n v = some x ↔
      x.number = n ∧ ((x = .crcacc ∧ v.toNat < 2 ^ 16) ∨ (x = .rxlen ∧ v.toNat ≤ 280)) := by
  constructor
  · intro h
    refine ⟨?_, RxReg.target_some h⟩
    rw [← RxReg.ofNumber_eq_some_iff]
    unfold RxReg.target at h
    cases ho : RxReg.ofNumber n with
    | none => rw [ho] at h; cases h
    | some y =>
      rw [ho] at h
      exact (Option.ite_none_right_eq_some.1 h).2
  · rintro ⟨rfl, ⟨rfl, hv⟩ | ⟨rfl, hv⟩⟩
    · have hfits : v.toNat < 2 ^ RxReg.crcacc.width := hv
      rw [RxReg.target, RxReg.ofNumber_number]
      exact if_pos (by rw [decide_eq_true hfits]; rfl)
    · have hfits : v.toNat < 2 ^ RxReg.rxlen.width := hv.trans_lt (by decide)
      have hmax : ¬ Config.maxFrame < v.toNat := Nat.not_lt.2 hv
      rw [RxReg.target, RxReg.ofNumber_number]
      exact if_pos (by rw [decide_eq_true hfits, decide_eq_false hmax]; rfl)

theorem toTx_wrr {s : State} (hc : s.chan = .tx) {v : BitVec 48} {x : TxReg} (hw : x.writable = true)
    (hv : v.toNat < 2 ^ x.width) : ToTx (.wrr x.number v) s ((s.tx.writeReg x v).says .ok 0) :=
  toTx_of_txEffect hc (by rw [txEffect, TxHalf.wrr, TxReg.target_eq_some_iff.2 ⟨rfl, hw, hv⟩]; rfl)

theorem toRx_wrr {s : State} (hc : s.chan = .rx) {v : BitVec 48} {x : RxReg}
    (h : (x = .crcacc ∧ v.toNat < 2 ^ 16) ∨ (x = .rxlen ∧ v.toNat ≤ 280)) :
    ToRx (.wrr x.number v) s ((s.rx.writeReg x v).says .ok 0) :=
  toRx_of_rxEffect hc (by rw [rxEffect, RxHalf.wrr, RxReg.target_eq_some_iff.2 ⟨rfl, h⟩]; rfl)

theorem toTx_wrr_of_no_target {s : State} (hc : s.chan = .tx) {n : BitVec 8} {v : BitVec 48}
    (h : TxReg.target n v = none) : ToTx (.wrr n v) s (s.tx.says .badarg 0) :=
  toTx_of_txEffect hc (by rw [txEffect, TxHalf.wrr, h]; rfl)

theorem toRx_wrr_of_no_target {s : State} (hc : s.chan = .rx) {n : BitVec 8} {v : BitVec 48}
    (h : RxReg.target n v = none) : ToRx (.wrr n v) s (s.rx.says .badarg 0) :=
  toRx_of_rxEffect hc (by rw [rxEffect, RxHalf.wrr, h]; rfl)

theorem TxReg.target_eq_none {n : BitVec 8} {v : BitVec 48}
    (h : n = 0x00 ∨ 0x0B ≤ n.toNat ∨ (n = 0x01 ∧ 2 ≤ v.toNat) ∨ (n = 0x02 ∧ 2 ^ 16 ≤ v.toNat) ∨
      (n ∈ [(0x03 : BitVec 8), 0x04, 0x05, 0x07, 0x08, 0x09] ∧ 2 ^ 8 ≤ v.toNat) ∨ (n = 0x06 ∧ 2 ^ 24 ≤ v.toNat)) :
    TxReg.target n v = none := by
  rw [Option.eq_none_iff_forall_ne_some]
  intro x hx
  obtain ⟨rfl, hw, hv⟩ := TxReg.target_eq_some_iff.1 hx
  cases x with
  | status | txlen => cases hw
  | cfg | crcacc | seq | sys | comp | msgid | seed | plen | linkid | ts =>
    simp [TxReg.number, TxReg.width] at h hv <;> omega

theorem RxReg.target_eq_none {n : BitVec 8} {v : BitVec 48}
    (h : (n ≠ 0x02 ∧ n ≠ 0x1C) ∨ (n = 0x02 ∧ 2 ^ 16 ≤ v.toNat) ∨ (n = 0x1C ∧ 280 < v.toNat)) :
    RxReg.target n v = none := by
  rw [Option.eq_none_iff_forall_ne_some]
  intro x hx
  obtain ⟨rfl, ⟨rfl, hv⟩ | ⟨rfl, hv⟩⟩ := RxReg.target_eq_some_iff.1 hx <;> simp [RxReg.number] at h <;> omega

/-- Settles O18: the value is written where the register is writable and the value fits, and nothing is where there is no
such register. -/
theorem wrrWritesARegisterOrIsRefused : Obligations.WrrWritesARegisterOrIsRefused := by
  refine fun s v => ⟨fun hc => ⟨fun hv => toTx_wrr hc (x := .cfg) rfl hv, fun hv => toTx_wrr hc (x := .crcacc) rfl hv,
    fun hv => ⟨toTx_wrr hc (x := .seq) rfl hv, toTx_wrr hc (x := .sys) rfl hv, toTx_wrr hc (x := .comp) rfl hv,
      toTx_wrr hc (x := .seed) rfl hv, toTx_wrr hc (x := .plen) rfl hv, toTx_wrr hc (x := .linkid) rfl hv⟩,
    fun hv => toTx_wrr hc (x := .msgid) rfl hv, toTx_wrr hc (x := .ts) rfl v.isLt,
    fun n h => toTx_wrr_of_no_target hc (TxReg.target_eq_none h)⟩, fun hc => ⟨fun hv => ?crcacc, fun hv => ?rxlen,
    fun n h => toRx_wrr_of_no_target hc (RxReg.target_eq_none h)⟩⟩
  case crcacc => exact toRx_wrr hc (x := .crcacc) (.inl ⟨rfl, hv⟩)
  case rxlen => exact toRx_wrr hc (x := .rxlen) (.inr ⟨rfl, hv⟩)

/-! ### `LDB` (R224) -/

/-- `LDB` of a byte that may be read answers a byte, and the one written there if one was. -/
theorem exists_toTx_ldb {s : State} (hc : s.chan = .tx) {a : BitVec 8} {i : BitVec 16} {sp : Space}
    (h : Space.source a i.toNat 1 = some sp) :
    ∃ b : Byte, ToTx (.ldb a i) s (s.tx.says .ok (b.setWidth 48)) ∧
      ∀ x, (s.tx.mem.get sp).get? i.toNat = some x → b = x :=
  ⟨s.tx.mem.readByte s.epoch .tx sp i.toNat, toTx_of_txEffect hc (by rw [txEffect, TxHalf.ldb, h]; rfl),
    fun _ => Spaces.readByte_of_get?⟩

/-- `LDB` of a byte that may be read answers a byte, and the one written there if one was. -/
theorem exists_toRx_ldb {s : State} (hc : s.chan = .rx) {a : BitVec 8} {i : BitVec 16} {sp : Space}
    (h : Space.source a i.toNat 1 = some sp) :
    ∃ b : Byte, ToRx (.ldb a i) s (s.rx.says .ok (b.setWidth 48)) ∧
      ∀ x, (s.rx.mem.get sp).get? i.toNat = some x → b = x :=
  ⟨s.rx.mem.readByte s.epoch .rx sp i.toNat, toRx_of_rxEffect hc (by rw [rxEffect, RxHalf.ldb, h]; rfl),
    fun _ => Spaces.readByte_of_get?⟩

theorem toTx_ldb_of_no_source {s : State} (hc : s.chan = .tx) {a : BitVec 8} {i : BitVec 16}
    (h : Space.source a i.toNat 1 = none) : ToTx (.ldb a i) s (s.tx.says .badarg 0) :=
  toTx_of_txEffect hc (by rw [txEffect, TxHalf.ldb, h]; rfl)

theorem toRx_ldb_of_no_source {s : State} (hc : s.chan = .rx) {a : BitVec 8} {i : BitVec 16}
    (h : Space.source a i.toNat 1 = none) : ToRx (.ldb a i) s (s.rx.says .badarg 0) :=
  toRx_of_rxEffect hc (by rw [rxEffect, RxHalf.ldb, h]; rfl)

/-- Settles O19: the command answers by whether its byte has a source. -/
theorem ldbAnswersTheByteOrIsRefused : Obligations.LdbAnswersTheByteOrIsRefused := by
  intro s a i
  have hpay : a = 0 ∧ i.toNat < 255 → Space.source a i.toNat 1 = some .pay := by
    rintro ⟨rfl, hi⟩
    exact Space.source_of_le rfl rfl hi
  have hbuf : a = 1 ∧ i.toNat < 280 → Space.source a i.toNat 1 = some .buf := by
    rintro ⟨rfl, hi⟩
    exact Space.source_of_le rfl rfl hi
  have hnone : 2 ≤ a.toNat ∨ (a = 0 ∧ 255 ≤ i.toNat) ∨ (a = 1 ∧ 280 ≤ i.toNat) → Space.source a i.toNat 1 = none :=
    fun h => Space.source_eq_none (h.imp_right (Or.imp (And.imp_right Nat.lt_succ_of_le) (And.imp_right Nat.lt_succ_of_le)))
  exact ⟨fun hc => ⟨fun h => exists_toTx_ldb hc (hpay h), fun h => exists_toTx_ldb hc (hbuf h),
      fun h => toTx_ldb_of_no_source hc (hnone h)⟩,
    fun hc => ⟨fun h => exists_toRx_ldb hc (hpay h), fun h => exists_toRx_ldb hc (hbuf h),
      fun h => toRx_ldb_of_no_source hc (hnone h)⟩⟩

/-! ### `STB` (R225) -/

theorem Space.target_of_lt {c : Channel} {a : BitVec 8} {i : Nat} {sp : Space} (ho : Space.ofNumber a = some sp)
    (hw : Space.writable c sp = true) (hi : i < sp.size) : Space.target c a i = some sp := by
  simp [Space.target, ho, hw, hi]

/-- The writable spaces of the TX half and their sizes (20_memory.md R61). -/
theorem Space.target_tx_cases {a : BitVec 8} {i : Nat} {sp : Space} (h : Space.target .tx a i = some sp) :
    (a = 0 ∧ i < 255) ∨ (a = 2 ∧ i < 32) := by
  obtain ⟨ho, hw, hi⟩ := Space.target_some h
  rcases Space.ofNumber_some ho with ⟨rfl, ha⟩ | ⟨rfl, -⟩ | ⟨rfl, ha⟩
  · exact .inl ⟨ha, hi⟩
  · cases hw
  · exact .inr ⟨ha, hi⟩

/-- The writable spaces of the RX half and their sizes (R61). -/
theorem Space.target_rx_cases {a : BitVec 8} {i : Nat} {sp : Space} (h : Space.target .rx a i = some sp) :
    (a = 1 ∧ i < 280) ∨ (a = 2 ∧ i < 32) := by
  obtain ⟨ho, hw, hi⟩ := Space.target_some h
  rcases Space.ofNumber_some ho with ⟨rfl, -⟩ | ⟨rfl, ha⟩ | ⟨rfl, ha⟩
  · cases hw
  · exact .inl ⟨ha, hi⟩
  · exact .inr ⟨ha, hi⟩

theorem Space.target_tx_eq_none {a : BitVec 8} {i : Nat}
    (h : a = 1 ∨ 3 ≤ a.toNat ∨ (a = 0 ∧ 255 ≤ i) ∨ (a = 2 ∧ 32 ≤ i)) : Space.target .tx a i = none := by
  rw [Option.eq_none_iff_forall_ne_some]
  intro sp hsp
  rcases Space.target_tx_cases hsp with ⟨rfl, hi⟩ | ⟨rfl, hi⟩ <;> simp at h <;> omega

theorem Space.target_rx_eq_none {a : BitVec 8} {i : Nat}
    (h : a = 0 ∨ 3 ≤ a.toNat ∨ (a = 1 ∧ 280 ≤ i) ∨ (a = 2 ∧ 32 ≤ i)) : Space.target .rx a i = none := by
  rw [Option.eq_none_iff_forall_ne_some]
  intro sp hsp
  rcases Space.target_rx_cases hsp with ⟨rfl, hi⟩ | ⟨rfl, hi⟩ <;> simp at h <;> omega

theorem Spaces.get?_memWrite_byte (m : Spaces) (sp : Space) (i : Nat) (b : Byte) :
    ((m.memWrite sp i [b]).get sp).get? i = some b := by
  simp [Spaces.get?_memWrite]

/-- `STB` to a byte that may be written stores it, and no other. -/
theorem exists_toTx_stb {s : State} (hc : s.chan = .tx) {a : BitVec 8} {i : BitVec 16} {sp : Space}
    (h : Space.target .tx a i.toNat = some sp) (b : Byte) :
    ∃ m, ToTx (.stb a i b) s ({ s.tx with mem := m }.says .ok 0) ∧ (m.get sp).get? i.toNat = some b ∧
      s.tx.mem.sameBut sp i.toNat (i.toNat + 1) m :=
  ⟨s.tx.mem.memWrite sp i.toNat [b], toTx_of_txEffect hc (by rw [txEffect, TxHalf.stb, h]; rfl),
    s.tx.mem.get?_memWrite_byte sp i.toNat b, s.tx.mem.sameBut_memWrite sp i.toNat [b]⟩

/-- `STB` to a byte that may be written stores it, and no other. -/
theorem exists_toRx_stb {s : State} (hc : s.chan = .rx) {a : BitVec 8} {i : BitVec 16} {sp : Space}
    (h : Space.target .rx a i.toNat = some sp) (b : Byte) :
    ∃ m, ToRx (.stb a i b) s ({ s.rx with mem := m }.says .ok 0) ∧ (m.get sp).get? i.toNat = some b ∧
      s.rx.mem.sameBut sp i.toNat (i.toNat + 1) m :=
  ⟨s.rx.mem.memWrite sp i.toNat [b], toRx_of_rxEffect hc (by rw [rxEffect, RxHalf.stb, h]; rfl),
    s.rx.mem.get?_memWrite_byte sp i.toNat b, s.rx.mem.sameBut_memWrite sp i.toNat [b]⟩

theorem toTx_stb_of_no_target {s : State} (hc : s.chan = .tx) {a : BitVec 8} {i : BitVec 16}
    (h : Space.target .tx a i.toNat = none) (b : Byte) : ToTx (.stb a i b) s (s.tx.says .badarg 0) :=
  toTx_of_txEffect hc (by rw [txEffect, TxHalf.stb, h]; rfl)

theorem toRx_stb_of_no_target {s : State} (hc : s.chan = .rx) {a : BitVec 8} {i : BitVec 16}
    (h : Space.target .rx a i.toNat = none) (b : Byte) : ToRx (.stb a i b) s (s.rx.says .badarg 0) :=
  toRx_of_rxEffect hc (by rw [rxEffect, RxHalf.stb, h]; rfl)

/-- Settles O20: the command stores by whether its byte has a target on the channel. -/
theorem stbStoresTheByteOrIsRefused : Obligations.StbStoresTheByteOrIsRefused := by
  refine fun s a i b => ⟨fun hc => ⟨fun sp h => exists_toTx_stb hc ?tx b,
      fun h => toTx_stb_of_no_target hc (Space.target_tx_eq_none h) b⟩,
    fun hc => ⟨fun sp h => exists_toRx_stb hc ?rx b, fun h => toRx_stb_of_no_target hc (Space.target_rx_eq_none h) b⟩⟩
  case tx => rcases h with ⟨rfl, rfl, hi⟩ | ⟨rfl, rfl, hi⟩ <;> exact Space.target_of_lt rfl rfl hi
  case rx => rcases h with ⟨rfl, rfl, hi⟩ | ⟨rfl, rfl, hi⟩ <;> exact Space.target_of_lt rfl rfl hi

/-! ### The bits of the status words (R221) -/

/-- A flag as a word has the flag in bit 0 and zeros above. -/
theorem flagBits_getElem {w k : Nat} (b : Bool) (h : k < w) : (flagBits w b)[k] = (decide (k = 0) && b) := by
  rw [← BitVec.getLsbD_eq_getElem, flagBits, BitVec.getLsbD_setWidth, BitVec.getLsbD_ofBool, decide_eq_true h, Bool.true_and]

/-- A register reads as zeros above its width. -/
theorem getLsbD_setWidth_of_width_le {w : Nat} (x : BitVec w) (n : Nat) {k : Nat} (h : w ≤ k) :
    (x.setWidth n).getLsbD k = false := by
  rw [BitVec.getLsbD_setWidth, BitVec.getLsbD_of_ge x k h, Bool.and_false]

theorem TxHalf.statusWord_bits (t : TxHalf) :
    (t.readReg .status).getLsbD 0 = t.txvalid ∧ ∀ k, 1 ≤ k → (t.readReg .status).getLsbD k = false :=
  ⟨by simp [TxHalf.readReg, TxHalf.statusWord, flagBits_getElem], fun _ => getLsbD_setWidth_of_width_le t.statusWord 48⟩

theorem TxHalf.cfgWord_bits (t : TxHalf) :
    (t.readReg .cfg).getLsbD 0 = t.truncEn ∧ ∀ k, 1 ≤ k → (t.readReg .cfg).getLsbD k = false :=
  ⟨by simp [TxHalf.readReg, TxHalf.cfgWord, flagBits_getElem], fun _ => getLsbD_setWidth_of_width_le t.cfgWord 48⟩

theorem RxHalf.statusWord_bits (r : RxHalf) :
    (r.readReg .status).getLsbD 0 = r.frame ∧ (r.readReg .status).getLsbD 1 = r.crcOk ∧
      (r.readReg .status).getLsbD 2 = r.sigOk ∧ (r.readReg .status).getLsbD 3 = r.eos ∧
      (r.readReg .status).getLsbD 4 = r.signed ∧ ∀ k, 5 ≤ k → (r.readReg .status).getLsbD k = false := by
  refine ⟨?_, ?_, ?_, ?_, ?_, fun _ => getLsbD_setWidth_of_width_le r.statusWord 48⟩ <;>
    simp [RxHalf.readReg, RxHalf.statusWord, flagBits_getElem]

/-- The cursor fits `R.TENT` (10_state.md R33). -/
theorem RxHalf.readReg_tent_toNat {r : RxHalf} (h : r.tent ≤ 280) : (r.readReg .tent).toNat = r.tent := by
  rw [RxHalf.readReg, BitVec.toNat_setWidth, BitVec.toNat_ofNat]
  omega

/-! ### The bytes of `R.HASH` (R221, 42_decode_validate.md R157) -/

/-- `R.HASH` is the hash of the signed v2 frame at the head of `w`, behind its header, payload, checksum, link id and
timestamp. -/
def RxHalf.hasHashOf (r : RxHalf) (w : Bytes) : Prop :=
  ∀ k, k < 6 → r.hash.extractLsb' (8 * k) 8 = byteAt w (19 + (byteAt w 1).toNat + k)

/-- A signed frame is decoded from bytes that hold a signature block. -/
theorem signature_le_length_of_decodeV2 {w : Bytes} {f : Frame} (h : decodeV2 w = some f) (hs : f.signed = true) :
    25 + (byteAt w 1).toNat ≤ w.length := by
  have hfits : frameLenV2 (byteAt w 1) (byteAt w 2) ≤ w.length := declaredLen_le_of_decodeFrame (v := .v2) h
  obtain ⟨-, -, -, hincompat, -⟩ := decodeV2_fields h
  have hbit : (byteAt w 2).getLsbD 0 = true := by rw [← hincompat, ← decodeV2_signed h, hs]
  rw [frameLenV2, sigLen_eq, hbit, Bool.toNat_true] at hfits
  omega

theorem RxHalf.storeFrame_hasHashOf (r : RxHalf) {w : Bytes} {f : Frame} (h : decodeV2 w = some f) (hs : f.signed = true) :
    (r.storeFrame f).hasHashOf w := by
  intro k hk
  obtain ⟨-, -, hhash⟩ := decodeV2_signature h hs
  rw [RxHalf.storeFrame_hash, hhash, fromLe_slice_six_byte (by omega) hk]

theorem byteAt_take (s : Bytes) {n k : Nat} (h : k < n) : byteAt (s.take n) k = byteAt s k := by
  simp [byteAt, List.getD_eq_getElem?_getD, h]

/-- A signed frame decoded from the first bytes of a stream. -/
theorem RxHalf.storeFrame_hasHashOf_of_take (r : RxHalf) {s : Bytes} {n : Nat} {f : Frame}
    (h : decodeV2 (s.take n) = some f) (hs : f.signed = true) : (r.storeFrame f).hasHashOf s := by
  have hlen := (signature_le_length_of_decodeV2 h hs).trans (List.length_take_le n s)
  have hone : byteAt (s.take n) 1 = byteAt s 1 := byteAt_take s (by omega)
  rw [hone] at hlen
  intro k hk
  rw [r.storeFrame_hasHashOf h hs k hk, hone, byteAt_take s (by omega)]

/-- If a signed frame is current, `R.HASH` is the hash of the frame at the head of the stream. -/
def RxHalf.hashFollowsStream (r : RxHalf) : Prop := r.frame = true → r.signed = true → r.hasHashOf r.stream

theorem RxHalf.hashFollowsStream_of_no_frame {r : RxHalf} (h : r.frame = false) : r.hashFollowsStream :=
  fun hf => absurd (h.symm.trans hf) Bool.false_ne_true

/-- Where no frame is current, capturing the head of the stream makes at most that window the current one. -/
theorem RxHalf.capture_hashFollowsStream {r : RxHalf} (h : r.frame = false) (v : Ver) (n : Nat) :
    (r.capture v (r.stream.take n)).hashFollowsStream := by
  cases hd : decodeFrame v (r.stream.take n) with
  | none =>
    refine RxHalf.hashFollowsStream_of_no_frame ?_
    simp only [RxHalf.capture, hd, h]
  | some f =>
    rw [RxHalf.capture_of_decodeFrame r hd]
    intro _ hs
    obtain ⟨-, hv⟩ := decodeFrame_ok hd
    obtain ⟨hv2, -⟩ := decodeFrame_signed hd hs
    obtain rfl : v = .v2 := hv.symm.trans hv2
    exact RxHalf.storeFrame_hasHashOf_of_take _ hd hs

theorem RxHalf.finishScan_hashFollowsStream {r : RxHalf} (h : r.frame = false) (x : ScanResult) :
    (r.finishScan x).hashFollowsStream := by
  obtain ⟨stream, stop⟩ := x
  cases stop with
  | ended | failed | hold p t => exact RxHalf.hashFollowsStream_of_no_frame h
  | found v n => exact RxHalf.capture_hashFollowsStream (r := { r with stream := stream, tent := n, held := none }) h v n

theorem RxHalf.syncNext_hashFollowsStream (e : Nat) (r : RxHalf) : (r.syncNext e).hashFollowsStream := by
  rw [RxHalf.syncNext_eq]
  exact RxHalf.finishScan_hashFollowsStream r.clearFrame_frame _

theorem RxHalf.resume_hashFollowsStream {r : RxHalf} (h : r.frame = false) : r.resume.hashFollowsStream := by
  unfold RxHalf.resume
  split
  · exact RxHalf.hashFollowsStream_of_no_frame h
  · exact RxHalf.finishScan_hashFollowsStream h _
  · obtain ⟨hframe, -⟩ := r.finishDrop_sameFlags
    exact RxHalf.hashFollowsStream_of_no_frame (hframe.trans h)

/-- Where no frame is current, a move of an agent outside makes at most the window of a held scan the current one. -/
theorem State.applyMove_hashFollowsStream {s : State} (h : s.rx.frame = false) (m : Move) :
    (s.applyMove m).rx.hashFollowsStream := by
  cases m with
  | issue c w => cases c <;> exact RxHalf.hashFollowsStream_of_no_frame h
  | deliver b =>
    show (s.rx.deliver b).hashFollowsStream
    cases hc : s.rx.closed with
    | true =>
      rw [RxHalf.deliver_of_closed hc]
      exact RxHalf.hashFollowsStream_of_no_frame h
    | false =>
      rw [RxHalf.deliver_of_open hc]
      exact RxHalf.resume_hashFollowsStream h
  | close => exact RxHalf.resume_hashFollowsStream (r := { s.rx with closed := true }) h
  | reset => exact RxHalf.hashFollowsStream_of_no_frame rfl
  | sink _ | wait => exact RxHalf.hashFollowsStream_of_no_frame h

theorem State.applyMove_chan_rx {s : State} (h : s.chan = .rx) (m : Move) : (s.applyMove m).chan = .rx := by
  cases m with
  | issue c w => cases c <;> exact h
  | reset => rfl
  | deliver _ | close | sink _ | wait => exact h

/-- Settles O17: the flags are the bits of their word, and the hash of the window decoded is read byte by byte. -/
theorem statusWordsReadBitByBit : Obligations.StatusWordsReadBitByBit := by
  refine fun s => ⟨fun hc => ⟨⟨_, toTx_rdr hc .status, s.tx.statusWord_bits⟩, _, toTx_rdr hc .cfg, s.tx.cfgWord_bits⟩,
    fun hc => ⟨⟨_, toRx_rdr hc .status, s.rx.statusWord_bits⟩,
      fun ht => ⟨_, toRx_rdr hc .tent, RxHalf.readReg_tent_toNat ht⟩, ?decoder, ?scanner⟩⟩
  case decoder =>
    intro w t he hf hs
    obtain ⟨f, hd⟩ := exists_decodeFrame_of_exec (v := .v2) rfl hc he hf
    have ht : t.chan = .rx ∧ t.rx.hasHashOf w := by
      rw [exec_rx .decV2 hc, rxEffect, RxHalf.decodeWindow_some hd] at he
      cases he
      exact ⟨hc, s.rx.clearFrame.storeFrame_hasHashOf hd hs⟩
    obtain ⟨hchan, hhash⟩ := ht
    exact ⟨_, toRx_rdr hchan .hash, hhash⟩
  case scanner =>
    intro t h hf hs
    have ht : t.chan = .rx ∧ t.rx.hashFollowsStream := by
      rcases h with he | ⟨hnone, m, rfl⟩
      · rw [exec_rx .syncNext hc] at he
        cases he
        exact ⟨hc, s.rx.syncNext_hashFollowsStream s.epoch⟩
      · exact ⟨State.applyMove_chan_rx hc m, State.applyMove_hashFollowsStream hnone m⟩
    obtain ⟨hchan, hhash⟩ := ht
    exact ⟨_, toRx_rdr hchan .hash, hhash hf hs⟩

end Sys2Proof.Machine

/-! PROOFS. The statement of 46_host_connection.md: what a send does to the sequence counter and to the wire. -/

namespace Sys2Proof.Machine

section
variable {α : Type}

/-! ### What changes the sequence counter (R243, R244) -/

/-- The writer raises the counter when it takes an encoder's `OK`, and changes it nowhere else. -/
theorem Conn.writerTakes_seqctr (p : WritePos) (r : Response) (c : Conn α) :
    (c.writerTakes p r).seqctr = c.seqctr ∨
      ((c.writerTakes p r).seqctr = c.seqctr + 1 ∧ ∃ kind, p = .load kind [] ∧ r.status = .ok) := by
  cases p with
  | load kind todo =>
    cases todo with
    | nil =>
      by_cases hr : r.status = .ok
      · exact .inr ⟨by simp [Conn.writerTakes, hr], kind, rfl, hr⟩
      · exact .inl (by simp [Conn.writerTakes, hr])
    | cons l todo => exact .inl rfl
  | send | connecting => exact .inl rfl

theorem Conn.writerMove_seqctr {c : Conn α} (h : c.writerMove.seqctr ≠ c.seqctr) :
    c.writerMove.seqctr = c.seqctr + 1 ∧
      ∃ kind n r, c.writer = some ⟨.load kind [], some n⟩ ∧ c.mfu.tx.responses[n]? = some r ∧ r.status = .ok := by
  rcases c.writerMove_cases with hm | ⟨p, i, -, -, hm⟩ | ⟨p, n, r, hw, hr, hm⟩ <;> rw [hm] at h ⊢
  · exact absurd rfl h
  · exact absurd rfl h
  · obtain hsame | ⟨hup, kind, rfl, hok⟩ := c.writerTakes_seqctr p r
    · exact absurd hsame h
    · exact ⟨hup, kind, n, r, hw, hr, hok⟩

theorem Conn.readerMove_seqctr {dialect : Dialect α} {c : Conn α} (h : (c.readerMove dialect).seqctr ≠ c.seqctr) :
    (c.readerMove dialect).seqctr = 0 ∧ ∃ n, c.reader = some ⟨.connect, some n⟩ := by
  rcases c.readerMove_cases dialect with hm | ⟨p, -, hm⟩ | ⟨p, n, r, hp, -, hm⟩ <;> rw [hm] at h ⊢
  · exact absurd rfl h
  · exact absurd rfl h
  · rw [Conn.readerTakes_seqctr] at h ⊢
    by_cases hconnect : p = .connect
    · subst hconnect
      exact ⟨if_pos rfl, n, hp⟩
    · exact absurd (if_neg hconnect) h

/-! ### An MFU with nothing to do but the writer's commands -/

/-- The TX half is free, no word waits on either channel, and no reset comes next: the next word issued on the TX channel is
the next one executed. -/
structure State.TxIdle (s : State) : Prop where
  sending : s.tx.sending = false
  txQueue : s.tx.queue = []
  rxQueue : s.rx.queue = []
  noReset : s.moves.head? ≠ some .reset

/-- The MFU after the command `i` was executed on the TX channel. -/
def State.runTx (i : Instr) (s : State) : State := { s with chan := .tx, tx := txEffect i s.epoch s.tx }

theorem TxHalf.KeepsRest.queue {t t' : TxHalf} (h : t.KeepsRest t') : t'.queue = t.queue := by
  obtain ⟨-, -, hqueue⟩ := h.around
  exact hqueue

/-- No command changes which words wait. -/
theorem txEffect_queue (i : Instr) (e : Nat) (t : TxHalf) : (txEffect i e t).queue = t.queue := by
  cases i with
  | rdr _ | wrr _ _ | ldb _ _ | crcInit | crcAcc _ | crcBuf _ _ _ =>
    exact TxHalf.KeepsRest.queue (txEffect_keepsRest rfl e t)
  | stb sp ix b => simp only [txEffect, TxHalf.stb]; split <;> rfl
  | encV1 => simp only [txEffect, TxHalf.encV1]; split <;> rfl
  | txSend =>
    simp only [txEffect, TxHalf.txSend]
    split
    · rfl
    · exact TxHalf.resume_queue e { t with sending := true }
  | encV2U | encV2S | decV1 | decV2 | rxChk _ | sigVfy | syncNext | syncDrop | syncConnect => rfl

/-- A command that answers at once leaves the MFU as ready for the next one. -/
theorem State.TxIdle.runTx {s : State} (h : s.TxIdle) {i : Instr} (hi : i ≠ .txSend) : (s.runTx i).TxIdle where
  sending := by
    obtain ⟨hsending, -⟩ := txEffect_answers_at_once hi s.epoch s.tx
    exact hsending.trans h.sending
  txQueue := (txEffect_queue i s.epoch s.tx).trans h.txQueue
  rxQueue := h.rxQueue
  noReset := h.noReset

/-! ### One turn of the thread that holds the write lock (R241, R245) -/

section
variable (dialect : Dialect α) {c : Conn α} {p : WritePos} {i : Instr} {t : TxHalf} (hidle : c.mfu.TxIdle)
  (hw : c.writer = some ⟨p, none⟩) (hp : p.command c.seqctr = some i) (he : txEffect i c.mfu.epoch c.mfu.tx = t)
include hidle hw hp he

/-- The MFU executes the command, and the thread looks for the response. -/
theorem Conn.turn_eq_writerMove : c.turn dialect .writer =
    { c with
      mfu := { c.mfu with chan := .tx, tx := t }
      writer := some ⟨p, some c.mfu.tx.responses.length⟩ }.writerMove := by
  subst he
  exact Conn.writer_turn dialect hw hp (decodeOfEncodeIsTheCommand i) hidle.sending hidle.txQueue hidle.rxQueue hidle.noReset

/-- The command has answered within the turn: the thread goes on with the response. -/
theorem Conn.turn_of_answer {x : Response} (hx : t.responses = c.mfu.tx.responses ++ [x]) : c.turn dialect .writer =
    { c with
      mfu := { c.mfu with chan := .tx, tx := t }
      writer := some ⟨p, some c.mfu.tx.responses.length⟩ }.writerTakes p x := by
  rw [Conn.turn_eq_writerMove dialect hidle hw hp he]
  simp [Conn.writerMove, hx]

/-- The command is held at the end of the turn: the thread is suspended. -/
theorem Conn.turn_of_held (hx : t.responses = c.mfu.tx.responses) : c.turn dialect .writer =
    { c with
      mfu := { c.mfu with chan := .tx, tx := t }
      writer := some ⟨p, some c.mfu.tx.responses.length⟩ } := by
  rw [Conn.turn_eq_writerMove dialect hidle hw hp he]
  simp [Conn.writerMove, hx]

end

/-! ### The loading commands -/

/-- The MFU after the loading commands, given with the counter at `seqctr`. -/
def State.load (seqctr : BitVec 8) (ls : List SendLoad) (s : State) : State :=
  ls.foldl (fun s l => s.runTx (l.command seqctr)) s

/-- One turn per loading command brings the writer to its encoder; their responses are not looked at. -/
theorem Conn.turns_load (dialect : Dialect α) {c : Conn α} {kind : SendKind} {ls : List SendLoad} (hidle : c.mfu.TxIdle)
    (hw : c.writer = some ⟨.load kind ls, none⟩) (hls : ∀ l ∈ ls, l.command c.seqctr ≠ .txSend) :
    (Conn.turn dialect .writer)^[ls.length] c =
      { c with mfu := c.mfu.load c.seqctr ls, writer := some ⟨.load kind [], none⟩ } := by
  induction ls generalizing c with
  | nil => rw [← hw]; rfl
  | cons l ls ih =>
    obtain ⟨hl, hls⟩ := List.forall_mem_cons.1 hls
    obtain ⟨-, x, hx⟩ := txEffect_answers_at_once hl c.mfu.epoch c.mfu.tx
    have hturn : c.turn dialect .writer =
        { c with mfu := c.mfu.runTx (l.command c.seqctr), writer := some ⟨.load kind ls, none⟩ } :=
      Conn.turn_of_answer dialect hidle hw rfl rfl hx
    rw [List.length_cons, Function.iterate_succ_apply, hturn]
    exact ih (hidle.runTx hl) rfl hls

theorem State.TxIdle.load {s : State} (h : s.TxIdle) {seqctr : BitVec 8} {ls : List SendLoad}
    (hls : ∀ l ∈ ls, l.command seqctr ≠ .txSend) : (s.load seqctr ls).TxIdle :=
  ls.foldlRecOn _ h fun _ hs l hl => hs.runTx (hls l hl)

theorem State.load_out (s : State) {seqctr : BitVec 8} {ls : List SendLoad}
    (hls : ∀ l ∈ ls, l.command seqctr ≠ .txSend) : (s.load seqctr ls).tx.out = s.tx.out :=
  ls.foldlRecOn (motive := fun u => u.tx.out = s.tx.out) _ rfl
    fun (u : State) hu l hl => (txEffect_out (hls l hl) u.epoch u.tx).trans hu

theorem mem_loadBytes {space : BitVec 8} {bs : Bytes} {i : Instr} (h : i ∈ loadBytes space bs) :
    ∃ k b, i = .stb space k b := by
  obtain ⟨x, -, rfl⟩ := List.mem_map.1 h
  exact ⟨_, _, rfl⟩

/-- The signing parameters are loaded by byte stores and by writes of `LINKID` and `TS`. -/
theorem SendKind.mem_loads {kind : SendKind} {i : Instr} (h : i ∈ kind.loads) :
    (∃ k b, i = .stb 2 k b) ∨ ∃ n v, i = .wrr n v ∧ n ≠ TxReg.seq.number := by
  cases kind with
  | v1 | v2u => cases h
  | v2s linkid ts key =>
    simp only [SendKind.loads, List.mem_append, List.mem_cons, List.not_mem_nil, or_false] at h
    rcases h with h | rfl | rfl
    · exact .inl (mem_loadBytes h)
    · exact .inr ⟨_, _, rfl, by decide⟩
    · exact .inr ⟨_, _, rfl, by decide⟩

/-- No loading command sends. -/
theorem sendLoads_ne_txSend {kind : SendKind} {sys comp : Byte} {m : Outgoing} {l : SendLoad}
    (h : l ∈ sendLoads kind sys comp m) (seqctr : BitVec 8) : l.command seqctr ≠ .txSend := by
  simp only [sendLoads, List.mem_append, List.mem_cons, List.mem_map, List.not_mem_nil, or_false] at h
  rcases h with ⟨i, hi | hi, rfl⟩ | rfl | ⟨i, hi, rfl⟩
  · obtain ⟨k, b, rfl⟩ := mem_loadBytes hi
    nofun
  · rcases hi with rfl | rfl | rfl | rfl | rfl <;> nofun
  · nofun
  · rcases SendKind.mem_loads hi with ⟨k, b, rfl⟩ | ⟨n, v, rfl, -⟩ <;> nofun

/-! ### The sequence register (45_access_system.md R222) -/

theorem txEffect_stb_seq (space : BitVec 8) (k : BitVec 16) (b : Byte) (e : Nat) (t : TxHalf) :
    (txEffect (.stb space k b) e t).seq = t.seq := by
  simp only [txEffect, TxHalf.stb]
  split <;> rfl

theorem txEffect_wrr_seq_of_ne {n : BitVec 8} (hn : n ≠ TxReg.seq.number) (v : BitVec 48) (e : Nat) (t : TxHalf) :
    (txEffect (.wrr n v) e t).seq = t.seq := by
  simp only [txEffect, TxHalf.wrr]
  split
  · rfl
  · rename_i y hy
    obtain ⟨rfl, -⟩ := TxReg.target_eq_some_iff.1 hy
    cases y with
    | seq => exact absurd rfl hn
    | _ => rfl

theorem txEffect_wrr_seq (b : Byte) (e : Nat) (t : TxHalf) :
    (txEffect (.wrr TxReg.seq.number (b.setWidth 48)) e t).seq = b := by
  have hfits : (b.setWidth 48).toNat < 2 ^ TxReg.seq.width := by
    simpa [TxReg.width] using Nat.lt_of_le_of_lt (Nat.mod_le _ _) b.isLt
  simp only [txEffect, TxHalf.wrr, TxReg.target_eq_some_iff.2 ⟨rfl, rfl, hfits⟩]
  simp [TxHalf.writeReg]

/-- The loading commands leave the counter's value in `T.SEQ`: what comes after `WRR SEQ` does not write it. -/
theorem State.load_seq (kind : SendKind) (sys comp : Byte) (m : Outgoing) (seqctr : BitVec 8) (s : State) :
    (s.load seqctr (sendLoads kind sys comp m)).tx.seq = seqctr := by
  have hput (u : State) : (u.runTx (SendLoad.seq.command seqctr)).tx.seq = seqctr := txEffect_wrr_seq seqctr u.epoch u.tx
  simp only [State.load, sendLoads, List.foldl_append, List.foldl_cons]
  refine List.foldlRecOn (motive := fun u : State => u.tx.seq = seqctr) _ _ (hput _)
    fun u hu l hl => Eq.trans ?_ hu
  obtain ⟨i, hi, rfl⟩ := List.mem_map.1 hl
  rcases SendKind.mem_loads hi with ⟨k, b, rfl⟩ | ⟨n, v, rfl, hn⟩
  · exact txEffect_stb_seq 2 k b u.epoch u.tx
  · exact txEffect_wrr_seq_of_ne hn v u.epoch u.tx

/-! ### The encoder and `TX.SEND` (41_encode.md R142 to R148) -/

/-- The encoder of a send refuses a wide id, or builds a frame with `T.SEQ` at the sequence byte's offset. -/
theorem SendKind.encoder_cases (kind : SendKind) (e : Nat) (t : TxHalf) :
    txEffect kind.encoder e t = t.says .range 0 ∨
      ∃ b : Built, b.bytes.length ≤ 280 ∧ byteAt b.bytes kind.seqOffset = t.seq ∧
        txEffect kind.encoder e t = t.finishEncode b := by
  cases kind with
  | v1 =>
    rcases Nat.lt_or_ge 255 t.msgid.toNat with hid | hid
    · exact .inl (TxHalf.encV1_of_wide_id e hid)
    · exact .inr ⟨_, t.builtV1_fits e, rfl, TxHalf.encV1_of_byte_id e hid⟩
  | v2u => exact .inr ⟨_, t.builtV2U_fits e, rfl, t.encV2U_eq e⟩
  | v2s linkid ts key => exact .inr ⟨_, t.builtV2S_fits e, rfl, t.encV2S_eq e⟩

/-- A frame that fits reads back from the buffer as the frame to send. -/
theorem TxHalf.finishEncode_txFrame (e : Nat) (t : TxHalf) {b : Built} (h : b.bytes.length ≤ 280) :
    (t.finishEncode b).txFrame e = b.bytes := by
  rw [TxHalf.txFrame, t.finishEncode_txlen_toNat h]
  exact Spaces.memRead_memWrite e .tx t.mem .buf 0 b.bytes

/-- The frame `f` was sent whole or in part, or waits for the sink. -/
def Conn.SendsFrame (f : Bytes) (c d : Conn α) : Prop :=
  (d.writer = none ∧ d.sent = c.sent ++ [.sent] ∧ d.mfu.tx.out = c.mfu.tx.out ++ f) ∨
    (d.writer = none ∧ d.sent = c.sent ++ [.ioError] ∧ ∃ k, d.mfu.tx.out = c.mfu.tx.out ++ f.take k) ∨
    ((∃ k, d.writer = some ⟨.send, some k⟩) ∧ d.mfu.tx.sending = true ∧ d.mfu.tx.out = c.mfu.tx.out)

/-- The turn of `TX.SEND` with a valid frame, by the sink's next answer if there is one. -/
theorem Conn.turn_send (dialect : Dialect α) {c : Conn α} (hidle : c.mfu.TxIdle) (hw : c.writer = some ⟨.send, none⟩)
    (hv : c.mfu.tx.txvalid = true) :
    (c.turn dialect .writer).seqctr = c.seqctr ∧
      (c.turn dialect .writer).mfu.tx.txFrame (c.turn dialect .writer).mfu.epoch = c.mfu.tx.txFrame c.mfu.epoch ∧
      Conn.SendsFrame (c.mfu.tx.txFrame c.mfu.epoch) c (c.turn dialect .writer) := by
  cases hk : c.mfu.tx.sink with
  | nil =>
    have he : txEffect .txSend c.mfu.epoch c.mfu.tx = { c.mfu.tx with sending := true } :=
      (TxHalf.txSend_of_txvalid c.mfu.epoch hv).trans
        (TxHalf.resume_of_no_answer c.mfu.epoch (t := { c.mfu.tx with sending := true }) hk)
    rw [Conn.turn_of_held dialect hidle hw rfl he rfl]
    exact ⟨rfl, rfl, .inr (.inr ⟨⟨_, rfl⟩, rfl, rfl⟩)⟩
  | cons a rest =>
    have he := TxHalf.txSend_of_answer c.mfu.epoch hv hk
    cases a with
    | takesAll =>
      rw [Conn.turn_of_answer dialect hidle hw rfl he rfl]
      exact ⟨rfl, rfl, .inl ⟨rfl, rfl, rfl⟩⟩
    | failsAfter k =>
      rw [Conn.turn_of_answer dialect hidle hw rfl he rfl]
      exact ⟨rfl, rfl, .inr (.inl ⟨rfl, rfl, k, rfl⟩)⟩

/-- Where the encoder refuses, its turn ends the send. -/
theorem Conn.turn_encoder_refused (dialect : Dialect α) {c : Conn α} {kind : SendKind} (hidle : c.mfu.TxIdle)
    (hw : c.writer = some ⟨.load kind [], none⟩)
    (he : txEffect kind.encoder c.mfu.epoch c.mfu.tx = c.mfu.tx.says .range 0) :
    c.turn dialect .writer =
      { c with
        mfu := { c.mfu with chan := .tx, tx := c.mfu.tx.says .range 0 }
        writer := none
        sent := c.sent ++ [.refused .range] } :=
  Conn.turn_of_answer dialect hidle hw rfl he rfl

/-- Where the encoder builds a frame, its turn raises the counter, and the next one is that of `TX.SEND` with this frame. -/
theorem Conn.turns_encoder_send (dialect : Dialect α) {c : Conn α} {kind : SendKind} (hidle : c.mfu.TxIdle)
    (hw : c.writer = some ⟨.load kind [], none⟩) {b : Built} (hfits : b.bytes.length ≤ 280)
    (he : txEffect kind.encoder c.mfu.epoch c.mfu.tx = c.mfu.tx.finishEncode b) :
    let d := (Conn.turn dialect .writer)^[2] c
    d.seqctr = c.seqctr + 1 ∧ d.mfu.tx.txFrame d.mfu.epoch = b.bytes ∧ Conn.SendsFrame b.bytes c d := by
  have hturn : c.turn dialect .writer =
      { c with
        mfu := { c.mfu with chan := .tx, tx := c.mfu.tx.finishEncode b }
        writer := some ⟨.send, none⟩
        seqctr := c.seqctr + 1 } :=
    Conn.turn_of_answer dialect hidle hw rfl he rfl
  have hidle' : (c.turn dialect .writer).mfu.TxIdle := by
    rw [hturn]; exact ⟨hidle.sending, hidle.txQueue, hidle.rxQueue, hidle.noReset⟩
  have hsend := Conn.turn_send dialect hidle' (by rw [hturn]) (by rw [hturn]; rfl)
  rw [← TxHalf.finishEncode_txFrame c.mfu.epoch c.mfu.tx hfits]
  simp only [Function.iterate_succ_apply, Function.iterate_zero_apply]
  rw [hturn] at hsend ⊢
  exact hsend

end

/-- Settles O60: a turn per loading command leaves the counter in `T.SEQ`, the encoder's turn ends the send or raises the
counter, and the turn of `TX.SEND` does what the sink decides. -/
theorem sendUsesEachSequenceNumberOnce : Obligations.SendUsesEachSequenceNumberOnce := by
  refine ⟨fun α dialect x c h => ?counter, fun α dialect kind sys comp m c hw hs hq hr hm => ?ends⟩
  case counter =>
    cases x with
    | reader =>
      obtain ⟨h0, hc⟩ := Conn.readerMove_seqctr h
      exact .inr (.inl ⟨h0, rfl, hc⟩)
    | writer =>
      obtain ⟨hup, hc⟩ := Conn.writerMove_seqctr h
      exact .inl ⟨(congrArg BitVec.toNat hup).trans (BitVec.toNat_add _ _), rfl, hc⟩
    | mfu =>
      have hctr := c.mfuMove_seqctr
      by_cases hreset : c.mfu.moves.head? = some .reset
      · exact .inr (.inr ⟨hctr.trans (if_pos hreset), rfl, hreset⟩)
      · exact absurd (hctr.trans (if_neg hreset)) h
  case ends =>
    have hstart : c.mfu.TxIdle := ⟨hs, hq, hr, hm⟩
    have hls := fun l (hl : l ∈ sendLoads kind sys comp m) => sendLoads_ne_txSend hl c.seqctr
    have hload : (Conn.turn dialect .writer)^[(sendLoads kind sys comp m).length] (c.callSend kind sys comp m) =
        { c with mfu := c.mfu.load c.seqctr (sendLoads kind sys comp m), writer := some ⟨.load kind [], none⟩ } := by
      rw [Conn.callSend, hw]
      exact Conn.turns_load dialect hstart rfl hls
    have hout := c.mfu.load_out hls
    have hseq := c.mfu.load_seq kind sys comp m c.seqctr
    have hidle := hstart.load hls
    generalize c.mfu.load c.seqctr (sendLoads kind sys comp m) = s at hload hout hseq hidle
    rcases kind.encoder_cases s.epoch s.tx with he | ⟨b, hfits, hbyte, he⟩
    · refine ⟨1 + (sendLoads kind sys comp m).length, .inl ?_⟩
      rw [Function.iterate_add_apply, hload, Function.iterate_one, Conn.turn_encoder_refused dialect hidle rfl he]
      exact ⟨rfl, ⟨_, rfl⟩, rfl, hout⟩
    · refine ⟨2 + (sendLoads kind sys comp m).length, .inr ?_⟩
      obtain ⟨hctr, hframe, hsends⟩ := Conn.turns_encoder_send dialect
        (c := { c with mfu := s, writer := some ⟨.load kind [], none⟩ }) hidle rfl hfits he
      rw [Conn.SendsFrame, hout] at hsends
      rw [Function.iterate_add_apply, hload]
      exact ⟨hctr, b.bytes, hbyte.trans hseq, hframe, hsends⟩

end Sys2Proof.Machine

/-! PROOFS. The statements of 60_exceptions.md: which statuses a command can answer, and that no step stops the machine. -/

namespace Sys2Proof.Machine

/-! ### The statuses of a command (60_exceptions.md R263) -/

/-- If `rs'` is `rs` with one response more, that response has one of the statuses `sts`. -/
def AnswersWithin (sts : List Status) (rs rs' : List Response) : Prop := ∀ x, rs' = rs ++ [x] → x.status ∈ sts

theorem AnswersWithin.raise {sts : List Status} {st : Status} (h : st ∈ sts) (rs : List Response) (d : BitVec 48) :
    AnswersWithin sts rs (rs ++ [⟨st, d⟩]) := by
  intro x hx
  obtain rfl : ⟨st, d⟩ = x := List.singleton_inj.1 (List.append_cancel_left hx)
  exact h

theorem ok_mem_statusesOf (i : Instr) : .ok ∈ statusesOf i := by
  cases i <;> exact List.mem_cons_self

theorem AnswersWithin.reply (i : Instr) (rs : List Response) (d : BitVec 48) :
    AnswersWithin (statusesOf i) rs (rs ++ [⟨.ok, d⟩]) :=
  .raise (ok_mem_statusesOf i) rs d

/-- A command that is held has answered nothing yet. -/
theorem AnswersWithin.held (sts : List Status) (rs : List Response) : AnswersWithin sts rs rs :=
  fun _ hx => absurd (List.self_eq_append_right.1 hx) (List.cons_ne_nil _ _)

@[simp] theorem TxHalf.writeReg_responses (t : TxHalf) (x : TxReg) (v : BitVec 48) :
    (t.writeReg x v).responses = t.responses := by
  cases x <;> rfl

@[simp] theorem RxHalf.writeReg_responses (r : RxHalf) (x : RxReg) (v : BitVec 48) :
    (r.writeReg x v).responses = r.responses := by
  cases x <;> rfl

/-- What the sink does with the frame is answered `OK` or `IOERR` (41_encode.md R148). -/
theorem TxHalf.offer_answersWithin (e : Nat) (t : TxHalf) (a : SinkAnswer) :
    AnswersWithin (statusesOf .txSend) t.responses (t.offer e a).responses := by
  cases a with
  | takesAll => exact .reply .txSend _ _
  | failsAfter k => exact .raise (by decide) _ _

theorem TxHalf.resume_answersWithin (e : Nat) (t : TxHalf) :
    AnswersWithin (statusesOf .txSend) t.responses (t.resume e).responses := by
  unfold TxHalf.resume
  split
  · split
    · exact .held _ _
    · exact TxHalf.offer_answersWithin e _ _
  · exact .held _ _

theorem txEffect_answersWithin {i : Instr} (h : i.wellFormed .tx = true) (e : Nat) (t : TxHalf) :
    AnswersWithin (statusesOf i) t.responses (txEffect i e t).responses := by
  cases i with
  | rdr _ | ldb _ _ | stb _ _ _ | crcBuf _ _ _ =>
    simp only [txEffect, TxHalf.rdr, TxHalf.ldb, TxHalf.stb, TxHalf.crcBuf]
    split
    · exact .raise (st := .badarg) (by simp [statusesOf]) _ _
    · exact .reply _ _ _
  | wrr reg v =>
    simp only [txEffect, TxHalf.wrr]
    split
    · exact .raise (st := .badarg) (by simp [statusesOf]) _ _
    · rename_i y _
      rw [← t.writeReg_responses y v]
      exact .reply _ _ _
  | encV1 =>
    simp only [txEffect, TxHalf.encV1]
    split
    · exact .raise (st := .range) (by decide) _ _
    · exact .reply .encV1 _ _
  | txSend =>
    simp only [txEffect, TxHalf.txSend]
    split
    · exact .raise (st := .noframe) (by decide) _ _
    · exact TxHalf.resume_answersWithin e { t with sending := true }
  | crcInit | crcAcc _ | encV2U | encV2S => exact .reply _ _ _
  | decV1 | decV2 | rxChk _ | sigVfy | syncNext | syncDrop | syncConnect => cases h

theorem RxHalf.decodeWindow_answersWithin (v : Ver) (e : Nat) (r : RxHalf) :
    AnswersWithin [.ok, .format] r.responses (r.decodeWindow v e).responses := by
  unfold RxHalf.decodeWindow
  split
  · exact .raise (st := .format) (by decide) _ _
  · exact .raise (st := .ok) (by decide) _ _

/-- A scan that stops answers `EOS` at the stream's end and `OK` at a window; elsewhere it is held. -/
theorem RxHalf.finishScan_answersWithin (r : RxHalf) (x : ScanResult) :
    AnswersWithin (statusesOf .syncNext) r.responses (r.finishScan x).responses := by
  obtain ⟨stream, stop⟩ := x
  cases stop with
  | ended => exact .raise (st := .eos) (by decide) _ _
  | found v n =>
    have hcapture := RxHalf.capture_responses { r with stream := stream, tent := n, held := none } v (stream.take n)
    exact hcapture ▸ .reply .syncNext _ _
  | hold p t | failed => exact .held _ _

theorem RxHalf.finishDrop_answersWithin (r : RxHalf) :
    AnswersWithin (statusesOf .syncDrop) r.responses r.finishDrop.responses := by
  unfold RxHalf.finishDrop
  split
  · exact .reply .syncDrop _ _
  · exact .reply .syncDrop _ _
  · exact .held _ _

theorem rxEffect_answersWithin {i : Instr} (h : i.wellFormed .rx = true) (e : Nat) (r : RxHalf) :
    AnswersWithin (statusesOf i) r.responses (rxEffect i e r).responses := by
  cases i with
  | rdr _ | ldb _ _ | stb _ _ _ | crcBuf _ _ _ =>
    simp only [rxEffect, RxHalf.rdr, RxHalf.ldb, RxHalf.stb, RxHalf.crcBuf]
    split
    · exact .raise (st := .badarg) (by simp [statusesOf]) _ _
    · exact .reply _ _ _
  | wrr reg v =>
    simp only [rxEffect, RxHalf.wrr]
    split
    · exact .raise (st := .badarg) (by simp [statusesOf]) _ _
    · rename_i y _
      rw [← r.writeReg_responses y v]
      exact .reply _ _ _
  | decV1 | decV2 => exact r.decodeWindow_answersWithin _ e
  | rxChk seed =>
    simp only [rxEffect, RxHalf.rxChk]
    split
    · exact .raise (st := .noframe) (by simp [statusesOf]) _ _
    · exact .reply _ _ _
  | sigVfy =>
    simp only [rxEffect, RxHalf.sigVfy]
    split
    · exact .raise (st := .noframe) (by decide) _ _
    · split
      · exact .raise (st := .nosig) (by decide) _ _
      · exact .reply .sigVfy _ _
  | syncNext => exact RxHalf.finishScan_answersWithin { r.clearFrame.bufCommit with held := some (.scan .marker) } _
  | syncDrop => exact RxHalf.finishDrop_answersWithin { r.clearFrame.bufRollback with held := some .drop }
  | crcInit | crcAcc _ | syncConnect => exact .reply _ _ _
  | encV1 | encV2U | encV2S | txSend => cases h

/-- Settles O11: each half's effect answers within the row of R263, branch by branch; a command left held has answered
nothing. -/
theorem commandsAnswerOnlyTheirStatuses : Obligations.CommandsAnswerOnlyTheirStatuses := by
  intro i s t r hwf he
  rcases exec_cases he with ⟨hc, rfl⟩ | ⟨hc, rfl⟩ <;> rw [hc] at hwf ⊢
  · exact txEffect_answersWithin hwf s.epoch s.tx r
  · exact rxEffect_answersWithin hwf s.epoch s.rx r

/-! ### No step stops the machine (60_exceptions.md R265) -/

theorem exists_runWord_eq_next (w : CmdWord) (s : State) : ∃ t, runWord w s = .next t := by
  rcases runWord_cases w s with ⟨i, -, h⟩ | ⟨-, h⟩ <;> exact ⟨_, h⟩

/-- Settles O8: a step is a reset, the run of a word, or another move of the outside world, and each gives a next state. -/
theorem everyStepAnswersANextState : Obligations.EveryStepAnswersANextState := by
  intro s
  by_cases hreset : s.moves.head? = some .reset
  · obtain ⟨ms, hm⟩ := List.head?_eq_some_iff.1 hreset
    exact ⟨_, step_reset hm⟩
  · cases hn : s.nextCommand with
    | some p => rw [step_of_nextCommand hreset hn]; exact exists_runWord_eq_next p.2 (s.accept p.1)
    | none => exact ⟨_, step_of_nextCommand_none hn⟩

end Sys2Proof.Machine

/-! PROOFS. The statement of 70_reset_and_hazards.md, what the reset input leaves of a machine, and the words of
95_test_vectors.md. -/

namespace Sys2Proof.Machine

/-! ### The reset input (70_reset_and_hazards.md R290, R291) -/

@[simp] theorem State.pinReset_rx (s : State) : s.pinReset.rx = State.reset.rx := rfl

@[simp] theorem State.pinReset_tx (s : State) : s.pinReset.tx = { State.reset.tx with sink := s.tx.sink } := rfl

@[simp] theorem State.pinReset_moves (s : State) : s.pinReset.moves = s.moves := rfl

/-- Settles O13: the reset comes before any command that could begin, so the step is the reset alone, and what it leaves is
read off it. -/
theorem resetInputResetsBothHalves : Obligations.ResetInputResetsBothHalves := by
  intro s ms hm
  exact ⟨_, step_reset hm, State.pinReset_rx _, State.pinReset_tx _, State.pinReset_moves _⟩

/-! ### Words of the test vectors (95_test_vectors.md V-ACC, V-CRC, P1 to P5) -/

/-- A word that is a command's encoding decodes to that command. -/
theorem decode_eq_instr_of_encode_eq {i : Instr} {w : CmdWord} (h : encode i = w) : decode w = .instr i :=
  h ▸ decodeOfEncodeIsTheCommand i

/-- Settles O5: each word is the encoding of the command written beside it. -/
theorem wordsOfTheTestVectorsDecode : Obligations.WordsOfTheTestVectorsDecode := by
  refine ⟨?_, ?_, ?_, ?_, ?_, ?_, ?_, ?_, ?_, ?_⟩ <;> exact decode_eq_instr_of_encode_eq (by decide)

end Sys2Proof.Machine
